-- ==== Sys2Proof/Word.lean ====
section
/-! DEFINITION. The widths TFTBUS moves and holds (20_memory.md R84, 30_encoding.md R110): 8-bit bytes on the lanes, 16-bit words,
32-bit registers and frame words. -/

namespace Sys2Proof

/-- One byte on the lanes D[7:0] (R84). -/
abbrev Byte := BitVec 8

/-- A 16-bit word: a command, a register datum, a 565 or 555 pixel, a coordinate field (R84). -/
abbrev Half := BitVec 16

/-- A 32-bit word: a configuration register, a frame word, a response word (R33, R110). -/
abbrev Word := BitVec 32

end Sys2Proof
end

