-- ==== Sys2Proof/Syntax.lean ====
section
/-! DEFINITION. The requests of TFTBUS as syntax: frames (30_encoding.md R110), the opcodes of the opcode map (R116), and one
constructor of `Instr` per row of opcode_table.json. -/

namespace Sys2Proof

/-- A request frame (R110): a non-empty list of 32-bit words, so a header word and the argument words after it. Log entry 16. -/
structure Frame where
  header : Word
  args   : List Word
  deriving DecidableEq, Repr

/-- The 25 opcodes of the opcode map (R116), by mnemonic. -/
inductive Op where
  | nop | wrcmd | wrdata | wrdata8 | rdword
  | wrreg | wrregp | rdreg | rdreg32 | rdreg40 | inittbl8 | inittbl16
  | setrot | setwin | invert | vscroll
  | pushpix | wrpix | rdpix
  | wrcfg | rdcfg | rdstate | clrstat | delay | busreset
  deriving DecidableEq, Repr

/-- A request with its operands (R116). Coordinates are the 16-bit fields of the frame; the meanings read them as signed (R112). -/
inductive Instr where
  /-- do nothing (R320) -/
  | nop
  /-- write one command word (R150) -/
  | wrcmd (word : Half)
  /-- write one data word (R151) -/
  | wrdata (word : Half)
  /-- write one raw data byte (R152) -/
  | wrdata8 (byte : Byte)
  /-- read one 16-bit word with no command before it (R153) -/
  | rdword
  /-- write a command and one data word (R175) -/
  | wrreg (cmd data : Half)
  /-- write a command and N raw parameter bytes (R176) -/
  | wrregp (cmd : Half) (params : List Byte)
  /-- read the index-th 16-bit word of a register (R177) -/
  | rdreg (addr : Half) (index : Byte)
  /-- 32-bit composite read (R178) -/
  | rdreg32 (addr : Half)
  /-- 40-bit composite read (R179) -/
  | rdreg40 (addr : Half)
  /-- run a byte-oriented initialization table (R180) -/
  | inittbl8 (bracket : Bool) (table : List Byte)
  /-- run a word-oriented initialization table of register and data pairs (R185) -/
  | inittbl16 (bracket : Bool) (pairs : List (Half × Half))
  /-- set the rotation (R220) -/
  | setrot (r : BitVec 2)
  /-- set the address window (R229) -/
  | setwin (x0 y0 x1 y1 : Half)
  /-- display inversion on or off (R240) -/
  | invert (on : Bool)
  /-- vertical scroll (R245) -/
  | vscroll (top lines offset : Half)
  /-- stream pixels into the current window (R280) -/
  | pushpix (first : Bool) (colors : List Half)
  /-- write one pixel (R282) -/
  | wrpix (x y color : Half)
  /-- read a rectangle of pixels (R284) -/
  | rdpix (x y w h : Half)
  /-- write a configuration register (R321) -/
  | wrcfg (index : Byte) (value : Word)
  /-- read a configuration register (R322) -/
  | rdcfg (index : Byte)
  /-- read a state register (R323) -/
  | rdstate (index : Byte)
  /-- clear the sticky error bit (R324) -/
  | clrstat
  /-- wait (R325) -/
  | delay (ms : Half)
  /-- force bring-up (R327) -/
  | busreset
  deriving DecidableEq, Repr

end Sys2Proof
end

