-- ==== Sys2Proof/WellFormed.lean ====
section
/-! DEFINITION. Which terms of `Instr` a frame can carry: the counts fit their fields (30_encoding.md R116) and a register index is
one of the legal ones (R118 item 5). -/

namespace Sys2Proof

/-- The largest configuration register index (10_state.md R35). -/
def maxCfgIndex : Nat := 0x1E

/-- The largest state register index (10_state.md R50). -/
def maxStIndex : Nat := 0x0C

/-- The operands are ones a legal frame encodes (R116, R118). -/
def Instr.wellFormed : Instr → Bool
  | .nop | .wrcmd _ | .wrdata _ | .wrdata8 _ | .rdword => true
  | .wrreg _ _ => true
  | .wrregp _ params => params.length < 2 ^ 8
  | .rdreg _ _ | .rdreg32 _ | .rdreg40 _ => true
  | .inittbl8 _ table => table.length < 2 ^ 16
  | .inittbl16 _ pairs => pairs.length < 2 ^ 16
  | .setrot _ | .setwin _ _ _ _ | .invert _ | .vscroll _ _ _ => true
  | .pushpix _ colors => colors.length < 2 ^ 32
  | .wrpix _ _ _ | .rdpix _ _ _ _ => true
  | .wrcfg index _ => index.toNat ≤ maxCfgIndex
  | .rdcfg index => index.toNat ≤ maxCfgIndex
  | .rdstate index => index.toNat ≤ maxStIndex
  | .clrstat | .delay _ | .busreset => true

end Sys2Proof
end

