-- ==== Sys2Proof/Decode.lean ====
section
/-! DEFINITION. Request decoding (30_encoding.md): the header's fields (R111), the packed argument forms (R112), the opcode map as
data (R116, R117), the illegal conditions by name (R118), the encoder, and the table-word entry the host uses. -/

namespace Sys2Proof

/-! ### Fields of words -/

/-- Bits 15:8 of a 16-bit word, the lane moved first (R82). -/
def hiByte (w : Half) : Byte := w.extractLsb' 8 8

/-- Bits 7:0 of a 16-bit word (R82). -/
def loByte (w : Half) : Byte := w.extractLsb' 0 8

/-- Bits 31:16 of a 32-bit word. -/
def hiHalf (w : Word) : Half := w.extractLsb' 16 16

/-- Bits 15:0 of a 32-bit word. -/
def loHalf (w : Word) : Half := w.extractLsb' 0 16

/-- Header bits 31:24 (R111). -/
def opField (h : Word) : Byte := h.extractLsb' 24 8

/-- Header bits 23:16 (R111). -/
def a8Field (h : Word) : Byte := h.extractLsb' 16 8

/-- Header bits 15:0 (R111). -/
def immField (h : Word) : Half := h.extractLsb' 0 16

/-- The number of words that hold n items, k a word. -/
def wordsFor (n k : Nat) : Nat := (n + (k - 1)) / k

/-! ### Packed argument forms (R112) -/

/-- The four bytes of a word, the most significant first. -/
def wordBytes (w : Word) : List Byte :=
  [w.extractLsb' 24 8, w.extractLsb' 16 8, w.extractLsb' 8 8, w.extractLsb' 0 8]

/-- The two 16-bit halves of a word, the most significant first. -/
def wordHalves (w : Word) : List Half := [hiHalf w, loHalf w]

/-- A byte string as argument words: byte 4k+j in word k, first byte most significant, padding zero. -/
def packBytes : List Byte → List Word
  | [] => []
  | [a] => [a ++ (0 : BitVec 24)]
  | [a, b] => [a ++ b ++ (0 : BitVec 16)]
  | [a, b, c] => [a ++ b ++ c ++ (0 : BitVec 8)]
  | a :: b :: c :: d :: rest => (a ++ b ++ c ++ d) :: packBytes rest

/-- A pixel string as words: sample 2k in the high half of word k, padding zero. -/
def packHalves : List Half → List Word
  | [] => []
  | [a] => [a ++ (0 : Half)]
  | a :: b :: rest => (a ++ b) :: packHalves rest

/-! ### The opcode map (R116) -/

/-- The opcode's number in header bits 31:24 (R116). -/
def Op.code : Op → Byte
  | .nop => 0x00 | .wrcmd => 0x01 | .wrdata => 0x02 | .wrdata8 => 0x03 | .rdword => 0x04
  | .wrreg => 0x10 | .wrregp => 0x11 | .rdreg => 0x12 | .rdreg32 => 0x13 | .rdreg40 => 0x14
  | .inittbl8 => 0x15 | .inittbl16 => 0x16
  | .setrot => 0x20 | .setwin => 0x21 | .invert => 0x22 | .vscroll => 0x23
  | .pushpix => 0x30 | .wrpix => 0x31 | .rdpix => 0x32
  | .wrcfg => 0x40 | .rdcfg => 0x41 | .rdstate => 0x42 | .clrstat => 0x43 | .delay => 0x44
  | .busreset => 0x45

/-- All opcodes, in the order of the map. -/
def Op.all : List Op :=
  [.nop, .wrcmd, .wrdata, .wrdata8, .rdword, .wrreg, .wrregp, .rdreg, .rdreg32, .rdreg40, .inittbl8, .inittbl16,
   .setrot, .setwin, .invert, .vscroll, .pushpix, .wrpix, .rdpix,
   .wrcfg, .rdcfg, .rdstate, .clrstat, .delay, .busreset]

/-- The opcode that header bits 31:24 select (R117), none for the unassigned numbers of R118 item 1. -/
def Op.ofCode (b : Byte) : Option Op := Op.all.find? (fun op => op.code == b)

/-- The header bits that must be zero (R115 to R117; "reserved_mask" of opcode_table.json). -/
def Op.reservedMask : Op → Word
  | .nop => 0x00FFFFFF | .wrcmd => 0x00FF0000 | .wrdata => 0x00FF0000 | .wrdata8 => 0x00FFFF00 | .rdword => 0x00FFFFFF
  | .wrreg => 0x00FF0000 | .wrregp => 0x00000000 | .rdreg => 0x00000000 | .rdreg32 => 0x00FF0000 | .rdreg40 => 0x00FF0000
  | .inittbl8 => 0x00FE0000 | .inittbl16 => 0x00FE0000
  | .setrot => 0x00FCFFFF | .setwin => 0x00FFFFFF | .invert => 0x00FEFFFF | .vscroll => 0x00FFFFFF
  | .pushpix => 0x00FEFFFF | .wrpix => 0x00FF0000 | .rdpix => 0x00FFFFFF
  | .wrcfg => 0x0000FFFF | .rdcfg => 0x0000FFFF | .rdstate => 0x0000FFFF | .clrstat => 0x00FFFFFF | .delay => 0x00FF0000
  | .busreset => 0x00FFFFFF

/-- The number of argument words, from the header and, for PUSHPIX, the pixel count in the first argument word (R113, R116). -/
def Op.nargs (op : Op) (header arg0 : Word) : Nat :=
  match op with
  | .wrreg | .wrpix | .wrcfg => 1
  | .setwin | .vscroll | .rdpix => 2
  | .wrregp => wordsFor (a8Field header).toNat 4
  | .inittbl8 => wordsFor (immField header).toNat 4
  | .inittbl16 => (immField header).toNat
  | .pushpix => 1 + wordsFor arg0.toNat 2
  | .nop | .wrcmd | .wrdata | .wrdata8 | .rdword | .rdreg | .rdreg32 | .rdreg40
  | .setrot | .invert | .rdcfg | .rdstate | .clrstat | .delay | .busreset => 0

/-! ### Decoding -/

/-- Why a frame is illegal (R118). The outcome is the same for all (60_exceptions.md R342). -/
inductive DecodeError where
  /-- R118 item 1: OP is not in the opcode map -/
  | unknownOpcode
  /-- R118 item 2: a reserved header bit of the opcode's row is 1 -/
  | reservedHeaderBit
  /-- R118 item 3: the frame length differs from `len` (R113) -/
  | wrongLength
  /-- R118 item 4: a reserved bit of an argument word, a padding byte or a padding sample is not zero -/
  | reservedArgBit
  /-- R118 item 5: a configuration or state register index out of range -/
  | badIndex
  deriving DecidableEq, Repr

/-- The sub-flag in bit 0 of A8, header bit 16 (BRACKET, on, first; R116). -/
def flagBit (h : Word) : Bool := (a8Field h).getLsbD 0

/-- The first n items of a packed string; the items past n must be zero (R112, R118 item 4). -/
def takePadded {w : Nat} (n : Nat) (items : List (BitVec w)) : Except DecodeError (List (BitVec w)) :=
  if (items.drop n).all (· == 0) then .ok (items.take n) else .error .reservedArgBit

/-- A request with no argument words. -/
def noArgs (i : Instr) : List Word → Except DecodeError Instr
  | [] => .ok i
  | _ :: _ => .error .wrongLength

/-- A request with one argument word. -/
def oneArg (f : Word → Except DecodeError Instr) : List Word → Except DecodeError Instr
  | [a] => f a
  | [] | _ :: _ :: _ => .error .wrongLength

/-- A request with two argument words. -/
def twoArgs (f : Word → Word → Except DecodeError Instr) : List Word → Except DecodeError Instr
  | [a, b] => f a b
  | [] | [_] | _ :: _ :: _ :: _ => .error .wrongLength

/-- A request with a first argument word and a string after it. -/
def countAndString (f : Word → List Word → Except DecodeError Instr) : List Word → Except DecodeError Instr
  | n :: ws => f n ws
  | [] => .error .wrongLength

/-- An answer only where a register index is at most the largest (R118 item 5). -/
def withIndex (index : Byte) (largest : Nat) (i : Instr) : Except DecodeError Instr :=
  if index.toNat ≤ largest then .ok i else .error .badIndex

/-- An answer only where the high half of an argument word is zero (R118 item 4). -/
def withZeroHigh (w : Word) (i : Instr) : Except DecodeError Instr :=
  if hiHalf w == 0 then .ok i else .error .reservedArgBit

/-- The request of a frame whose opcode, reserved header bits and length have been checked (R116, R118 items 4 and 5). -/
def decodeArgs (op : Op) (h : Word) (args : List Word) : Except DecodeError Instr :=
  match op with
  | .nop => noArgs .nop args
  | .wrcmd => noArgs (.wrcmd (immField h)) args
  | .wrdata => noArgs (.wrdata (immField h)) args
  | .wrdata8 => noArgs (.wrdata8 (loByte (immField h))) args
  | .rdword => noArgs .rdword args
  | .wrreg => oneArg (fun a => withZeroHigh a (.wrreg (immField h) (loHalf a))) args
  | .wrregp => (takePadded (a8Field h).toNat (args.flatMap wordBytes)).map (.wrregp (immField h))
  | .rdreg => noArgs (.rdreg (immField h) (a8Field h)) args
  | .rdreg32 => noArgs (.rdreg32 (immField h)) args
  | .rdreg40 => noArgs (.rdreg40 (immField h)) args
  | .inittbl8 => (takePadded (immField h).toNat (args.flatMap wordBytes)).map (.inittbl8 (flagBit h))
  | .inittbl16 => .ok (.inittbl16 (flagBit h) (args.map fun a => (hiHalf a, loHalf a)))
  | .setrot => noArgs (.setrot ((a8Field h).extractLsb' 0 2)) args
  | .setwin => twoArgs (fun a b => .ok (.setwin (hiHalf a) (loHalf a) (hiHalf b) (loHalf b))) args
  | .invert => noArgs (.invert (flagBit h)) args
  | .vscroll => twoArgs (fun a b => withZeroHigh b (.vscroll (hiHalf a) (loHalf a) (loHalf b))) args
  | .pushpix =>
    countAndString (fun n ws => (takePadded n.toNat (ws.flatMap wordHalves)).map (.pushpix (flagBit h))) args
  | .wrpix => oneArg (fun a => .ok (.wrpix (hiHalf a) (loHalf a) (immField h))) args
  | .rdpix => twoArgs (fun a b => .ok (.rdpix (hiHalf a) (loHalf a) (hiHalf b) (loHalf b))) args
  | .wrcfg => oneArg (fun a => withIndex (a8Field h) maxCfgIndex (.wrcfg (a8Field h) a)) args
  | .rdcfg => noArgs (.rdcfg (a8Field h)) args |>.bind (withIndex (a8Field h) maxCfgIndex)
  | .rdstate => noArgs (.rdstate (a8Field h)) args |>.bind (withIndex (a8Field h) maxStIndex)
  | .clrstat => noArgs .clrstat args
  | .delay => noArgs (.delay (immField h)) args
  | .busreset => noArgs .busreset args

/-- Decode a frame, or say which condition of R118 makes it illegal. Total on all frames. -/
def decode (f : Frame) : Except DecodeError Instr :=
  match Op.ofCode (opField f.header) with
  | none => .error .unknownOpcode
  | some op =>
    if f.header &&& op.reservedMask != 0 then .error .reservedHeaderBit
    else if f.args.length != op.nargs f.header (f.args.headD 0) then .error .wrongLength
    else decodeArgs op f.header f.args

/-! ### Encoding -/

/-- A header word (R111). -/
def mkHeader (op : Op) (a8 : Byte) (imm : Half) : Word := op.code ++ a8 ++ imm

/-- The opcode of a request. -/
def Instr.op : Instr → Op
  | .nop => .nop | .wrcmd _ => .wrcmd | .wrdata _ => .wrdata | .wrdata8 _ => .wrdata8 | .rdword => .rdword
  | .wrreg _ _ => .wrreg | .wrregp _ _ => .wrregp | .rdreg _ _ => .rdreg | .rdreg32 _ => .rdreg32 | .rdreg40 _ => .rdreg40
  | .inittbl8 _ _ => .inittbl8 | .inittbl16 _ _ => .inittbl16
  | .setrot _ => .setrot | .setwin _ _ _ _ => .setwin | .invert _ => .invert | .vscroll _ _ _ => .vscroll
  | .pushpix _ _ => .pushpix | .wrpix _ _ _ => .wrpix | .rdpix _ _ _ _ => .rdpix
  | .wrcfg _ _ => .wrcfg | .rdcfg _ => .rdcfg | .rdstate _ => .rdstate | .clrstat => .clrstat | .delay _ => .delay
  | .busreset => .busreset

/-- The A8 field of a request's header (R116). -/
def Instr.a8 : Instr → Byte
  | .wrregp _ params => BitVec.ofNat 8 params.length
  | .rdreg _ index => index
  | .inittbl8 bracket _ => (BitVec.ofBool bracket).setWidth 8
  | .inittbl16 bracket _ => (BitVec.ofBool bracket).setWidth 8
  | .setrot r => r.setWidth 8
  | .invert on => (BitVec.ofBool on).setWidth 8
  | .pushpix first _ => (BitVec.ofBool first).setWidth 8
  | .wrcfg index _ => index
  | .rdcfg index => index
  | .rdstate index => index
  | .nop | .wrcmd _ | .wrdata _ | .wrdata8 _ | .rdword | .wrreg _ _ | .rdreg32 _ | .rdreg40 _ | .setwin _ _ _ _
  | .vscroll _ _ _ | .wrpix _ _ _ | .rdpix _ _ _ _ | .clrstat | .delay _ | .busreset => 0

/-- The IMM16 field of a request's header (R116). -/
def Instr.imm : Instr → Half
  | .wrcmd w => w
  | .wrdata w => w
  | .wrdata8 b => b.setWidth 16
  | .wrreg cmd _ => cmd
  | .wrregp cmd _ => cmd
  | .rdreg addr _ => addr
  | .rdreg32 addr => addr
  | .rdreg40 addr => addr
  | .inittbl8 _ table => BitVec.ofNat 16 table.length
  | .inittbl16 _ pairs => BitVec.ofNat 16 pairs.length
  | .wrpix _ _ color => color
  | .delay ms => ms
  | .nop | .rdword | .setrot _ | .setwin _ _ _ _ | .invert _ | .vscroll _ _ _ | .pushpix _ _ | .rdpix _ _ _ _
  | .wrcfg _ _ | .rdcfg _ | .rdstate _ | .clrstat | .busreset => 0

/-- The argument words of a request (R116). -/
def Instr.args : Instr → List Word
  | .wrreg _ data => [(0 : Half) ++ data]
  | .wrregp _ params => packBytes params
  | .inittbl8 _ table => packBytes table
  | .inittbl16 _ pairs => pairs.map fun p => p.1 ++ p.2
  | .setwin x0 y0 x1 y1 => [x0 ++ y0, x1 ++ y1]
  | .vscroll top lines offset => [top ++ lines, (0 : Half) ++ offset]
  | .pushpix _ colors => BitVec.ofNat 32 colors.length :: packHalves colors
  | .wrpix x y _ => [x ++ y]
  | .rdpix x y w h => [x ++ y, w ++ h]
  | .wrcfg _ value => [value]
  | .nop | .wrcmd _ | .wrdata _ | .wrdata8 _ | .rdword | .rdreg _ _ | .rdreg32 _ | .rdreg40 _ | .setrot _ | .invert _
  | .rdcfg _ | .rdstate _ | .clrstat | .delay _ | .busreset => []

/-- The frame of a request (R111, R116). The count of a list too long for its field goes in modulo the size of the field (DESIGN CHOICE,
log entry 21); no well-formed request has such a list. -/
def encode (i : Instr) : Frame := ⟨mkHeader i.op i.a8 i.imm, i.args⟩

/-! ### Table words -/

/-- Word k of an instruction whose bits are w, bit 0 the least significant bit of the first word. -/
def tableWordAt (w k : Nat) : Word := BitVec.ofNat 32 (w >>> (32 * k))

/-- The frame whose bits are the low nbits of w, with argument words of zeros above them, as long as its header asks for (R113). -/
def tableFrame (nbits w : Nat) : Frame :=
  let w := w % 2 ^ nbits
  let header := tableWordAt w 0
  let n := match Op.ofCode (opField header) with
    | some op => op.nargs header (tableWordAt w 1)
    | none => nbits / 32 - 1
  ⟨header, (List.range n).map fun k => tableWordAt w (k + 1)⟩

/-- What the decoder reads from an instruction whose bits are w (none where it is illegal). -/
def decodeTableWord (nbits w : Nat) : Option Instr :=
  match decode (tableFrame nbits w) with
  | .ok i => some i
  | .error _ => none

end Sys2Proof
end

