-- ==== Sys2Proof/Config.lean ====
section
/-! DEFINITION. The free values of the model: what the spec leaves as "any value". They have no body, so no proof can depend on one.
Everything else that differs between chips is a configuration register of the machine (R36), not a constant here. -/

namespace Sys2Proof

/-- The byte sampled by the n-th read cycle when the model's input list of samples is used up: any 8-bit value (20_memory.md R86,
40_transport.md R143, 93_implementation_defined.md I1). Log entry 3. DESIGN CHOICE, safe. -/
opaque Config.chipSample : Nat → Byte

/-- The value of pins.dout after a reset, unspecified until a write cycle sets it (10_state.md R32, 93_implementation_defined.md I9).
Log entry 4. DESIGN CHOICE, safe. -/
opaque Config.doutAtReset : Nat → Byte

end Sys2Proof
end

