-- ==== Sys2Proof/Machine/State.lean ====
section
/-! DEFINITION. The state of TFTBUS as plain data (10_state.md), the bus events a model observes (20_memory.md R86), what the host
may do next, and the state after reset (70_reset_and_hazards.md R370, R371). -/

namespace Sys2Proof.Machine

/-- The direction of the data lanes: OUT when TFTBUS drives D[7:0], IN when the chip may (R31, R144). -/
inductive Dir where
  | out
  | inp
  deriving DecidableEq, Repr

/-- The bus events of R86. Levels are Bool: false is 0, true is 1. -/
inductive Event where
  /-- CS_n is set to a level (R145) -/
  | cs (level : Bool)
  /-- the data-lane direction becomes d (R144) -/
  | dir (d : Dir)
  /-- one write cycle of a byte with RS = rs (R142) -/
  | w (rs : Bool) (b : Byte)
  /-- one read cycle whose sample was b (R143) -/
  | r (b : Byte)
  /-- RST_n is set to a level (R372) -/
  | rst (level : Bool)
  /-- a wait of at least ms milliseconds (R326) -/
  | delay (ms : Nat)
  /-- the pins were first driven to their idle levels (R372) -/
  | idle
  deriving DecidableEq, Repr

/-- The pin state (R31). A name ending in N is an active-low line, and the field is its level. -/
structure Pins where
  /-- TFTBUS drives its outputs at all -/
  driven : Bool
  /-- who drives D[7:0] -/
  dir    : Dir
  /-- the value driven on D[7:0] when dir = OUT -/
  dout   : Byte
  csN    : Bool
  rs     : Bool
  wrN    : Bool
  rdN    : Bool
  rstN   : Bool
  deriving DecidableEq, Repr

/-- The configuration register file cfg[0x00..0x1E], each register 32 bits (R33, R35). -/
abbrev Cfg := Vector Word 31

/-- An address window, inclusive (st WIN_LO, WIN_HI; R51). -/
structure Window where
  x0 : Half
  y0 : Half
  x1 : Half
  y1 : Half
  deriving DecidableEq, Repr

/-- The logical addresses of a register map: memory write, column and row start and end, cursor (R5, R51). -/
structure RegMap where
  mw : Half
  xs : Half
  xe : Half
  ys : Half
  ye : Half
  xc : Half
  yc : Half
  deriving DecidableEq, Repr

/-- The fields of the 13 state registers (R50, R51), one field of the structure each. STATUS.DIR is a view of pins.dir. -/
structure StRegs where
  /-- STATUS.ILL -/
  ill      : Bool
  /-- STATUS.BUSREADY -/
  busReady : Bool
  /-- ROT.R -/
  rot      : BitVec 2
  /-- GEOM.W -/
  geomW    : Half
  /-- GEOM.H -/
  geomH    : Half
  /-- WIN_LO, WIN_HI -/
  win      : Window
  /-- AMAP_X, AMAP_Y, AMAP_C, AMAP_MW -/
  amap     : RegMap
  /-- CTRL.CB -/
  ctrl     : Byte
  /-- SCR_A.TOP -/
  scrTop   : Half
  /-- SCR_A.LINES -/
  scrLines : Half
  /-- SCR_B.VSP -/
  vsp      : Half
  /-- INV.ON -/
  inv      : Bool
  deriving DecidableEq, Repr

/-- What the host does next (R110, R370). Log entries 1 and 9. -/
inductive Input where
  /-- submit a frame and let it run to completion -/
  | frame (f : Frame)
  /-- assert the reset input between requests -/
  | reset
  /-- submit a frame and assert the reset input after the first `events` bus events of its request -/
  | resetDuring (f : Frame) (events : Nat)
  deriving DecidableEq, Repr

/-- The whole machine. -/
structure State where
  /-- the pins (R31) -/
  pins    : Pins
  /-- the configuration registers (R36) -/
  cfg     : Cfg
  /-- the state registers (R51) -/
  st      : StRegs
  /-- what the host will do next, oldest first (R88; log entry 1) -/
  inbox   : List Input
  /-- the response of the current request (R114) -/
  resp    : List Word
  /-- the bus events so far, oldest first (R86, R89; log entry 7) -/
  trace   : List Event
  /-- what the chip will drive on the coming read cycles, oldest first: the free input of R86 (log entry 3) -/
  samples : List Byte
  /-- the counter the free values of Config are applied to (the model's own; log entry 3) -/
  freeNo  : Nat
  deriving DecidableEq, Repr

/-- Why the machine could stop with a fault. TFTBUS raises no exception, trap or fault (60_exceptions.md R340, R347): an illegal
request is a next state (R341). So there is no constructor: nobody raises one. Log entry 13; safe. -/
inductive Fault where
  deriving DecidableEq, Repr

/-- Why the model could refuse. -/
inductive Refusal where
  /-- raised only by an arm of `exec` whose request has no meaning yet (safe); no arm is left that does -/
  | notModelled (mnemonic : String)
  deriving DecidableEq, Repr

/-- The configuration registers after reset (R36, R37), index 0x00 first. -/
def resetCfg : Cfg :=
  #v[0x00000000, 0x00010000, 0x00000000, 0x0000002C, 0x0000002A, 0x0000002A, 0x0000002B, 0x0000002B,
     0x0000002A, 0x0000002B, 0x0000002E, 0xF0902040, 0x00000036, 0x00000000, 0x00000000, 0x00000000,
     0x00000000, 0x00000000, 0x00000000, 0x00000000, 0x00210020, 0x00000000, 0x00000000, 0x00330037,
     0x00000000, 0x0111293A, 0x55000096, 0x0000FFFF, 0x00009632, 0x00960201, 0x00000000]

/-- The state registers after reset (R51, R371). -/
def resetSt : StRegs where
  ill := false
  busReady := false
  rot := 0
  geomW := 0
  geomH := 0
  win := ⟨0, 0, 0, 0⟩
  amap := ⟨0x002C, 0x002A, 0x002A, 0x002B, 0x002B, 0x002A, 0x002B⟩
  ctrl := 0x00
  scrTop := 0
  scrLines := 0
  vsp := 0
  inv := false

/-- The pins after reset: undriven, dout any value (R32, R370). The levels of the other lines are not driven; they are held idle
(DESIGN CHOICE, log entry 5). `n` picks the free value of dout (log entry 4). -/
def resetPins (n : Nat) : Pins where
  driven := false
  dir := .out
  dout := Config.doutAtReset n
  csN := true
  rs := true
  wrN := true
  rdN := true
  rstN := true

/-- The machine right after reset (R370, R371): it waits for the first frame. -/
def State.reset : State where
  pins := resetPins 0
  cfg := resetCfg
  st := resetSt
  inbox := []
  resp := []
  trace := []
  samples := []
  freeNo := 0

end Sys2Proof.Machine
end

