-- ==== Sys2Proof/Machine/Flags.lean ====
section
/-! DEFINITION. The flags: the capability flags of cfg CAPS (10_state.md R37, R38) and the status bits (R51, R54). TFTBUS has no
condition codes (R54), so there is no flag computation of an arithmetic result. -/

namespace Sys2Proof.Machine

/-! ### Capability flags (R37), read from the word of cfg CAPS -/

/-- bit 0 AUTOINC_READ -/
def capAutoincRead (caps : Word) : Bool := caps.getLsbD 0
/-- bit 1 READ24 -/
def capRead24 (caps : Word) : Bool := caps.getLsbD 1
/-- bit 2 READ_ORDER_SWAP -/
def capReadOrderSwap (caps : Word) : Bool := caps.getLsbD 2
/-- bit 3 BGR_READ -/
def capBgrRead (caps : Word) : Bool := caps.getLsbD 3
/-- bit 4 NO_READ_DUMMY -/
def capNoReadDummy (caps : Word) : Bool := caps.getLsbD 4
/-- bit 5 HW_AXIS_SWAP -/
def capHwAxisSwap (caps : Word) : Bool := caps.getLsbD 5
/-- bit 6 EXT_COORD: recorded only, no rule reads it (92_eei_decisions.md D49) -/
def capExtCoord (caps : Word) : Bool := caps.getLsbD 6
/-- bit 7 POLARITY_INV -/
def capPolarityInv (caps : Word) : Bool := caps.getLsbD 7
/-- bit 8 INV_X -/
def capInvX (caps : Word) : Bool := caps.getLsbD 8
/-- bit 9 INV_Y -/
def capInvY (caps : Word) : Bool := caps.getLsbD 9
/-- bit 10 UNIFIED -/
def capUnified (caps : Word) : Bool := caps.getLsbD 10
/-- bit 11 WIRE24_ONLY -/
def capWire24Only (caps : Word) : Bool := caps.getLsbD 11
/-- bit 12 WIRE555 -/
def capWire555 (caps : Word) : Bool := caps.getLsbD 12
/-- bit 13 PARAM_ADDR_INC -/
def capParamAddrInc (caps : Word) : Bool := caps.getLsbD 13
/-- bit 14 SPLIT_CTRL -/
def capSplitCtrl (caps : Word) : Bool := caps.getLsbD 14
/-- bit 15 WIRE_BGR -/
def capWireBgr (caps : Word) : Bool := caps.getLsbD 15
/-- bits 17:16 DUMMY -/
def capDummy (caps : Word) : Nat := (caps.extractLsb' 16 2).toNat
/-- bit 18 NUDGE_EN -/
def capNudgeEn (caps : Word) : Bool := caps.getLsbD 18

/-- The number of byte reads discarded before the first sample (R277). -/
def dummyReads (caps : Word) : Nat := if capNoReadDummy caps then 0 else capDummy caps

/-- A value as cfg CAPS stores it: a DUMMY of 3 is stored as 2 (R37, 44_control.md R321). -/
def legalCaps (v : Word) : Word := if capDummy v = 3 then v &&& ~~~(0x00010000 : Word) else v

/-! ### Status bits (R51, R54) -/

/-- STATUS.DIR: pins.dir = IN (R51). -/
def statusDir (p : Pins) : Bool :=
  match p.dir with
  | .inp => true
  | .out => false

/-- The word of st STATUS (R51): ILL bit 0, BUSREADY bit 1, DIR bit 2. -/
def statusWord (st : StRegs) (p : Pins) : Word :=
  (0 : BitVec 29) ++ BitVec.ofBool (statusDir p) ++ BitVec.ofBool st.busReady ++ BitVec.ofBool st.ill

end Sys2Proof.Machine
end

