-- ==== Sys2Proof/Machine/Operands.lean ====
section
/-! DEFINITION. Operand forms: the named registers and fields of the configuration file (10_state.md R36), the masks of their defined
bits (44_control.md R321), the views of the state registers (R51), and the forms a request's operands take (30_encoding.md R112). -/

namespace Sys2Proof.Machine

/-! ### Configuration registers (R36) -/

abbrev cfgID : Fin 31 := 0x00
abbrev cfgCAPS : Fin 31 := 0x01
abbrev cfgNATIVE_WH : Fin 31 := 0x02
abbrev cfgMAP_MW : Fin 31 := 0x03
abbrev cfgMAP_XS : Fin 31 := 0x04
abbrev cfgMAP_XE : Fin 31 := 0x05
abbrev cfgMAP_YS : Fin 31 := 0x06
abbrev cfgMAP_YE : Fin 31 := 0x07
abbrev cfgMAP_XC : Fin 31 := 0x08
abbrev cfgMAP_YC : Fin 31 := 0x09
abbrev cfgGRAM_RD : Fin 31 := 0x0A
abbrev cfgROT_TABLE : Fin 31 := 0x0B
abbrev cfgROT_REG : Fin 31 := 0x0C
abbrev cfgROT_ALT : Fin 31 := 0x0D
abbrev cfgLEG_REGS : Fin 31 := 0x0E
abbrev cfgLEG_DOC_A : Fin 31 := 0x0F
abbrev cfgLEG_DOC_B : Fin 31 := 0x10
abbrev cfgLEG_ENT_A : Fin 31 := 0x11
abbrev cfgLEG_ENT_B : Fin 31 := 0x12
abbrev cfgOFFSET : Fin 31 := 0x13
abbrev cfgINV_CMDS : Fin 31 := 0x14
abbrev cfgLEG_INV : Fin 31 := 0x15
abbrev cfgLEG_INV_BASE : Fin 31 := 0x16
abbrev cfgVSCR_CMDS : Fin 31 := 0x17
abbrev cfgLEG_VSCR : Fin 31 := 0x18
abbrev cfgWAKE_CMDS : Fin 31 := 0x19
abbrev cfgWAKE_PARAMS : Fin 31 := 0x1A
abbrev cfgDELAY16 : Fin 31 := 0x1B
abbrev cfgTIMING : Fin 31 := 0x1C
abbrev cfgRST_CTRL : Fin 31 := 0x1D
abbrev cfgINITMODE : Fin 31 := 0x1E

/-- `cfg[i]` (R8, R35). -/
def cfgRead (c : Cfg) (i : Fin 31) : Word := c.get i

/-- The union of the bit ranges listed for each register in R36 and R37, index 0x00 first (`DefinedMask`, R321). -/
def definedMasks : Vector Word 31 :=
  #v[0x0000FFFF, 0x0007FFFF, 0xFFFFFFFF, 0x0000FFFF, 0x0000FFFF, 0x0000FFFF, 0x0000FFFF, 0x0000FFFF,
     0x0000FFFF, 0x0000FFFF, 0x0000FFFF, 0xFFFFFFFF, 0x0000FFFF, 0xFFFFFFFF, 0xFFFFFFFF, 0xFFFFFFFF,
     0x0000FFFF, 0xFFFFFFFF, 0x0000FFFF, 0x001FFFFF, 0xFFFFFFFF, 0xFFFFFFFF, 0x0000FFFF, 0xFFFFFFFF,
     0x0000FFFF, 0xFFFFFFFF, 0xFF00FFFF, 0x0000FFFF, 0x00FFFFFF, 0xFFFFFF01, 0x00000001]

/-- `DefinedMask(i)` (R321). -/
def definedMask (i : Fin 31) : Word := definedMasks.get i

/-- What register i stores when v is written: undefined bits are dropped, and CAPS.DUMMY is made legal (R35, R321). -/
def cfgStored (i : Fin 31) (v : Word) : Word :=
  if i = cfgCAPS then legalCaps (v &&& definedMask i) else v &&& definedMask i

/-- The register an 8-bit index names, none for a reserved one (R35, R81). -/
def cfgIndex (i : Byte) : Option (Fin 31) := if h : i.toNat < 31 then some ⟨i.toNat, h⟩ else none

/-- Bits 31:16 of register i. -/
def cfgHi (c : Cfg) (i : Fin 31) : Half := hiHalf (cfgRead c i)

/-- Bits 15:0 of register i. -/
def cfgLo (c : Cfg) (i : Fin 31) : Half := loHalf (cfgRead c i)

/-- Byte k of register i, byte 0 in bits 7:0. -/
def cfgByte (c : Cfg) (i : Fin 31) (k : Nat) : Byte := (cfgRead c i).extractLsb' (8 * k) 8

/-- cfg CAPS (R37). -/
def capsOf (c : Cfg) : Word := cfgRead c cfgCAPS

/-! ### Operand forms (R112, R7) -/

/-- A 16-bit field read as a two's-complement coordinate (`s16`, R7). -/
def s16 (v : Half) : Int := v.toInt

/-- The integer v modulo 2^16 (`trunc16`, R7). -/
def trunc16 (v : Int) : Half := BitVec.ofInt 16 v

/-- A 16-bit value zero-extended to 32 bits. -/
def zext32 (v : Half) : Word := v.setWidth 32

/-- An 8-bit value zero-extended to 16 bits. -/
def zext16 (v : Byte) : Half := v.setWidth 16

/-- The two bytes of a word as parameters, high byte first (R231, R246). -/
def halfBytes (v : Half) : List Byte := [hiByte v, loByte v]

/-! ### State registers as the host reads them (R51, R323) -/

/-- `st[i]`: the fields of R51 in their bit positions, other bits zero; zero for an index above 0x0C, which no legal request reads. -/
def stRead (st : StRegs) (p : Pins) (i : Nat) : Word :=
  match i with
  | 0x00 => statusWord st p
  | 0x01 => st.rot.setWidth 32
  | 0x02 => st.geomW ++ st.geomH
  | 0x03 => st.win.x0 ++ st.win.y0
  | 0x04 => st.win.x1 ++ st.win.y1
  | 0x05 => st.amap.xs ++ st.amap.xe
  | 0x06 => st.amap.ys ++ st.amap.ye
  | 0x07 => st.amap.xc ++ st.amap.yc
  | 0x08 => zext32 st.amap.mw
  | 0x09 => st.ctrl.setWidth 32
  | 0x0A => st.scrTop ++ st.scrLines
  | 0x0B => zext32 st.vsp
  | 0x0C => (BitVec.ofBool st.inv).setWidth 32
  | _ => 0

end Sys2Proof.Machine
end

