-- ==== Sys2Proof/Machine/Ops.lean ====
section
/-! DEFINITION. The named operations every request is made of: performing bus events, the byte cycles and word primitives of
40_transport.md (R142 to R146), the register primitives of 41_register_access.md (R170 to R174), bring-up (R372), the bus
transaction (R141), responding (R114), the illegal request (R341) and the reset input (R370).

A list of events is a script: what a part of a request does on the bus. `State.perform` plays it. -/

namespace Sys2Proof.Machine

/-! ### Pins and events -/

/-- The pins after a write cycle: drive the lanes, assert WR_n, deassert it (R142). -/
def Pins.afterWrite (p : Pins) (rs : Bool) (b : Byte) : Pins :=
  let driving := { p with rs := rs, dout := b }
  let asserted := { driving with wrN := false }
  { asserted with wrN := true }

/-- The pins after a read cycle: RS = 1, assert RD_n, sample, deassert it (R143). -/
def Pins.afterRead (p : Pins) : Pins :=
  let selected := { p with rs := true }
  let asserted := { selected with rdN := false }
  { asserted with rdN := true }

/-- The pins after an event (R142 to R145, R372). CS_n going high ends the request, and the pins are idle between requests (R31), so
RS is put back to 1 with it (DEDUCED, log entry 6). -/
def Pins.after (p : Pins) : Event → Pins
  | .cs false => { p with csN := false }
  | .cs true => { p with csN := true, rs := true }
  | .dir d => { p with dir := d }
  | .w rs b => p.afterWrite rs b
  | .r _ => p.afterRead
  | .rst level => { p with rstN := level }
  | .delay _ => p
  | .idle => { p with driven := true, dir := .out, csN := true, rs := true, wrN := true, rdN := true, rstN := true }

/-- Perform a script: the pins follow its events, and the events join the trace in order (R86, R89). -/
def State.perform (s : State) (script : List Event) : State :=
  { s with pins := script.foldl Pins.after s.pins, trace := s.trace ++ script }

/-- `Respond(w)` for each word of a list: append to the response of the current request (R114). -/
def State.respond (s : State) (ws : List Word) : State := { s with resp := s.resp ++ ws }

/-! ### The illegal request: the one error TFTBUS has (R340, R341) -/

/-- `raise Illegal`: STATUS.ILL <- 1 and nothing else (R341). The response of the request is empty because nothing responds. -/
def raiseIllegal (s : State) : State := { s with st := { s.st with ill := true } }

/-- Clearing the record of it: STATUS.ILL <- 0 (44_control.md R324). There is no other return from an illegal request (R347). -/
def clearIllegal (s : State) : State := { s with st := { s.st with ill := false } }

/-! ### Write-side primitives, as scripts (R142, R146, R170, R171, R326) -/

/-- `DelayMs(n)` (R326): no event when n = 0. -/
def delayMs (n : Nat) : List Event := if n > 0 then [.delay n] else []

/-- `writeCommand(w)` (R146): two command bytes, most significant first. -/
def writeCommand (w : Half) : List Event := [.w false (hiByte w), .w false (loByte w)]

/-- `writeData(w)` (R146): two data bytes, most significant first. -/
def writeData (w : Half) : List Event := [.w true (hiByte w), .w true (loByte w)]

/-- `writeData8(b)` (R146): one raw data byte. -/
def writeData8 (b : Byte) : List Event := [.w true b]

/-- `writeRegister(cmd, w)` (R170). -/
def writeRegister (cmd w : Half) : List Event := writeCommand cmd ++ writeData w

/-- Parameter bytes to incrementing command addresses, wrapping modulo 2^16 (R171). -/
def paramsToIncrementing (cmd : Half) : List Byte → List Event
  | [] => []
  | b :: rest => writeCommand cmd ++ writeData8 b ++ paramsToIncrementing (cmd + 1) rest

/-- `writeRegisterParams(cmd, b)` (R171), by CAPS.PARAM_ADDR_INC. -/
def writeRegisterParams (c : Cfg) (cmd : Half) (params : List Byte) : List Event :=
  if capParamAddrInc (capsOf c) then
    match params with
    | [] => writeCommand cmd
    | _ :: _ => paramsToIncrementing cmd params
  else writeCommand cmd ++ params.flatMap writeData8

/-! ### Read-side primitives (R143, R146, R172 to R174) -/

/-- The byte the chip drives on the next read cycle: the free input of R86. -/
def nextSample (s : State) : Byte :=
  match s.samples with
  | b :: _ => b
  | [] => Config.chipSample s.freeNo

/-- `BusReadByte()` (R143). -/
def busReadByte (s : State) : Byte × State :=
  let b := nextSample s
  (b, { s with samples := s.samples.tail, freeNo := s.freeNo + 1 }.perform [.r b])

/-- `readWord()` (R146): most significant byte first. -/
def readWord (s : State) : Half × State :=
  let (hi, s) := busReadByte s
  let (lo, s) := busReadByte s
  (hi ++ lo, s)

/-- k + 1 word reads, all but the last discarded (R172). -/
def readWordsLast : Nat → State → Half × State
  | 0, s => readWord s
  | k + 1, s => readWordsLast k (readWord s).2

/-- `readRegister(addr, index)` (R172). -/
def readRegister (addr : Half) (index : Nat) (s : State) : Half × State :=
  let s := s.perform (writeCommand addr ++ [.dir .inp])
  let (w, s) := readWordsLast index s
  (w, s.perform [.dir .out])

/-- `readRegister32(addr)` (R173): the word read first is the most significant. -/
def readRegister32 (addr : Half) (s : State) : Word × State :=
  let (hi, s) := readRegister addr 0 s
  let (lo, s) := readRegister addr 1 s
  (hi ++ lo, s)

/-- `readRegister40(addr)` (R174): the low 40 bits of three words. -/
def readRegister40 (addr : Half) (s : State) : BitVec 40 × State :=
  let (w0, s) := readRegister addr 0 s
  let (w1, s) := readRegister addr 1 s
  let (w2, s) := readRegister addr 2 s
  let v48 : BitVec 48 := w0 ++ w1 ++ w2
  (v48.extractLsb' 0 40, s)

/-- n byte reads, kept in order. -/
def readBytes : Nat → State → List Byte × State
  | 0, s => ([], s)
  | n + 1, s =>
    let (b, s) := busReadByte s
    let (bs, s) := readBytes n s
    (b :: bs, s)

/-! ### Bring-up and the bus transaction (R141, R372) -/

/-- The bring-up script at a configuration (R372). -/
def bringUpScript (c : Cfg) : List Event :=
  let ctrl := cfgRead c cfgRST_CTRL
  if ctrl.getLsbD 0 then
    [.idle, .rst false] ++ delayMs (cfgByte c cfgRST_CTRL 1).toNat ++ [.rst true] ++ delayMs (cfgHi c cfgRST_CTRL).toNat
  else [.idle]

/-- `BringUp()` (R372). -/
def bringUp (s : State) : State :=
  let s := s.perform (bringUpScript s.cfg)
  { s with st := { s.st with busReady := true } }

/-- The events that make a transaction select the chip: a write cycle, a read cycle or a delay (R141). -/
def Event.needsSelect : Event → Bool
  | .w _ _ | .r _ | .delay _ => true
  | .cs _ | .dir _ | .rst _ | .idle => false

/-- CS(0), events, CS(1) if a cycle or a delay is among the events, else the events alone (R141, R145). -/
def frameEvents (events : List Event) : List Event :=
  if events.any Event.needsSelect then .cs false :: events ++ [.cs true] else events

/-- Bring the bus up if it is not ready (R141). -/
def readyBus (s : State) : State := if s.st.busReady then s else bringUp s

/-- `BusTxn(body)` (R141): bring the bus up if it is not ready, run the body, frame its events with chip select. The body runs on a
state whose trace is empty, so that the trace it leaves is its own events. -/
def busTxn {α : Type} (body : State → α × State) (s : State) : α × State :=
  let s := readyBus s
  let (a, t) := body { s with trace := [] }
  (a, { t with pins := s.pins, trace := s.trace }.perform (frameEvents t.trace))

/-- A bus transaction whose body returns nothing. -/
def busRun (body : State → State) (s : State) : State := (busTxn (fun s => ((), body s)) s).2

/-! ### The reset input (R370) -/

/-- The reset input: every cfg and st register and the pins at their reset values, no response (R370). What belongs to the host, the
chip and the observer is not reset. pins.dout is a free value again (R32, log entry 4). -/
def resetInput (s : State) : State :=
  { State.reset with
    pins := resetPins (s.freeNo + 1)
    inbox := s.inbox
    trace := s.trace
    samples := s.samples
    freeNo := s.freeNo + 1 }

/-- The number of read cycles among some events. -/
def readCycles (events : List Event) : Nat :=
  events.countP fun
    | .r _ => true
    | .w _ _ | .delay _ | .cs _ | .dir _ | .rst _ | .idle => false

/-- The reset input in the middle of a request that goes from s to t: only the first k of its events happen, its response is
discarded, and then everything is reset (R370, R348). Log entry 9. -/
def cutByReset (k : Nat) (s t : State) : State :=
  let done := (t.trace.drop s.trace.length).take k
  resetInput
    { s with
      trace := s.trace ++ done
      samples := s.samples.drop (readCycles done)
      freeNo := s.freeNo + readCycles done }

/-! ### Accepting a frame (R88, R89) -/

/-- Take the host's next input off the inbox; the response of the request before has been delivered (R89, log entry 8). -/
def State.accept (s : State) (rest : List Input) : State := { s with inbox := rest, resp := [] }

end Sys2Proof.Machine
end

