-- ==== Sys2Proof/Machine/Control.lean ====
section
/-! DEFINITION. The meanings of the control and configuration requests (44_control.md R320 to R327). -/

namespace Sys2Proof.Machine

/-- NOP (R320): no bus cycle, no bring-up. -/
def execNop (s : State) : Host.Outcome State Fault Refusal := .next s

/-- Write a configuration register (R321): derived state is not recomputed (R35). -/
def writeCfg (i : Fin 31) (v : Word) (s : State) : State :=
  { s with cfg := s.cfg.set i (cfgStored i v) }

/-- WRCFG (R321). -/
def execWrcfg (index : Byte) (value : Word) (s : State) : Host.Outcome State Fault Refusal :=
  match cfgIndex index with
  | none => .next (raiseIllegal s)
  | some i => .next (writeCfg i value s)

/-- RDCFG (R322). -/
def execRdcfg (index : Byte) (s : State) : Host.Outcome State Fault Refusal :=
  match cfgIndex index with
  | none => .next (raiseIllegal s)
  | some i => .next (s.respond [cfgRead s.cfg i])

/-- RDSTATE (R323). -/
def execRdstate (index : Byte) (s : State) : Host.Outcome State Fault Refusal :=
  if index.toNat > maxStIndex then .next (raiseIllegal s)
  else .next (s.respond [stRead s.st s.pins index.toNat])

/-- CLRSTAT (R324). -/
def execClrstat (s : State) : Host.Outcome State Fault Refusal := .next (clearIllegal s)

/-- DELAY (R325): no bring-up, no chip select. -/
def execDelay (ms : Half) (s : State) : Host.Outcome State Fault Refusal := .next (s.perform (delayMs ms.toNat))

/-- BUSRESET (R327): bring-up, whatever BUSREADY holds. -/
def execBusreset (s : State) : Host.Outcome State Fault Refusal := .next (bringUp s)

end Sys2Proof.Machine
end

