-- ==== Sys2Proof/Machine/Rotation.lean ====
section
/-! DEFINITION. The meanings of the rotation, window, inversion and scroll requests (42_rotation_addressing.md R220 to R246). -/

namespace Sys2Proof.Machine

/-! ### The control byte (R221, R222) -/

/-- `ControlByte(r)` (R221): the table byte, with MX and MY toggled by the scan inversions. -/
def controlByte (c : Cfg) (r : BitVec 2) : Byte :=
  cfgByte c cfgROT_TABLE r.toNat
    ^^^ (if capInvX (capsOf c) then 0x40 else 0x00)
    ^^^ (if capInvY (capsOf c) then 0x80 else 0x00)

/-- The legacy driver-output-control value (R222): MX and MY of the control byte toggle their masks. -/
def docValue (c : Cfg) (cb : Byte) : Half :=
  cfgHi c cfgLEG_DOC_A
    ^^^ (if cb.getLsbD 6 then cfgLo c cfgLEG_DOC_A else 0)
    ^^^ (if cb.getLsbD 7 then cfgLo c cfgLEG_DOC_B else 0)

/-- The legacy entry-mode value (R222): MV and ML of the control byte toggle their masks. -/
def entValue (c : Cfg) (cb : Byte) : Half :=
  cfgHi c cfgLEG_ENT_A
    ^^^ (if cb.getLsbD 5 then cfgLo c cfgLEG_ENT_A else 0)
    ^^^ (if cb.getLsbD 4 then cfgLo c cfgLEG_ENT_B else 0)

/-- `WriteControl(cb)` (R222), by family. -/
def writeControl (c : Cfg) (cb : Byte) : List Event :=
  if capUnified (capsOf c) then
    if capSplitCtrl (capsOf c) then
      writeRegisterParams c (cfgHi c cfgROT_ALT) [cb] ++ writeRegisterParams c (cfgLo c cfgROT_ALT) [cb]
    else writeRegisterParams c (cfgLo c cfgROT_REG) [cb]
  else writeRegister (cfgHi c cfgLEG_REGS) (docValue c cb) ++ writeRegister (cfgLo c cfgLEG_REGS) (entValue c cb)

/-! ### The register map and the geometry (R223 to R225) -/

/-- The rotation is odd. -/
def isOdd (r : BitVec 2) : Bool := r.getLsbD 0

/-- The rotation-0 map of cfg MAP_* (R223). -/
def mapOfCfg (c : Cfg) : RegMap where
  mw := cfgLo c cfgMAP_MW
  xs := cfgLo c cfgMAP_XS
  xe := cfgLo c cfgMAP_XE
  ys := cfgLo c cfgMAP_YS
  ye := cfgLo c cfgMAP_YE
  xc := cfgLo c cfgMAP_XC
  yc := cfgLo c cfgMAP_YC

/-- The column and row roles of a map swapped; the memory-write command stays (R224). -/
def RegMap.swapped (m : RegMap) : RegMap :=
  { m with xs := m.ys, xe := m.ye, ys := m.xs, ye := m.xe, xc := m.yc, yc := m.xc }

/-- `RebuildMap(r)` (R223, R224). -/
def activeMap (c : Cfg) (r : BitVec 2) : RegMap :=
  if isOdd r && !capHwAxisSwap (capsOf c) then (mapOfCfg c).swapped else mapOfCfg c

/-- `W(r)` (R225). -/
def widthAt (c : Cfg) (r : BitVec 2) : Half := if isOdd r then cfgLo c cfgNATIVE_WH else cfgHi c cfgNATIVE_WH

/-- `H(r)` (R225). -/
def heightAt (c : Cfg) (r : BitVec 2) : Half := if isOdd r then cfgHi c cfgNATIVE_WH else cfgLo c cfgNATIVE_WH

/-! ### The address window (R229 to R233) -/

/-- The clipped window of a request at a geometry, or none where the request is a no-op: no geometry, inverted, or fully off-screen
(R229). Coordinates are integers (R7). -/
def clipWindow (geomW geomH : Half) (x0 y0 x1 y1 : Int) : Option Window :=
  let w : Int := geomW.toNat
  let h : Int := geomH.toNat
  if w = 0 ∨ h = 0 then none
  else if x0 > x1 ∨ y0 > y1 then none
  else if x1 < 0 ∨ y1 < 0 ∨ x0 ≥ w ∨ y0 ≥ h then none
  else some ⟨trunc16 (max x0 0), trunc16 (max y0 0), trunc16 (min x1 (w - 1)), trunc16 (min y1 (h - 1))⟩

/-- cfg OFFSET applies at rotation r (R230). -/
def offsetApplies (c : Cfg) (r : BitVec 2) : Bool := (cfgRead c cfgOFFSET).getLsbD (16 + r.toNat)

/-- cfg OFFSET.AXIS: the offset is added to row coordinates (R230). -/
def offsetOnRows (c : Cfg) : Bool := (cfgRead c cfgOFFSET).getLsbD 20

/-- The offset quirk (R230): added to the bus coordinates, modulo 2^16. -/
def addOffset (c : Cfg) (r : BitVec 2) (v : Window) : Window :=
  let ofs := cfgLo c cfgOFFSET
  if offsetApplies c r then
    if offsetOnRows c then { v with y0 := v.y0 + ofs, y1 := v.y1 + ofs } else { v with x0 := v.x0 + ofs, x1 := v.x1 + ofs }
  else v

/-- The nudge quirk (R233): on odd rotations an end coordinate equal to its start is sent one higher, modulo 2^16. -/
def nudge (c : Cfg) (r : BitVec 2) (v : Window) : Window :=
  if capNudgeEn (capsOf c) && isOdd r then
    { v with
      x1 := if v.x1 = v.x0 then v.x1 + 1 else v.x1
      y1 := if v.y1 = v.y0 then v.y1 + 1 else v.y1 }
  else v

/-- `WireCoords` (R230, R233): what the bus carries for a window. -/
def wireCoords (c : Cfg) (r : BitVec 2) (v : Window) : Window := nudge c r (addOffset c r v)

/-- `WriteWindowUnified` (R231). -/
def writeWindowUnified (c : Cfg) (m : RegMap) (v : Window) : List Event :=
  (if capSplitCtrl (capsOf c) then
     writeRegisterParams c m.xc (halfBytes v.x0) ++ writeRegisterParams c m.yc (halfBytes v.y0)
   else [])
    ++ writeRegisterParams c m.xs (halfBytes v.x0 ++ halfBytes v.x1)
    ++ writeRegisterParams c m.ys (halfBytes v.y0 ++ halfBytes v.y1)

/-- The boundary registers of one axis (R232): one combined register, end in the high byte, when the map gives start and end the
same register; else two. -/
def writeBoundary (startReg endReg start fin : Half) : List Event :=
  if startReg = endReg then writeRegister startReg (loByte fin ++ loByte start)
  else writeRegister startReg start ++ writeRegister endReg fin

/-- `WriteWindowLegacy` (R232). -/
def writeWindowLegacy (m : RegMap) (v : Window) (single : Bool) : List Event :=
  writeRegister m.xc v.x0 ++ writeRegister m.yc v.y0
    ++ (if single then [] else writeBoundary m.xs m.xe v.x0 v.x1 ++ writeBoundary m.ys m.ye v.y0 v.y1)

/-- What SetWindow writes for a stored window, by family; `single` is of the stored window, not of the wire's (R229, R233). -/
def windowScript (c : Cfg) (st : StRegs) (win : Window) : List Event :=
  let wire := wireCoords c st.rot win
  if capUnified (capsOf c) then writeWindowUnified c st.amap wire
  else writeWindowLegacy st.amap wire (win.x0 == win.x1 && win.y0 == win.y1)

/-- `SetWindow(x0, y0, x1, y1)` (R229). -/
def setWindow (x0 y0 x1 y1 : Int) (s : State) : State :=
  match clipWindow s.st.geomW s.st.geomH x0 y0 x1 y1 with
  | none => s
  | some win => { s with st := { s.st with win := win } }.perform (windowScript s.cfg s.st win)

/-- `SetWindow(0, 0, W-1, H-1)`: the full screen (R226, R284). -/
def setFullWindow (s : State) : State := setWindow 0 0 (s.st.geomW.toNat - 1) (s.st.geomH.toNat - 1) s

/-- `ResetWindow()` (R226). -/
def resetWindow (s : State) : State :=
  if s.st.geomW.toNat > 0 ∧ s.st.geomH.toNat > 0 then setFullWindow s
  else { s with st := { s.st with win := ⟨0, 0, 0, 0⟩ } }

/-! ### Vertical scroll (R245, R246) -/

/-- The native height, cfg NATIVE_WH.H0 (R246). -/
def nativeH (c : Cfg) : Half := cfgLo c cfgNATIVE_WH

/-- The scroll start line, or none where the request is a no-op (R246). -/
def scrollStart (h0 top lines : Half) (offset : Int) : Option Half :=
  if lines.toNat = 0 ∨ top.toNat + lines.toNat > h0.toNat then none
  else some (trunc16 (top.toNat + offset % lines.toNat))

/-- What VScroll writes (R246). -/
def scrollScript (c : Cfg) (top lines vsp : Half) : List Event :=
  if capUnified (capsOf c) then
    writeRegisterParams c (cfgHi c cfgVSCR_CMDS)
        (halfBytes top ++ halfBytes lines ++ halfBytes (nativeH c - top - lines))
      ++ writeRegisterParams c (cfgLo c cfgVSCR_CMDS) (halfBytes vsp)
  else writeRegister (cfgLo c cfgLEG_VSCR) vsp

/-- `VScroll(top, lines, offset)` (R246). -/
def vScroll (top lines : Half) (offset : Int) (s : State) : State :=
  match scrollStart (nativeH s.cfg) top lines offset with
  | none => s
  | some vsp =>
    { s with st := { s.st with scrTop := top, scrLines := lines, vsp := vsp } }.perform (scrollScript s.cfg top lines vsp)

/-- `ResetScroll()` (R227). -/
def resetScroll (s : State) : State :=
  if nativeH s.cfg = 0 then { s with st := { s.st with scrTop := 0, scrLines := 0, vsp := 0 } }
  else vScroll 0 (nativeH s.cfg) 0 s

/-! ### The requests -/

/-- The body of SETROT (R220). -/
def setRotation (r : BitVec 2) (s : State) : State :=
  let cb := controlByte s.cfg r
  let s := { s with st := { s.st with ctrl := cb } }
  let s := s.perform (writeControl s.cfg cb)
  let s := { s with st := { s.st with amap := activeMap s.cfg r } }
  let s := { s with st := { s.st with rot := r } }
  let s := { s with st := { s.st with geomW := widthAt s.cfg r, geomH := heightAt s.cfg r } }
  resetScroll (resetWindow s)

/-- SETROT (R220). -/
def execSetrot (r : BitVec 2) (s : State) : Host.Outcome State Fault Refusal :=
  .next (busRun (setRotation r) s)

/-- SETWIN (R229). -/
def execSetwin (x0 y0 x1 y1 : Half) (s : State) : Host.Outcome State Fault Refusal :=
  .next (busRun (setWindow (s16 x0) (s16 y0) (s16 x1) (s16 y1)) s)

/-- What INVERT writes for the effective state (R240). -/
def invertScript (c : Cfg) (eff : Bool) : List Event :=
  if capUnified (capsOf c) then writeCommand (if eff then cfgHi c cfgINV_CMDS else cfgLo c cfgINV_CMDS)
  else writeRegister (cfgHi c cfgLEG_INV) (cfgLo c cfgLEG_INV_BASE ^^^ (if eff then cfgLo c cfgLEG_INV else 0))

/-- The body of INVERT (R240): the request is recorded, and the state sent is it xor POLARITY_INV. -/
def setInversion (on : Bool) (s : State) : State :=
  { s with st := { s.st with inv := on } }.perform (invertScript s.cfg (on ^^ capPolarityInv (capsOf s.cfg)))

/-- INVERT (R240). -/
def execInvert (on : Bool) (s : State) : Host.Outcome State Fault Refusal :=
  .next (busRun (setInversion on) s)

/-- VSCROLL (R245). -/
def execVscroll (top lines offset : Half) (s : State) : Host.Outcome State Fault Refusal :=
  .next (busRun (vScroll top lines (s16 offset)) s)

end Sys2Proof.Machine
end

