-- ==== Sys2Proof/Machine/Pixel.lean ====
section
/-! DEFINITION. The colour codec and the meanings of the pixel requests (43_pixel.md R270 to R285). -/

namespace Sys2Proof.Machine

/-! ### Colour codec (R270 to R272, R275, R276) -/

/-- The red field c[15:11] (R270). -/
def red5 (c : Half) : BitVec 5 := c.extractLsb' 11 5

/-- The green field c[10:5] (R270). -/
def green6 (c : Half) : BitVec 6 := c.extractLsb' 5 6

/-- The blue field c[4:0] (R270). -/
def blue5 (c : Half) : BitVec 5 := c.extractLsb' 0 5

/-- `enc555(c)` (R270): the green LSB is dropped. -/
def enc555 (c : Half) : Half := (0 : BitVec 1) ++ red5 c ++ c.extractLsb' 6 5 ++ blue5 c

/-- `dec555(v)` (R271): the green LSB is the green MSB. -/
def dec555 (v : Half) : Half := v.extractLsb' 10 5 ++ v.extractLsb' 5 5 ++ v.extractLsb' 9 1 ++ v.extractLsb' 0 5

/-- `enc24(c)` (R272): three bytes in bus order. -/
def enc24 (bgr : Bool) (c : Half) : List Byte :=
  let r8 : Byte := red5 c ++ (0 : BitVec 3)
  let g8 : Byte := green6 c ++ (0 : BitVec 2)
  let b8 : Byte := blue5 c ++ (0 : BitVec 3)
  if bgr then [b8, g8, r8] else [r8, g8, b8]

/-- The bytes of one pixel on the wire; WIRE24_ONLY wins over WIRE555 (10_state.md R38, R273). -/
def pixelBytes (caps : Word) (color : Half) : List Byte :=
  if capWire24Only caps then enc24 (capWireBgr caps) color
  else if capWire555 caps then halfBytes (enc555 color)
  else halfBytes color

/-- `PixelWrite(c)` (R273). -/
def pixelWrite (caps : Word) (color : Half) : List Event := (pixelBytes caps color).flatMap writeData8

/-- R and B fields exchanged (R275). -/
def swapRedBlue (c : Half) : Half := blue5 c ++ green6 c ++ red5 c

/-- The colour of a 16-bit sample (R275). -/
def decodeSample16 (caps : Word) (hi lo : Byte) : Half :=
  let v : Half := if capReadOrderSwap caps then lo ++ hi else hi ++ lo
  let c := if capWire555 caps then dec555 v else v
  if capBgrRead caps then swapRedBlue c else c

/-- The colour of a 3-byte sample (R276). -/
def decodeSample24 (caps : Word) (b0 b1 b2 : Byte) : Half :=
  let (r, g, b) := if capBgrRead caps then (b2, b1, b0) else (b0, b1, b2)
  r.extractLsb' 3 5 ++ g.extractLsb' 2 6 ++ b.extractLsb' 3 5

/-- `ReadSample16()` (R275). -/
def readSample16 (s : State) : Half × State :=
  let caps := capsOf s.cfg
  let (hi, s) := busReadByte s
  let (lo, s) := busReadByte s
  (decodeSample16 caps hi lo, s)

/-- `ReadSample24()` (R276). -/
def readSample24 (s : State) : Half × State :=
  let caps := capsOf s.cfg
  let (b0, s) := busReadByte s
  let (b1, s) := busReadByte s
  let (b2, s) := busReadByte s
  (decodeSample24 caps b0 b1 b2, s)

/-- `ReadSample()` (R284): by READ24. -/
def readSample (s : State) : Half × State :=
  if capRead24 (capsOf s.cfg) then readSample24 s else readSample16 s

/-- n samples in order. -/
def readSamples : Nat → State → List Half × State
  | 0, s => ([], s)
  | n + 1, s =>
    let (c, s) := readSample s
    let (cs, s) := readSamples n s
    (c :: cs, s)

/-! ### PUSHPIX and WRPIX (R280, R282) -/

/-- What PUSHPIX writes (R280). -/
def pushScript (s : State) (first : Bool) (colors : List Half) : List Event :=
  (if first then writeCommand s.st.amap.mw else []) ++ colors.flatMap (pixelWrite (capsOf s.cfg))

/-- PUSHPIX (R280). -/
def execPushpix (first : Bool) (colors : List Half) (s : State) : Host.Outcome State Fault Refusal :=
  .next (busRun (fun s => s.perform (pushScript s first colors)) s)

/-- The body of WRPIX (R282): off-screen is a no-op; the window is left at the point. -/
def writePixelAt (x y : Int) (color : Half) (s : State) : State :=
  if x < 0 ∨ y < 0 ∨ x ≥ s.st.geomW.toNat ∨ y ≥ s.st.geomH.toNat then s
  else
    let s := setWindow x y x y s
    s.perform (writeCommand s.st.amap.mw ++ pixelWrite (capsOf s.cfg) color)

/-- WRPIX (R282). -/
def execWrpix (x y color : Half) (s : State) : Host.Outcome State Fault Refusal :=
  .next (busRun (writePixelAt (s16 x) (s16 y) color) s)

/-! ### RDPIX (R284, R285) -/

/-- The GRAM-read command, the switch to IN, and the dummy reads (R277, R284). -/
def openGramRead (s : State) : State :=
  let s := s.perform (writeCommand (cfgLo s.cfg cfgGRAM_RD) ++ [.dir .inp])
  (readBytes (dummyReads (capsOf s.cfg)) s).2

/-- The auto-increment read of n samples from the window (R284). -/
def autoincRead (x y : Int) (w h : Nat) (s : State) : List Half × State :=
  let s := openGramRead (setWindow x y (x + w - 1) (y + h - 1) s)
  let (cs, s) := readSamples (w * h) s
  (cs, s.perform [.dir .out])

/-- The points of a rectangle in row-major order: rows outside, columns inside (R285). -/
def rectPoints (x y : Int) (w h : Nat) : List (Int × Int) :=
  (List.range h).flatMap fun row => (List.range w).map fun col => (x + col, y + row)

/-- One sample at a point: cursor, GRAM-read command, dummy reads, sample (R285). -/
def readPoint (p : Int × Int) (s : State) : Half × State :=
  let s := openGramRead (setWindow p.1 p.2 p.1 p.2 s)
  let (c, s) := readSample s
  (c, s.perform [.dir .out])

/-- The samples at some points, one after another (R285). -/
def readPoints : List (Int × Int) → State → List Half × State
  | [], s => ([], s)
  | p :: ps, s =>
    let (c, s) := readPoint p s
    let (cs, s) := readPoints ps s
    (c :: cs, s)

/-- `PerSampleRead(x, y, w, h, nd)` (R285). -/
def perSampleRead (x y : Int) (w h : Nat) (s : State) : List Half × State := readPoints (rectPoints x y w h) s

/-- The rectangle is wholly on screen (R284). -/
def rectOnScreen (geomW geomH : Half) (x y : Int) (w h : Nat) : Bool :=
  0 ≤ x && 0 ≤ y && x + w ≤ geomW.toNat && y + h ≤ geomH.toNat

/-- The body of RDPIX (R284). -/
def readPixels (x y : Int) (w h : Nat) (s : State) : State :=
  if w = 0 ∨ h = 0 then s
  else if !rectOnScreen s.st.geomW s.st.geomH x y w h then s.respond (packHalves (List.replicate (w * h) 0))
  else
    let (samples, s) := if capAutoincRead (capsOf s.cfg) then autoincRead x y w h s else perSampleRead x y w h s
    (setFullWindow s).respond (packHalves samples)

/-- RDPIX (R284). -/
def execRdpix (x y w h : Half) (s : State) : Host.Outcome State Fault Refusal :=
  .next (busRun (readPixels (s16 x) (s16 y) w.toNat h.toNat) s)

end Sys2Proof.Machine
end

