-- ==== Sys2Proof/Machine/RegisterAccess.lean ====
section
/-! DEFINITION. The meanings of the register requests and of the initialization tables (41_register_access.md R175 to R187). -/

namespace Sys2Proof.Machine

/-! ### Register requests (R175 to R179) -/

/-- WRREG (R175). -/
def execWrreg (cmd data : Half) (s : State) : Host.Outcome State Fault Refusal :=
  .next (busRun (fun s => s.perform (writeRegister cmd data)) s)

/-- WRREGP (R176). -/
def execWrregp (cmd : Half) (params : List Byte) (s : State) : Host.Outcome State Fault Refusal :=
  .next (busRun (fun s => s.perform (writeRegisterParams s.cfg cmd params)) s)

/-- RDREG (R177). -/
def execRdreg (addr : Half) (index : Byte) (s : State) : Host.Outcome State Fault Refusal :=
  let (w, s) := busTxn (readRegister addr index.toNat) s
  .next (s.respond [zext32 w])

/-- RDREG32 (R178). -/
def execRdreg32 (addr : Half) (s : State) : Host.Outcome State Fault Refusal :=
  let (v, s) := busTxn (readRegister32 addr) s
  .next (s.respond [v])

/-- RDREG40 (R179): v[39:32], then v[31:0]. -/
def execRdreg40 (addr : Half) (s : State) : Host.Outcome State Fault Refusal :=
  let (v, s) := busTxn (readRegister40 addr) s
  .next (s.respond [(v.extractLsb' 32 8).setWidth 32, v.extractLsb' 0 32])

/-! ### Initialization tables (R180 to R187) -/

/-- The sentinel of the byte table, 0x7F (00_scope.md R5, R181). -/
def delay8Sentinel : Byte := 0x7F

/-- cfg INITMODE.D8POS: the sentinel stands in the command byte, not in the length byte (R36, R181). -/
def sentinelInCommand (c : Cfg) : Bool := (cfgRead c cfgINITMODE).getLsbD 0

/-- One entry of the byte table: command c, length n, and the bytes after them; the entry's script and the bytes left (R181, R182). -/
def tableEntry8 (cfg : Cfg) (c n : Byte) (rest : List Byte) : List Event × List Byte :=
  if !sentinelInCommand cfg && n == delay8Sentinel then (delayMs c.toNat, rest)
  else if sentinelInCommand cfg && c == delay8Sentinel then (delayMs n.toNat, rest)
  else (writeRegisterParams cfg (zext16 c) (rest.take n.toNat), rest.drop n.toNat)

/-- At most `fuel` entries of the byte table; a lone trailing byte is ignored (R181). -/
def runEntries8 (cfg : Cfg) : Nat → List Byte → List Event
  | fuel + 1, c :: n :: rest =>
    let (script, left) := tableEntry8 cfg c n rest
    script ++ runEntries8 cfg fuel left
  | _, _ => []

/-- `RunTable8(t, L)` (R181). Each entry takes two bytes or more, so as many entries as bytes are enough. -/
def runTable8 (cfg : Cfg) (table : List Byte) : List Event := runEntries8 cfg table.length table

/-- One pair of the word table (R186). -/
def tableEntry16 (cfg : Cfg) (reg data : Half) : List Event :=
  if reg = cfgLo cfg cfgDELAY16 then delayMs data.toNat else writeRegister reg data

/-- `RunTable16(pairs, P)` (R186). -/
def runTable16 (cfg : Cfg) (pairs : List (Half × Half)) : List Event :=
  pairs.flatMap fun p => tableEntry16 cfg p.1 p.2

/-- `WakePrefix()` (R187). -/
def wakePrefix (cfg : Cfg) : List Event :=
  writeCommand (zext16 (cfgByte cfg cfgWAKE_CMDS 3))
    ++ delayMs (cfgLo cfg cfgWAKE_PARAMS).toNat
    ++ writeRegisterParams cfg (zext16 (cfgByte cfg cfgWAKE_CMDS 0)) [cfgByte cfg cfgWAKE_PARAMS 3]

/-- `WakeSuffix()` (R187). -/
def wakeSuffix (cfg : Cfg) : List Event :=
  writeCommand (zext16 (cfgByte cfg cfgWAKE_CMDS 2))
    ++ delayMs (cfgLo cfg cfgWAKE_PARAMS).toNat
    ++ writeCommand (zext16 (cfgByte cfg cfgWAKE_CMDS 1))

/-- A table's script inside the wake bracket, when BRACKET = 1 and the family is unified (R180, R185). -/
def inBracket (cfg : Cfg) (bracket : Bool) (script : List Event) : List Event :=
  if bracket && capUnified (capsOf cfg) then wakePrefix cfg ++ script ++ wakeSuffix cfg else script

/-- INITTBL8 (R180). -/
def execInittbl8 (bracket : Bool) (table : List Byte) (s : State) : Host.Outcome State Fault Refusal :=
  .next (busRun (fun s => s.perform (inBracket s.cfg bracket (runTable8 s.cfg table))) s)

/-- INITTBL16 (R185). -/
def execInittbl16 (bracket : Bool) (pairs : List (Half × Half)) (s : State) : Host.Outcome State Fault Refusal :=
  .next (busRun (fun s => s.perform (inBracket s.cfg bracket (runTable16 s.cfg pairs))) s)

end Sys2Proof.Machine
end

