-- ==== Sys2Proof/Machine/Transport.lean ====
section
/-! DEFINITION. The meanings of the transport requests (40_transport.md R150 to R153). -/

namespace Sys2Proof.Machine

/-- WRCMD (R150). -/
def execWrcmd (word : Half) (s : State) : Host.Outcome State Fault Refusal :=
  .next (busRun (fun s => s.perform (writeCommand word)) s)

/-- WRDATA (R151). -/
def execWrdata (word : Half) (s : State) : Host.Outcome State Fault Refusal :=
  .next (busRun (fun s => s.perform (writeData word)) s)

/-- WRDATA8 (R152). -/
def execWrdata8 (byte : Byte) (s : State) : Host.Outcome State Fault Refusal :=
  .next (busRun (fun s => s.perform (writeData8 byte)) s)

/-- The body of RDWORD: switch to IN, read a word, switch back (R153). -/
def readWordAlone (s : State) : Half × State :=
  let s := s.perform [.dir .inp]
  let (w, s) := readWord s
  (w, s.perform [.dir .out])

/-- RDWORD (R153). -/
def execRdword (s : State) : Host.Outcome State Fault Refusal :=
  let (w, s) := busTxn readWordAlone s
  .next (s.respond [zext32 w])

end Sys2Proof.Machine
end

