-- ==== Sys2Proof/Machine/Dispatch.lean ====
section
/-! DEFINITION. The meaning of every request, one arm per constructor of `Instr`. -/

namespace Sys2Proof.Machine

def exec (i : Instr) (s : State) : Host.Outcome State Fault Refusal :=
  match i with
  -- 40_transport.md
  | .wrcmd word => Sys2Proof.Machine.execWrcmd word s
  | .wrdata word => Sys2Proof.Machine.execWrdata word s
  | .wrdata8 byte => Sys2Proof.Machine.execWrdata8 byte s
  | .rdword => Sys2Proof.Machine.execRdword s
  -- 41_register_access.md
  | .wrreg cmd data => Sys2Proof.Machine.execWrreg cmd data s
  | .wrregp cmd params => Sys2Proof.Machine.execWrregp cmd params s
  | .rdreg addr index => Sys2Proof.Machine.execRdreg addr index s
  | .rdreg32 addr => Sys2Proof.Machine.execRdreg32 addr s
  | .rdreg40 addr => Sys2Proof.Machine.execRdreg40 addr s
  | .inittbl8 bracket table => Sys2Proof.Machine.execInittbl8 bracket table s
  | .inittbl16 bracket pairs => Sys2Proof.Machine.execInittbl16 bracket pairs s
  -- 42_rotation_addressing.md
  | .setrot r => Sys2Proof.Machine.execSetrot r s
  | .setwin x0 y0 x1 y1 => Sys2Proof.Machine.execSetwin x0 y0 x1 y1 s
  | .invert on => Sys2Proof.Machine.execInvert on s
  | .vscroll top lines offset => Sys2Proof.Machine.execVscroll top lines offset s
  -- 43_pixel.md
  | .pushpix first colors => Sys2Proof.Machine.execPushpix first colors s
  | .wrpix x y color => Sys2Proof.Machine.execWrpix x y color s
  | .rdpix x y w h => Sys2Proof.Machine.execRdpix x y w h s
  -- 44_control.md
  | .nop => Sys2Proof.Machine.execNop s
  | .wrcfg index value => Sys2Proof.Machine.execWrcfg index value s
  | .rdcfg index => Sys2Proof.Machine.execRdcfg index s
  | .rdstate index => Sys2Proof.Machine.execRdstate index s
  | .clrstat => Sys2Proof.Machine.execClrstat s
  | .delay ms => Sys2Proof.Machine.execDelay ms s
  | .busreset => Sys2Proof.Machine.execBusreset s

end Sys2Proof.Machine
end

