-- ==== Sys2Proof/Machine/Run.lean ====
section
/-! DEFINITION. Running one frame and one input of the host (30_encoding.md R110, 60_exceptions.md R341, 70_reset_and_hazards.md
R370). `step` only calls these. -/

namespace Sys2Proof.Machine

/-- Perform a frame: an illegal one is dropped whole (R341), any other runs its request. -/
def runFrame (f : Frame) (s : State) : Host.Outcome State Fault Refusal :=
  match decode f with
  | .error _ => .next (raiseIllegal s)
  | .ok i => exec i s

/-- Perform a frame that the reset input cuts after k of its bus events (R370). -/
def runFrameCut (f : Frame) (k : Nat) (s : State) : Host.Outcome State Fault Refusal :=
  match runFrame f s with
  | .next t => .next (cutByReset k s t)
  | .fault e => .fault e
  | .refused e => .refused e

/-- Perform what the host does. -/
def runInput (i : Input) (s : State) : Host.Outcome State Fault Refusal :=
  match i with
  | .frame f => runFrame f s
  | .reset => .next (resetInput s)
  | .resetDuring f k => runFrameCut f k s

end Sys2Proof.Machine
end

