-- ==== Sys2Proof/Machine/Step.lean ====
section
/-! DEFINITION. One step of TFTBUS: the host's next input, performed to completion before the next (20_memory.md R88). -/

namespace Sys2Proof.Machine

/-- One step. With nothing from the host the block waits (70_reset_and_hazards.md R371; log entry 2). -/
def step (s : State) : Host.Outcome State Fault Refusal :=
  match s.inbox with
  | [] => .next s
  | i :: rest => runInput i (s.accept rest)

/-- s with an instruction, given as a table word, submitted as the host's next frame. TFTBUS fetches no instructions (20_memory.md
R91): a program is what the host submits (log entry 1). -/
def State.withFetchWord (s : State) (nbits w : Nat) : State :=
  { s with inbox := .frame (tableFrame nbits w) :: s.inbox }

end Sys2Proof.Machine
end

