-- ==== Sys2Proof/Machine/Asm.lean ====
section
/-! DEFINITION. The assembler text of 30_encoding.md R119: one request a line, the mnemonic and then operands separated by commas;
numbers decimal or 0x hexadecimal, coordinates may be negative. A line of another form, or with a number that its operand cannot
hold, is no request (log entry 20); a list longer than its count field can say is accepted (log entry 21). -/

namespace Sys2Proof.Machine

/-- A piece of a line: a word (a mnemonic, a number, a flag letter) or a mark. -/
inductive AsmToken where
  | word (chars : List Char)
  | comma
  | colon
  | opening
  | closing
  deriving DecidableEq, Repr

/-- The mark a character is, if it is one. -/
def asmMark (c : Char) : Option AsmToken :=
  if c = ',' then some .comma
  else if c = ':' then some .colon
  else if c = '[' then some .opening
  else if c = ']' then some .closing
  else none

/-- The tokens of a line; `acc` is the word being read, last character first. -/
def asmTokens : List Char → List Char → List AsmToken
  | acc, [] => if acc.isEmpty then [] else [.word acc.reverse]
  | acc, c :: rest =>
    let word : List AsmToken := if acc.isEmpty then [] else [.word acc.reverse]
    match asmMark c with
    | some mark => word ++ mark :: asmTokens [] rest
    | none => if c = ' ' then word ++ asmTokens [] rest else asmTokens (c :: acc) rest

/-- The value of a digit character, hexadecimal letters in either case. -/
def digitValue (c : Char) : Nat :=
  if c.isDigit then c.toNat - '0'.toNat
  else if 'a'.toNat ≤ c.toNat ∧ c.toNat ≤ 'f'.toNat then c.toNat - 'a'.toNat + 10
  else if 'A'.toNat ≤ c.toNat ∧ c.toNat ≤ 'F'.toNat then c.toNat - 'A'.toNat + 10
  else 99

/-- A string of digits in a base, none if it is empty or a digit is out of the base. -/
def digitsValue (base : Nat) (digits : List Char) : Option Nat :=
  if digits.isEmpty || digits.any (fun c => base ≤ digitValue c) then none
  else some (digits.foldl (fun n c => n * base + digitValue c) 0)

/-- An unsigned number: 0x hexadecimal or decimal (R119). -/
def unsignedNumber : List Char → Option Nat
  | '0' :: 'x' :: digits => digitsValue 16 digits
  | digits => digitsValue 10 digits

/-- A number, with a minus sign or not (R119). -/
def signedNumber : List Char → Option Int
  | '-' :: digits => (unsignedNumber digits).map fun n => -(n : Int)
  | digits => (unsignedNumber digits).map fun n => (n : Int)

/-- An unsigned operand of k bits. -/
def unsignedOperand (k : Nat) : AsmToken → Option (BitVec k)
  | .word chars => (unsignedNumber chars).bind fun n => if n < 2 ^ k then some (BitVec.ofNat k n) else none
  | .comma | .colon | .opening | .closing => none

/-- A signed 16-bit operand: a coordinate or an offset (R112, R119). -/
def signedOperand : AsmToken → Option Half
  | .word chars =>
    (signedNumber chars).bind fun n => if -32768 ≤ n ∧ n ≤ 32767 then some (BitVec.ofInt 16 n) else none
  | .comma | .colon | .opening | .closing => none

/-- A flag: its letter for 1, a minus sign for 0 (R119). -/
def flagOperand (letter : Char) (t : AsmToken) : Option Bool :=
  if t = .word [letter] then some true else if t = .word ['-'] then some false else none

/-- The rest of a bracketed list of k-bit numbers after its opening bracket. -/
def listOperand (k : Nat) : List AsmToken → Option (List (BitVec k))
  | [.closing] => some []
  | [t, .closing] => (unsignedOperand k t).map fun v => [v]
  | t :: .comma :: rest =>
    if rest = [.closing] then none
    else do return (← unsignedOperand k t) :: (← listOperand k rest)
  | _ => none

/-- The rest of a bracketed list of reg:data pairs after its opening bracket. -/
def pairsOperand : List AsmToken → Option (List (Half × Half))
  | [.closing] => some []
  | [r, .colon, d, .closing] => do
    let r ← unsignedOperand 16 r
    let d ← unsignedOperand 16 d
    return [(r, d)]
  | r :: .colon :: d :: .comma :: rest =>
    if rest = [.closing] then none
    else do return (← unsignedOperand 16 r, ← unsignedOperand 16 d) :: (← pairsOperand rest)
  | _ => none

/-- The request of a mnemonic and its operand tokens (R119). DESIGN CHOICE (log entry 21): a bracketed list longer than its count field
can say is accepted as it stands; R119 does not say what the assembler does then. Its frame is an illegal one (R113, R118). -/
def asmRequest (op : Op) (ts : List AsmToken) : Option Instr :=
  match op, ts with
  | .nop, [] => some .nop
  | .wrcmd, [w] => (unsignedOperand 16 w).map .wrcmd
  | .wrdata, [w] => (unsignedOperand 16 w).map .wrdata
  | .wrdata8, [b] => (unsignedOperand 8 b).map .wrdata8
  | .rdword, [] => some .rdword
  | .wrreg, [cmd, .comma, data] => do return .wrreg (← unsignedOperand 16 cmd) (← unsignedOperand 16 data)
  | .wrregp, cmd :: .comma :: .opening :: bytes => do return .wrregp (← unsignedOperand 16 cmd) (← listOperand 8 bytes)
  | .rdreg, [addr, .comma, index] => do return .rdreg (← unsignedOperand 16 addr) (← unsignedOperand 8 index)
  | .rdreg32, [addr] => (unsignedOperand 16 addr).map .rdreg32
  | .rdreg40, [addr] => (unsignedOperand 16 addr).map .rdreg40
  | .inittbl8, b :: .comma :: .opening :: bytes => do return .inittbl8 (← flagOperand 'B' b) (← listOperand 8 bytes)
  | .inittbl16, b :: .comma :: .opening :: pairs => do return .inittbl16 (← flagOperand 'B' b) (← pairsOperand pairs)
  | .setrot, [r] => (unsignedOperand 2 r).map .setrot
  | .setwin, [x0, .comma, y0, .comma, x1, .comma, y1] => do
    return .setwin (← signedOperand x0) (← signedOperand y0) (← signedOperand x1) (← signedOperand y1)
  | .invert, [on] => (unsignedOperand 1 on).map fun b => .invert (b.getLsbD 0)
  | .vscroll, [top, .comma, lines, .comma, offset] => do
    return .vscroll (← unsignedOperand 16 top) (← unsignedOperand 16 lines) (← signedOperand offset)
  | .pushpix, f :: .comma :: .opening :: colors => do return .pushpix (← flagOperand 'F' f) (← listOperand 16 colors)
  | .wrpix, [x, .comma, y, .comma, color] => do
    return .wrpix (← signedOperand x) (← signedOperand y) (← unsignedOperand 16 color)
  | .rdpix, [x, .comma, y, .comma, w, .comma, h] => do
    return .rdpix (← signedOperand x) (← signedOperand y) (← unsignedOperand 16 w) (← unsignedOperand 16 h)
  | .wrcfg, [i, .comma, v] => do return .wrcfg (← unsignedOperand 8 i) (← unsignedOperand 32 v)
  | .rdcfg, [i] => (unsignedOperand 8 i).map .rdcfg
  | .rdstate, [i] => (unsignedOperand 8 i).map .rdstate
  | .clrstat, [] => some .clrstat
  | .delay, [ms] => (unsignedOperand 16 ms).map .delay
  | .busreset, [] => some .busreset
  | _, _ => none

/-- The mnemonic of an opcode (R116). -/
def mnemonicOf : Op → String
  | .nop => "NOP" | .wrcmd => "WRCMD" | .wrdata => "WRDATA" | .wrdata8 => "WRDATA8" | .rdword => "RDWORD"
  | .wrreg => "WRREG" | .wrregp => "WRREGP" | .rdreg => "RDREG" | .rdreg32 => "RDREG32" | .rdreg40 => "RDREG40"
  | .inittbl8 => "INITTBL8" | .inittbl16 => "INITTBL16"
  | .setrot => "SETROT" | .setwin => "SETWIN" | .invert => "INVERT" | .vscroll => "VSCROLL"
  | .pushpix => "PUSHPIX" | .wrpix => "WRPIX" | .rdpix => "RDPIX"
  | .wrcfg => "WRCFG" | .rdcfg => "RDCFG" | .rdstate => "RDSTATE" | .clrstat => "CLRSTAT" | .delay => "DELAY"
  | .busreset => "BUSRESET"

/-- The opcode of a mnemonic. -/
def opOfMnemonic (chars : List Char) : Option Op := Op.all.find? fun op => (mnemonicOf op).toList == chars

/-- The request a line of assembler text stands for (R119). -/
def assembleLine (line : String) : Option Instr :=
  match asmTokens [] line.toList with
  | .word m :: ts => (opOfMnemonic m).bind fun op => asmRequest op ts
  | _ => none

end Sys2Proof.Machine
end

