-- ==== Sys2Proof/Machine/Pseudo.lean ====
section
/-! DEFINITION. The pseudo-requests of 30_encoding.md R120 and the requests they expand to. The host reads what an expansion needs of
the block's registers (st GEOM, cfg) before it expands. -/

namespace Sys2Proof.Machine

/-- FULLWIN: `SETWIN 0, 0, W-1, H-1` with W, H = st.GEOM (R120), modulo 2^16 (log entry 18). -/
def expandFullwin (geomW geomH : Half) : List Instr := [.setwin 0 0 (geomW - 1) (geomH - 1)]

/-- FILL: the window, w*h pixels of the colour, FULLWIN (R120). Expanded literally, the window's end modulo 2^16, and w*h pixels also where
the window is clipped, for which R120 asks the host for the clipped count (DEDUCED, log entry 18). -/
def expandFill (x y w h color geomW geomH : Half) : List Instr :=
  [.setwin x y (x + w - 1) (y + h - 1), .pushpix true (List.replicate (w.toNat * h.toNat) color)]
    ++ expandFullwin geomW geomH

/-- A register value with the field of `mask` set to the bits of `value` (the host's part of WRCFGS, R120). DESIGN CHOICE (log entry 22):
R120 does not say how a field is given; here it is a mask, and the value stands already in the field's bit positions. -/
def setField (old mask value : Word) : Word := (old &&& ~~~mask) ||| (value &&& mask)

/-- WRCFGS: `RDCFG idx` then `WRCFG idx, new`, where `old` is what the RDCFG responded (R120); field and
value as `setField` takes them (log entry 22). -/
def expandWrcfgs (index : Byte) (old mask value : Word) : List Instr :=
  [.rdcfg index, .wrcfg index (setField old mask value)]

end Sys2Proof.Machine
end

