-- ==== Sys2Proof/Safety.lean ====
section
/-! DEFINITION. What counts as a safe run, in the terms the statements use: the pins at rest between requests, a legal bus, legal
configuration, window and scroll registers; and what a request answers, written out field by field. -/

namespace Sys2Proof.Machine

/-! ### The pins between requests (10_state.md R31) -/

/-- The idle levels: CS_n, RS, WR_n, RD_n and RST_n at 1, dir = OUT (R31). -/
def Pins.isIdle (p : Pins) : Bool := p.csN && p.rs && p.wrN && p.rdN && p.rstN && p.dir == .out

/-- Between requests: idle once driven (R31), driven whenever the bus is ready (R372), dir = OUT (R144). -/
def pinsAtRest (s : State) : Bool :=
  (!s.pins.driven || s.pins.isIdle) && (!s.st.busReady || s.pins.driven) && s.pins.dir == .out

/-! ### Legal bus traces (40_transport.md R142 to R145) -/

/-- What a watcher of the bus knows: the pins were driven, the level of CS_n, the direction. -/
structure BusView where
  driven : Bool
  csN    : Bool
  dir    : Dir
  deriving DecidableEq, Repr

/-- The watcher before the first event: nothing driven (R32). -/
def BusView.start : BusView := ⟨false, true, .out⟩

/-- The watcher's rules: a write cycle needs CS_n = 0 and dir = OUT (R142), a read cycle CS_n = 0 and dir = IN (R143), the direction
switches only inside a selection and only to the other value (R144), CS_n toggles and only with dir = OUT (R145), RST_n moves only
outside a selection (R372), and nothing but a wait or bring-up happens on undriven pins (R32, R325). -/
def BusView.next (v : BusView) : Event → Option BusView
  | .idle => some ⟨true, true, .out⟩
  | .delay _ => some v
  | .rst _ => if v.driven && v.csN && v.dir == .out then some v else none
  | .cs level => if v.driven && v.csN != level && v.dir == .out then some { v with csN := level } else none
  | .dir d => if v.driven && !v.csN && v.dir != d then some { v with dir := d } else none
  | .w _ _ => if v.driven && !v.csN && v.dir == .out then some v else none
  | .r _ => if v.driven && !v.csN && v.dir == .inp then some v else none

/-- Watch a list of events, none if one of them breaks a rule. -/
def BusView.run (v : BusView) : List Event → Option BusView
  | [] => some v
  | e :: es => (v.next e).bind fun v => v.run es

/-- What a watcher who is told of every reset input knows between requests: after a reset, as before the first event, nothing is driven
(R32, R370). -/
def BusView.ofPins (p : Pins) : BusView := if p.driven then ⟨true, p.csN, p.dir⟩ else .start

/-- The trace so far breaks no rule of the bus, and while the pins are driven the watcher's view is what they are. -/
def busLegal (s : State) : Bool :=
  match BusView.start.run s.trace with
  | none => false
  | some v => !s.pins.driven || (v.driven && v.csN == s.pins.csN && v.dir == s.pins.dir)

/-- The write cycles among some events (R390 counts them). -/
def writeCycles (es : List Event) : Nat := es.countP fun e => match e with | .w _ _ => true | _ => false

/-! ### Legal registers (R35, R37, R52, R246) -/

/-- Undefined bits of the configuration registers are zero, and CAPS.DUMMY is 0, 1 or 2 (R35, R37). -/
abbrev cfgLegal (c : Cfg) : Prop :=
  (∀ i : Fin 31, cfgRead c i &&& ~~~definedMask i = 0) ∧ capDummy (capsOf c) ≤ 2

/-- The window lies inside a geometry that has one, start before end; with no geometry it is (0,0,0,0) (R52). -/
def windowLegal (st : StRegs) : Bool :=
  if st.geomW.toNat > 0 ∧ st.geomH.toNat > 0 then
    st.win.x0.toNat ≤ st.win.x1.toNat ∧ st.win.x1.toNat < st.geomW.toNat
      ∧ st.win.y0.toNat ≤ st.win.y1.toNat ∧ st.win.y1.toNat < st.geomH.toNat
  else st.win = ⟨0, 0, 0, 0⟩

/-- The scroll start line lies in the scroll area, or nothing scrolls (R246, R227). -/
def scrollLegal (st : StRegs) : Bool :=
  if st.scrLines.toNat = 0 then st.scrTop.toNat = 0 ∧ st.vsp.toNat = 0
  else st.scrTop.toNat ≤ st.vsp.toNat ∧ st.vsp.toNat < st.scrTop.toNat + st.scrLines.toNat

/-- A safe state: everything above. -/
def Safe (s : State) : Prop :=
  pinsAtRest s = true ∧ busLegal s = true ∧ cfgLegal s.cfg ∧ windowLegal s.st = true ∧ scrollLegal s.st = true

/-- The geometry is the one of the current rotation (R52), which holds while NATIVE_WH is not written after SETROT. -/
def geometryFresh (s : State) : Bool :=
  s.st.geomW == widthAt s.cfg s.st.rot && s.st.geomH == heightAt s.cfg s.st.rot

/-! ### What a request answers -/

/-- The requests of the bus class (R141). -/
def isBusRequest : Instr → Bool
  | .wrcmd _ | .wrdata _ | .wrdata8 _ | .rdword | .wrreg _ _ | .wrregp _ _ | .rdreg _ _ | .rdreg32 _ | .rdreg40 _
  | .inittbl8 _ _ | .inittbl16 _ _ | .setrot _ | .setwin _ _ _ _ | .invert _ | .vscroll _ _ _ | .pushpix _ _
  | .wrpix _ _ _ | .rdpix _ _ _ _ => true
  | .nop | .wrcfg _ _ | .rdcfg _ | .rdstate _ | .clrstat | .delay _ | .busreset => false

/-- The byte the chip drives on the k-th coming read cycle: any byte (R86). -/
def sampleAt (s : State) (k : Nat) : Byte := s.samples.getD k (Config.chipSample (s.freeNo + k))

/-- The bytes of the n coming read cycles. -/
def upcoming (s : State) (n : Nat) : List Byte := (List.range n).map (sampleAt s)

/-- What a bus request puts on the bus when its body's events are es: bring-up first if the bus is not ready, then the events in one
chip selection, or nothing if there are none (R141). -/
def busTrace (s : State) (es : List Event) : List Event :=
  (if s.st.busReady then [] else bringUpScript s.cfg) ++ (if es = [] then [] else [.cs false] ++ es ++ [.cs true])

/-- A bus request i goes from s to a next state in which the body's events are `es`, the state registers are `st` (with BUSREADY
set), the response has grown by `resp` and `reads` samples are used up. Configuration and inbox are unchanged, and the pins are
what the events leave. -/
def BusAnswers (i : Instr) (s : State) (es : List Event) (st : StRegs) (resp : List Word) (reads : Nat) : Prop :=
  ∃ t, exec i s = .next t
    ∧ t.trace = s.trace ++ busTrace s es
    ∧ t.pins = (busTrace s es).foldl Pins.after s.pins
    ∧ t.st = { st with busReady := true }
    ∧ t.cfg = s.cfg
    ∧ t.resp = s.resp ++ resp
    ∧ t.inbox = s.inbox
    ∧ t.samples = s.samples.drop reads
    ∧ t.freeNo = s.freeNo + reads

end Sys2Proof.Machine
end

