-- ==== Sys2Proof/Certificates/Slice0/Obligations.lean ====
section
/-! DEFINITION. The statements for the provers. The namespace `Sys2Proof.Claims` writes the spec's rules out again, in bus events and
field by field, so that a statement does not lean on the definition it is about. -/

namespace Sys2Proof.Claims

open Sys2Proof.Machine

/-! ### The rules as event lists -/

/-- Bit k of cfg CAPS (R37). -/
def cap (c : Cfg) (k : Nat) : Bool := (c.get 0x01).getLsbD k

/-- `writeCommand(w)`: two command bytes, high byte first (R146). -/
def command (w : Half) : List Event := [.w false (w.extractLsb' 8 8), .w false (w.extractLsb' 0 8)]

/-- `writeRegister(cmd, w)`: the command, then the word as two data bytes (R146, R170). -/
def register (cmd w : Half) : List Event := command cmd ++ [.w true (w.extractLsb' 8 8), .w true (w.extractLsb' 0 8)]

/-- `writeRegisterParams(cmd, b)` (R171): byte i to command address cmd + i when PARAM_ADDR_INC = 1, else all to cmd; with no byte the
command alone. -/
def paramWrites (c : Cfg) (cmd : Half) (bytes : List Byte) : List Event :=
  if cap c 13 = true ∧ bytes ≠ [] then
    bytes.zipIdx.flatMap fun p => command (cmd + BitVec.ofNat 16 p.2) ++ [.w true p.1]
  else command cmd ++ bytes.map (.w true)

/-- `DelayMs(n)` (R326). -/
def wait (n : Nat) : List Event := if n = 0 then [] else [.delay n]

/-- `BringUp()`'s events (R372). -/
def bringUpEvents (c : Cfg) : List Event :=
  let ctrl := c.get 0x1D
  let low := wait (ctrl.extractLsb' 8 8).toNat
  let recovery := wait (ctrl.extractLsb' 16 16).toNat
  if ctrl.getLsbD 0 then .idle :: .rst false :: (low ++ .rst true :: recovery) else [.idle]

/-- The native size, cfg NATIVE_WH (R36). -/
def nativeW0 (c : Cfg) : Half := (c.get 0x02).extractLsb' 16 16
/-- The native size, cfg NATIVE_WH (R36). -/
def nativeH0 (c : Cfg) : Half := (c.get 0x02).extractLsb' 0 16

/-- `ControlByte(r)` (R221). -/
def controlOf (c : Cfg) (r : BitVec 2) : Byte :=
  (c.get 0x0B).extractLsb' (8 * r.toNat) 8
    ^^^ (if cap c 8 then 0x40 else 0) ^^^ (if cap c 9 then 0x80 else 0)

/-- `WriteControl(cb)` (R222): unified, split and legacy families. -/
def controlWrites (c : Cfg) (cb : Byte) : List Event :=
  let ctrlReg : Half := (c.get 0x0C).extractLsb' 0 16
  let alt1 : Half := (c.get 0x0D).extractLsb' 16 16
  let alt2 : Half := (c.get 0x0D).extractLsb' 0 16
  let docReg : Half := (c.get 0x0E).extractLsb' 16 16
  let entReg : Half := (c.get 0x0E).extractLsb' 0 16
  let toggled (base : Half) (bit : Nat) (mask : Half) : Half := if cb.getLsbD bit then base ^^^ mask else base
  let doc := toggled (toggled ((c.get 0x0F).extractLsb' 16 16) 6 ((c.get 0x0F).extractLsb' 0 16)) 7 ((c.get 0x10).extractLsb' 0 16)
  let ent := toggled (toggled ((c.get 0x11).extractLsb' 16 16) 5 ((c.get 0x11).extractLsb' 0 16)) 4 ((c.get 0x12).extractLsb' 0 16)
  if cap c 10 then
    if cap c 14 then command alt1 ++ .w true cb :: (command alt2 ++ [.w true cb])
    else command ctrlReg ++ [.w true cb]
  else register docReg doc ++ register entReg ent

/-- The active map after SETROT r (R223, R224). -/
def mapAt (c : Cfg) (r : BitVec 2) : RegMap :=
  let reg (i : Fin 31) : Half := (c.get i).extractLsb' 0 16
  if r.toNat % 2 = 1 ∧ cap c 5 = false then
    { mw := reg 3, xs := reg 6, xe := reg 7, ys := reg 4, ye := reg 5, xc := reg 9, yc := reg 8 }
  else { mw := reg 3, xs := reg 4, xe := reg 5, ys := reg 6, ye := reg 7, xc := reg 8, yc := reg 9 }

/-- `W(r)` (R225). -/
def widthOf (c : Cfg) (r : BitVec 2) : Half := if r.toNat % 2 = 0 then nativeW0 c else nativeH0 c
/-- `H(r)` (R225). -/
def heightOf (c : Cfg) (r : BitVec 2) : Half := if r.toNat % 2 = 0 then nativeH0 c else nativeW0 c

/-- The coordinates a window is sent as (R230, then R233). -/
def wireOf (c : Cfg) (r : BitVec 2) (v : Window) : Window :=
  let ofs := (c.get 0x13).extractLsb' 0 16
  let applies := (c.get 0x13).getLsbD (16 + r.toNat)
  let rows := (c.get 0x13).getLsbD 20
  let dx : Half := if applies && !rows then ofs else 0
  let dy : Half := if applies && rows then ofs else 0
  let nudged := cap c 18 && r.toNat % 2 == 1
  let x0 := v.x0 + dx
  let x1 := v.x1 + dx
  let y0 := v.y0 + dy
  let y1 := v.y1 + dy
  { x0 := x0
    y0 := y0
    x1 := if nudged && x1 == x0 then x1 + 1 else x1
    y1 := if nudged && y1 == y0 then y1 + 1 else y1 }

/-- The two bytes of a coordinate, high byte first. -/
def twoBytes (v : Half) : List Byte := [v.extractLsb' 8 8, v.extractLsb' 0 8]

/-- One axis of a legacy window (R232): end in the high byte and start in the low byte of a combined register, else two registers. -/
def boundaryWrites (startReg endReg start fin : Half) : List Event :=
  if startReg = endReg then register startReg (fin.extractLsb' 0 8 ++ start.extractLsb' 0 8)
  else register startReg start ++ register endReg fin

/-- What SetWindow writes for the stored window v with active map m at rotation r (R230 to R233). -/
def windowWrites (c : Cfg) (m : RegMap) (r : BitVec 2) (v : Window) : List Event :=
  let u := wireOf c r v
  if cap c 10 then
    (if cap c 14 then paramWrites c m.xc (twoBytes u.x0) ++ paramWrites c m.yc (twoBytes u.y0) else [])
      ++ paramWrites c m.xs (twoBytes u.x0 ++ twoBytes u.x1)
      ++ paramWrites c m.ys (twoBytes u.y0 ++ twoBytes u.y1)
  else
    register m.xc u.x0 ++ register m.yc u.y0
      ++ (if v.x0 = v.x1 ∧ v.y0 = v.y1 then [] else boundaryWrites m.xs m.xe u.x0 u.x1 ++ boundaryWrites m.ys m.ye u.y0 u.y1)

/-- The full screen of a geometry (R226). -/
def fullWindow (w h : Half) : Window := ⟨0, 0, w - 1, h - 1⟩

/-- What VScroll writes (R246). -/
def scrollWrites (c : Cfg) (top lines vsp : Half) : List Event :=
  if cap c 10 then
    paramWrites c ((c.get 0x17).extractLsb' 16 16)
        (twoBytes top ++ twoBytes lines ++ twoBytes (nativeH0 c - top - lines))
      ++ paramWrites c ((c.get 0x17).extractLsb' 0 16) (twoBytes vsp)
  else register ((c.get 0x18).extractLsb' 0 16) vsp

/-- `PixelWrite(c)` (R273). -/
def pixelWrites (c : Cfg) (color : Half) : List Event :=
  let wire : List Byte :=
    if cap c 11 then enc24 (cap c 15) color
    else if cap c 12 then twoBytes (enc555 color)
    else twoBytes color
  wire.map (.w true)

/-- `WakePrefix()` (R187). -/
def wakePrefixWrites (c : Cfg) : List Event :=
  command ((0 : Byte) ++ (c.get 0x19).extractLsb' 24 8) ++ wait ((c.get 0x1A).extractLsb' 0 16).toNat
    ++ command ((0 : Byte) ++ (c.get 0x19).extractLsb' 0 8) ++ [.w true ((c.get 0x1A).extractLsb' 24 8)]

/-- `WakeSuffix()` (R187). -/
def wakeSuffixWrites (c : Cfg) : List Event :=
  command ((0 : Byte) ++ (c.get 0x19).extractLsb' 16 8) ++ wait ((c.get 0x1A).extractLsb' 0 16).toNat
    ++ command ((0 : Byte) ++ (c.get 0x19).extractLsb' 8 8)

/-- A table's events in the wake bracket of a unified family (R180, R185). -/
def bracketed (c : Cfg) (bracket : Bool) (es : List Event) : List Event :=
  if bracket = true ∧ cap c 10 = true then wakePrefixWrites c ++ es ++ wakeSuffixWrites c else es

/-! ### Reading pixels -/

/-- Bytes per sample (R275, R276). -/
def sampleBytes (c : Cfg) : Nat := if cap c 1 then 3 else 2

/-- Dummy reads (R277). -/
def dummies (c : Cfg) : Nat := if cap c 4 then 0 else ((c.get 0x01).extractLsb' 16 2).toNat

/-- The number of a colour by its fields: 5 bits of red, 6 of green, 5 of blue (R270). -/
def colourNumber (red green blue : Nat) : Nat := red * 2 ^ 11 + green * 2 ^ 5 + blue

/-- `ReadSample16()` as a number (R275, with dec555 by R271): bit 2 of CAPS swaps the bytes, bit 12 reads a 555 word, bit 3 exchanges red
and blue. -/
def sample16Number (caps : Word) (hi lo : Nat) : Nat :=
  let v := if caps.getLsbD 2 then lo * 2 ^ 8 + hi else hi * 2 ^ 8 + lo
  let red := if caps.getLsbD 12 then v / 2 ^ 10 % 2 ^ 5 else v / 2 ^ 11
  let green := if caps.getLsbD 12 then v / 2 ^ 5 % 2 ^ 5 * 2 + v / 2 ^ 9 % 2 else v / 2 ^ 5 % 2 ^ 6
  let blue := v % 2 ^ 5
  if caps.getLsbD 3 then colourNumber blue green red else colourNumber red green blue

/-- `ReadSample24()` as a number (R276): the top 5, 6 and 5 bits of the red, green and blue byte, whatever their low bits; bit 3 of CAPS
says that blue comes first. -/
def sample24Number (caps : Word) (b0 b1 b2 : Nat) : Nat :=
  if caps.getLsbD 3 then colourNumber (b2 / 2 ^ 3) (b1 / 2 ^ 2) (b0 / 2 ^ 3) else colourNumber (b0 / 2 ^ 3) (b1 / 2 ^ 2) (b2 / 2 ^ 3)

/-- The colour of the sample whose first byte is the k-th coming one (R275, R276). -/
def sampleColor (s : State) (k : Nat) : Half :=
  let byte (j : Nat) : Nat := (sampleAt s (k + j)).toNat
  BitVec.ofNat 16
    (if cap s.cfg 1 then sample24Number (s.cfg.get 0x01) (byte 0) (byte 1) (byte 2)
     else sample16Number (s.cfg.get 0x01) (byte 0) (byte 1))

/-- The read cycles of the coming bytes k, k+1, ..., k+n-1. -/
def readEvents (s : State) (k n : Nat) : List Event := (List.range n).map fun j => .r (sampleAt s (k + j))

/-- `readRegister(addr, n/2 - 1)` on the bus, its bytes being the coming ones from k on (R172). -/
def readGroup (s : State) (addr : Half) (k n : Nat) : List Event :=
  command addr ++ .dir .inp :: (readEvents s k n ++ [.dir .out])

/-- Four bytes as a word, the first the most significant (R83). -/
def fourBytes (a b c d : Byte) : Word := a ++ b ++ c ++ d

/-! ### The state registers as words (R51) -/

/-- The word a host reads at state index i, by the field table of R51. -/
def stWord (st : StRegs) (i : Nat) : Word :=
  match i with
  | 0x00 => (if st.ill then 1 else 0) ||| (if st.busReady then 2 else 0)
  | 0x01 => BitVec.ofNat 32 st.rot.toNat
  | 0x02 => st.geomW ++ st.geomH
  | 0x03 => st.win.x0 ++ st.win.y0
  | 0x04 => st.win.x1 ++ st.win.y1
  | 0x05 => st.amap.xs ++ st.amap.xe
  | 0x06 => st.amap.ys ++ st.amap.ye
  | 0x07 => st.amap.xc ++ st.amap.yc
  | 0x08 => (0 : Half) ++ st.amap.mw
  | 0x09 => (0 : BitVec 24) ++ st.ctrl
  | 0x0A => st.scrTop ++ st.scrLines
  | 0x0B => (0 : Half) ++ st.vsp
  | 0x0C => if st.inv then 1 else 0
  | _ => 0

/-! ### Legal frames (R112, R113, R116, R118) -/

/-- OP and reserved_mask of the 25 rows of opcode_table.json, in its order. -/
def opcodeRows : List (Byte × Word) :=
  [(0x00, 0x00FFFFFF), (0x01, 0x00FF0000), (0x02, 0x00FF0000), (0x03, 0x00FFFF00), (0x04, 0x00FFFFFF),
   (0x10, 0x00FF0000), (0x11, 0x00000000), (0x12, 0x00000000), (0x13, 0x00FF0000), (0x14, 0x00FF0000),
   (0x15, 0x00FE0000), (0x16, 0x00FE0000), (0x20, 0x00FCFFFF), (0x21, 0x00FFFFFF), (0x22, 0x00FEFFFF),
   (0x23, 0x00FFFFFF), (0x30, 0x00FEFFFF), (0x31, 0x00FF0000), (0x32, 0x00FFFFFF), (0x40, 0x0000FFFF),
   (0x41, 0x0000FFFF), (0x42, 0x0000FFFF), (0x43, 0x00FFFFFF), (0x44, 0x00FF0000), (0x45, 0x00FFFFFF)]

/-- `nargs` of the row with opcode `op` (R116). -/
def rowNargs (op a8 imm n : Nat) : Nat :=
  if op = 0x10 ∨ op = 0x31 ∨ op = 0x40 then 1
  else if op = 0x21 ∨ op = 0x23 ∨ op = 0x32 then 2
  else if op = 0x11 then (a8 + 3) / 4
  else if op = 0x15 then (imm + 3) / 4
  else if op = 0x16 then imm
  else if op = 0x30 then 1 + (n + 1) / 2
  else 0

/-- Byte 4k+j of a byte string: bits [31-8j : 24-8j] of word k (R112). -/
def stringByte (ws : List Word) (k : Nat) : Byte := (ws.getD (k / 4) 0).extractLsb' (24 - 8 * (k % 4)) 8

/-- Sample 2k of a pixel string in the high half of word k, sample 2k+1 in the low half (R112). -/
def stringHalf (ws : List Word) (k : Nat) : Half := (ws.getD (k / 2) 0).extractLsb' (16 - 16 * (k % 2)) 16

/-- A frame that none of the conditions of R118 makes illegal. -/
def frameLegal (f : Frame) : Prop :=
  let op := (f.header.extractLsb' 24 8).toNat
  let a8 := (f.header.extractLsb' 16 8).toNat
  let imm := (f.header.extractLsb' 0 16).toNat
  let arg (k : Nat) : Word := f.args.getD k 0
  (∃ row ∈ opcodeRows, row.1.toNat = op ∧ f.header &&& row.2 = 0)
    ∧ f.args.length = rowNargs op a8 imm (arg 0).toNat
    ∧ (op = 0x10 → (arg 0).extractLsb' 16 16 = 0)
    ∧ (op = 0x23 → (arg 1).extractLsb' 16 16 = 0)
    ∧ (op = 0x11 → ∀ k, a8 ≤ k → stringByte f.args k = 0)
    ∧ (op = 0x15 → ∀ k, imm ≤ k → stringByte f.args k = 0)
    ∧ (op = 0x30 → ∀ k, (arg 0).toNat ≤ k → stringHalf f.args.tail k = 0)
    ∧ (op = 0x40 ∨ op = 0x41 → a8 ≤ 0x1E)
    ∧ (op = 0x42 → a8 ≤ 0x0C)

/-- Some requests performed one after another, none if one stops. -/
def execAll : List Instr → State → Option State
  | [], s => some s
  | i :: rest, s =>
    match exec i s with
    | .next t => execAll rest t
    | .fault _ => none
    | .refused _ => none

end Sys2Proof.Claims

open Sys2Proof Sys2Proof.Machine Sys2Proof.Claims

/-! ## Encoding -/

/-- R112, R116: no operand bit is lost: decoding the frame of a well-formed request gives the request back. -/
def Obligations.DecodeInvertsEncode : Prop :=
  ∀ i : Instr, i.wellFormed = true → decode (encode i) = .ok i

/-- R116, R118: each legal frame has one meaning: what decodes is well-formed and encodes to that very frame. -/
def Obligations.EncodeInvertsDecode : Prop :=
  ∀ (f : Frame) (i : Instr), decode f = .ok i → i.wellFormed = true ∧ encode i = f

/-- R118: a frame decodes exactly when none of the five conditions holds of it. -/
def Obligations.FrameDecodesIffLegal : Prop :=
  ∀ f : Frame, (∃ i, decode f = .ok i) ↔ frameLegal f

/-- R112: where the items of byte strings and pixel strings lie in their words, how many words they take, and zero padding. -/
def Obligations.PackedStringsPlaceItems : Prop :=
  (∀ bs : List Byte, (packBytes bs).length = (bs.length + 3) / 4
    ∧ ∀ k, stringByte (packBytes bs) k = bs.getD k 0)
  ∧ (∀ cs : List Half, (packHalves cs).length = (cs.length + 1) / 2
    ∧ ∀ k, stringHalf (packHalves cs) k = cs.getD k 0)

/-- Words written out from the spec's encodings decode to the requests they stand for (R116; one of every family). -/
def Obligations.SpecWordsDecode : Prop :=
  decode ⟨0x0100002C, []⟩ = .ok (.wrcmd 0x002C)
  ∧ decode ⟨0x1104002A, [0x000000EF]⟩ = .ok (.wrregp 0x002A [0x00, 0x00, 0x00, 0xEF])
  ∧ decode ⟨0x120200D3, []⟩ = .ok (.rdreg 0x00D3 2)
  ∧ decode ⟨0x16000002, [0x00010100, 0xFFFF0032]⟩ = .ok (.inittbl16 false [(0x0001, 0x0100), (0xFFFF, 0x0032)])
  ∧ decode ⟨0x21000000, [0xFFFB000A, 0x012C000A]⟩ = .ok (.setwin (BitVec.ofInt 16 (-5)) 10 300 10)
  ∧ decode ⟨0x30010000, [0x00000001, 0xF8000000]⟩ = .ok (.pushpix true [0xF800])
  ∧ decode ⟨0x40020000, [0x00F00140]⟩ = .ok (.wrcfg 0x02 0x00F00140)

/-! ## Steps, illegal frames, reset -/

/-- R110, R88: a step on a submitted frame that decodes is the request's own effect, on the state with the frame taken off the inbox
and the response of the request before delivered (the inbox and the delivery are the model's, log entries 1 and 8). -/
def Obligations.StepRunsTheDecodedRequest : Prop :=
  ∀ (s : State) (f : Frame) (rest : List Input) (i : Instr),
    s.inbox = .frame f :: rest → decode f = .ok i → step s = exec i { s with inbox := rest, resp := [] }

/-- R371, R340: with nothing from the host the block waits and nothing changes (the model's reading, log entry 2), and every step of
every state goes on. -/
def Obligations.StepAlwaysGoesOn : Prop :=
  (∀ s : State, s.inbox = [] → step s = .next s) ∧ (∀ s : State, ∃ t, step s = .next t)

/-- R341: an illegal frame sets ILL and has no other effect, and its response is empty; ILL stays until CLRSTAT or reset. -/
def Obligations.IllegalFrameIsDroppedWhole : Prop :=
  (∀ (s : State) (f : Frame) (rest : List Input), s.inbox = .frame f :: rest → ¬ frameLegal f →
    step s = .next { s with inbox := rest, resp := [], st := { s.st with ill := true } })
  ∧ (∀ (s t : State) (f : Frame) (rest : List Input), s.inbox = .frame f :: rest → f ≠ ⟨0x43000000, []⟩ →
    step s = .next t → s.st.ill = true → t.st.ill = true)
  ∧ (∀ (s : State) (i : Instr) (t : State), exec i s = .next t → i.wellFormed = true →
    t.st.ill = (if i = .clrstat then false else s.st.ill))
  ∧ (∀ (s : State) (rest : List Input), s.inbox = .reset :: rest → ∃ t, step s = .next t ∧ t.st.ill = false)

/-- R36, R51, R371: the values after reset, as the host would read them. -/
def Obligations.ResetValuesAsListed : Prop :=
  State.reset.cfg.toList =
    [0x00000000, 0x00010000, 0x00000000, 0x0000002C, 0x0000002A, 0x0000002A, 0x0000002B, 0x0000002B, 0x0000002A,
     0x0000002B, 0x0000002E, 0xF0902040, 0x00000036, 0, 0, 0, 0, 0, 0, 0, 0x00210020, 0, 0, 0x00330037, 0,
     0x0111293A, 0x55000096, 0x0000FFFF, 0x00009632, 0x00960201, 0x00000000]
  ∧ (List.range 13).map (stRead State.reset.st State.reset.pins) =
    [0, 0, 0, 0, 0, 0x002A002A, 0x002B002B, 0x002A002B, 0x0000002C, 0, 0, 0, 0]
  ∧ State.reset.pins.driven = false
  ∧ State.reset.resp = []

/-- R370: the reset input between requests, and in the middle of one: the events already performed stay, the rest of the request is
not performed, its response is discarded, and every register and the pins are as after reset. That the cut falls between two events,
and that the trace and the inbox outlive the reset, is the model's choice (log entries 7 and 9). -/
def Obligations.ResetInputAbortsAndResets : Prop :=
  (∀ (s : State) (rest : List Input), s.inbox = .reset :: rest →
    ∃ t, step s = .next t ∧ t.cfg = State.reset.cfg ∧ t.st = State.reset.st ∧ t.pins.driven = false ∧ t.resp = []
      ∧ t.trace = s.trace ∧ t.inbox = rest)
  ∧ (∀ (s u : State) (f : Frame) (k : Nat) (rest : List Input), s.inbox = .resetDuring f k :: rest →
    step { s with inbox := .frame f :: rest } = .next u →
    ∃ t es, step s = .next t ∧ u.trace = s.trace ++ es ∧ t.trace = s.trace ++ es.take k
      ∧ t.cfg = State.reset.cfg ∧ t.st = State.reset.st ∧ t.pins.driven = false ∧ t.resp = [] ∧ t.inbox = rest)

/-! ## The bus -/

/-- R141: every bus request completes as a bus transaction: bring-up first if the bus is not ready, then its events in one chip
selection if they hold a cycle or a delay, else no event; the direction is OUT again. -/
def Obligations.BusRequestsAreTransactions : Prop :=
  ∀ (i : Instr) (s : State), isBusRequest i = true →
    ∃ t es, exec i s = .next t
      ∧ t.trace = s.trace ++ (if s.st.busReady then [] else bringUpEvents s.cfg)
          ++ (if es.any Event.needsSelect then [.cs false] ++ es ++ [.cs true] else [])
      ∧ (∀ e ∈ es, (∃ rs b, e = .w rs b) ∨ (∃ b, e = .r b) ∨ (∃ d, e = .dir d) ∨ ∃ n, e = .delay n)
      ∧ (es.any Event.needsSelect = false → es = [])
      ∧ t.st.busReady = true
      ∧ (s.pins.dir = .out → t.pins.dir = .out)

/-- R142, R143, R144, R145: what each event leaves on the pins. RS at CS(1) is the model's reading (log entry 6). -/
def Obligations.EventsMoveThePins : Prop :=
  ∀ p : Pins,
    (∀ rs b, p.after (.w rs b) = { p with rs := rs, dout := b, wrN := true })
    ∧ (∀ b, p.after (.r b) = { p with rs := true, rdN := true })
    ∧ (∀ d, p.after (.dir d) = { p with dir := d })
    ∧ p.after (.cs false) = { p with csN := false }
    ∧ p.after (.cs true) = { p with csN := true, rs := true }
    ∧ (∀ l, p.after (.rst l) = { p with rstN := l })
    ∧ (∀ n, p.after (.delay n) = p)
    ∧ p.after .idle = { driven := true, dir := .out, dout := p.dout, csN := true, rs := true, wrN := true, rdN := true, rstN := true }

/-- R86, R89: a request only appends to the trace, and the pins after it are what the appended events leave on the pins before it. -/
def Obligations.PinsReplayTheTrace : Prop :=
  ∀ (i : Instr) (s t : State), exec i s = .next t →
    ∃ es, t.trace = s.trace ++ es ∧ t.pins = es.foldl Pins.after s.pins

/-- R86, R89: over every request, the read cycles it appends to the trace took the coming samples, in order and one each, whatever they
are, and no sample is used up otherwise (the list of samples and the counter are the model's, log entry 3). -/
def Obligations.ReadCyclesTakeTheSamplesInOrder : Prop :=
  ∀ (i : Instr) (s t : State), exec i s = .next t →
    ∃ es n, t.trace = s.trace ++ es
      ∧ es.filterMap (fun e => match e with | .r b => some b | _ => none) = (List.range n).map (sampleAt s)
      ∧ t.samples = s.samples.drop n ∧ t.freeNo = s.freeNo + n

/-- R327, R372: BUSRESET drives the pins idle, pulses RST_n as cfg RST_CTRL says, sets BUSREADY, and changes nothing else. -/
def Obligations.BusresetBringsTheBusUp : Prop :=
  ∀ s : State, exec .busreset s = .next
    { s with
      trace := s.trace ++ bringUpEvents s.cfg
      pins := { driven := true, dir := .out, dout := s.pins.dout, csN := true, rs := true, wrN := true, rdN := true, rstN := true }
      st := { s.st with busReady := true } }

/-! ## Transport and register requests -/

/-- R150, R151, R152, R175: the write requests of one word or byte send their bytes, most significant first, and change nothing
else. -/
def Obligations.WriteRequestsSendTheirBytes : Prop :=
  ∀ (s : State) (cmd w : Half) (b : Byte),
    BusAnswers (.wrcmd w) s (command w) s.st [] 0
    ∧ BusAnswers (.wrdata w) s [.w true (w.extractLsb' 8 8), .w true (w.extractLsb' 0 8)] s.st [] 0
    ∧ BusAnswers (.wrdata8 b) s [.w true b] s.st [] 0
    ∧ BusAnswers (.wrreg cmd w) s (register cmd w) s.st [] 0

/-- R153: RDWORD switches to IN, samples two bytes, switches back, and responds with them, high byte first. -/
def Obligations.RdwordReadsOneWord : Prop :=
  ∀ s : State, BusAnswers .rdword s [.dir .inp, .r (sampleAt s 0), .r (sampleAt s 1), .dir .out] s.st
    [fourBytes 0 0 (sampleAt s 0) (sampleAt s 1)] 2

/-- R171, R176: WRREGP sends the command and the raw bytes, or each byte to its own incrementing command address. -/
def Obligations.WrregpSendsParameters : Prop :=
  ∀ (s : State) (cmd : Half) (bytes : List Byte), BusAnswers (.wrregp cmd bytes) s (paramWrites s.cfg cmd bytes) s.st [] 0

/-- R172, R177: RDREG performs index+1 word reads after the command and responds with the last. -/
def Obligations.RdregReturnsTheLastWord : Prop :=
  ∀ (s : State) (addr : Half) (index : Byte),
    BusAnswers (.rdreg addr index) s (readGroup s addr 0 (2 * (index.toNat + 1))) s.st
      [fourBytes 0 0 (sampleAt s (2 * index.toNat)) (sampleAt s (2 * index.toNat + 1))] (2 * (index.toNat + 1))

/-- R173, R174, R178, R179: the composite reads re-issue the command for every word, and compose big-endian; the 40-bit read keeps
the low 40 bits of three words. -/
def Obligations.CompositeReadsAreBigEndian : Prop :=
  ∀ (s : State) (addr : Half),
    BusAnswers (.rdreg32 addr) s (readGroup s addr 0 2 ++ readGroup s addr 2 4) s.st
      [fourBytes (sampleAt s 0) (sampleAt s 1) (sampleAt s 4) (sampleAt s 5)] 6
    ∧ BusAnswers (.rdreg40 addr) s (readGroup s addr 0 2 ++ readGroup s addr 2 4 ++ readGroup s addr 6 6) s.st
      [fourBytes 0 0 0 (sampleAt s 1),
       fourBytes (sampleAt s 4) (sampleAt s 5) (sampleAt s 10) (sampleAt s 11)] 12

/-! ## Initialization tables -/

/-- R181, R182: the byte table entry by entry: a delay where the sentinel stands, else the command with as many of the announced bytes
as remain; nothing for an empty rest or a lone byte. -/
def Obligations.ByteTableRunsEntryByEntry : Prop :=
  ∀ c : Cfg, runTable8 c [] = [] ∧ (∀ b, runTable8 c [b] = [])
    ∧ ∀ (cmd n : Byte) (rest : List Byte), runTable8 c (cmd :: n :: rest) =
      (let inCommand := (c.get 0x1E).getLsbD 0
       if inCommand = false ∧ n = 0x7F then wait cmd.toNat ++ runTable8 c rest
       else if inCommand = true ∧ cmd = 0x7F then wait n.toNat ++ runTable8 c rest
       else paramWrites c ((0 : Byte) ++ cmd) (rest.take n.toNat) ++ runTable8 c (rest.drop n.toNat))

/-- R180: INITTBL8 runs its table, in the wake bracket when BRACKET = 1 and the family is unified, and changes nothing else. -/
def Obligations.Inittbl8RunsItsTable : Prop :=
  ∀ (s : State) (bracket : Bool) (table : List Byte),
    BusAnswers (.inittbl8 bracket table) s (bracketed s.cfg bracket (runTable8 s.cfg table)) s.st [] 0

/-- R185, R186: INITTBL16 writes each pair, or waits where the register is the sentinel, in the wake bracket like INITTBL8. -/
def Obligations.Inittbl16RunsItsPairs : Prop :=
  ∀ (s : State) (bracket : Bool) (pairs : List (Half × Half)),
    BusAnswers (.inittbl16 bracket pairs) s
      (bracketed s.cfg bracket (pairs.flatMap fun p =>
        if p.1 = (s.cfg.get 0x1B).extractLsb' 0 16 then wait p.2.toNat else register p.1 p.2)) s.st [] 0

/-! ## Rotation, window, inversion, scroll -/

/-- R220 to R227: SETROT writes the control byte by family, rebuilds the map, sets rotation and geometry, resets window and scroll. -/
def Obligations.SetrotRederivesTheState : Prop :=
  ∀ (s : State) (r : BitVec 2),
    let c := s.cfg
    let w := widthOf c r
    let h := heightOf c r
    let m := mapAt c r
    let full := fullWindow w h
    BusAnswers (.setrot r) s
      (controlWrites c (controlOf c r)
        ++ (if w ≠ 0 ∧ h ≠ 0 then windowWrites c m r full else [])
        ++ (if nativeH0 c = 0 then [] else scrollWrites c 0 (nativeH0 c) 0))
      { s.st with
        ctrl := controlOf c r
        amap := m
        rot := r
        geomW := w
        geomH := h
        win := if w ≠ 0 ∧ h ≠ 0 then full else ⟨0, 0, 0, 0⟩
        scrTop := 0
        scrLines := nativeH0 c
        vsp := 0 } [] 0

/-- R225: the geometry after SETROT, and width(r) = height(r xor 1) for every r. -/
def Obligations.WidthIsTheOtherHeight : Prop :=
  ∀ (s t u : State) (r : BitVec 2), exec (.setrot r) s = .next t → exec (.setrot (r ^^^ 1)) s = .next u →
    t.st.geomW = widthOf s.cfg r ∧ t.st.geomH = heightOf s.cfg r ∧ t.st.geomW = u.st.geomH ∧ t.st.geomH = u.st.geomW

/-- R229: SETWIN is a no-op with no geometry, inverted or fully off-screen; else it stores the clipped window and writes it. -/
def Obligations.SetwinClipsOrDoesNothing : Prop :=
  ∀ (s : State) (x0 y0 x1 y1 : Half),
    let w : Int := s.st.geomW.toNat
    let h : Int := s.st.geomH.toNat
    let win : Window := ⟨BitVec.ofInt 16 (max x0.toInt 0), BitVec.ofInt 16 (max y0.toInt 0),
      BitVec.ofInt 16 (min x1.toInt (w - 1)), BitVec.ofInt 16 (min y1.toInt (h - 1))⟩
    if w = 0 ∨ h = 0 ∨ x0.toInt > x1.toInt ∨ y0.toInt > y1.toInt ∨ x1.toInt < 0 ∨ y1.toInt < 0 ∨ x0.toInt ≥ w ∨ y0.toInt ≥ h
    then BusAnswers (.setwin x0 y0 x1 y1) s [] s.st [] 0
    else BusAnswers (.setwin x0 y0 x1 y1) s (windowWrites s.cfg s.st.amap s.st.rot win) { s.st with win := win } [] 0

/-- R230 to R233: what SetWindow puts on the bus for a stored window, by family, with the offset and the nudge. -/
def Obligations.WindowGoesOutByFamily : Prop :=
  ∀ (c : Cfg) (st : StRegs) (win : Window), windowScript c st win = windowWrites c st.amap st.rot win

/-- R240: INVERT records the request and sends it xor POLARITY_INV, as a command or as the legacy register. -/
def Obligations.InvertSendsTheEffectiveState : Prop :=
  ∀ (s : State) (on : Bool),
    let eff := on ^^ cap s.cfg 7
    BusAnswers (.invert on) s
      (if cap s.cfg 10 then
        command (if eff then (s.cfg.get 0x14).extractLsb' 16 16 else (s.cfg.get 0x14).extractLsb' 0 16)
       else register ((s.cfg.get 0x15).extractLsb' 16 16)
        ((s.cfg.get 0x16).extractLsb' 0 16 ^^^ (if eff then (s.cfg.get 0x15).extractLsb' 0 16 else 0)))
      { s.st with inv := on } [] 0

/-- R245, R246: VSCROLL is a no-op for no lines or an area past the native height; else it stores and writes the start line
top + (offset mod lines). -/
def Obligations.VscrollSetsTheStartLine : Prop :=
  ∀ (s : State) (top lines offset : Half),
    let h0 := nativeH0 s.cfg
    let vsp : Half := BitVec.ofInt 16 (top.toNat + offset.toInt % lines.toNat)
    if lines = 0 ∨ top.toNat + lines.toNat > h0.toNat then BusAnswers (.vscroll top lines offset) s [] s.st [] 0
    else BusAnswers (.vscroll top lines offset) s (scrollWrites s.cfg top lines vsp)
      { s.st with scrTop := top, scrLines := lines, vsp := vsp } [] 0

/-- R229, R234 (the source's window round-trip): from the full screen, a window, a stream of pixels and the full screen again leave
every register as it was, BUSREADY set. -/
def Obligations.WindowRoundTripRestoresState : Prop :=
  ∀ (s : State) (x0 y0 x1 y1 : Half) (first : Bool) (colors : List Half),
    0 < s.st.geomW.toNat → s.st.geomW.toNat ≤ 2 ^ 15 → 0 < s.st.geomH.toNat → s.st.geomH.toNat ≤ 2 ^ 15 →
    s.st.win = fullWindow s.st.geomW s.st.geomH →
    ∃ t, execAll [.setwin x0 y0 x1 y1, .pushpix first colors, .setwin 0 0 (s.st.geomW - 1) (s.st.geomH - 1)] s = some t
      ∧ t.st = { s.st with busReady := true } ∧ t.cfg = s.cfg

/-! ## Pixels -/

/-- R270, R271, R272: where the codec puts each colour field, as numbers: 5 bits of red at 2^11, 6 of green at 2^5, 5 of blue; the 555
word drops the lowest bit of green and gets it back from the highest; the triplet has zero low bits and the order of the flag. -/
def Obligations.CodecPlacesTheFields : Prop :=
  ∀ c : Half,
    (enc555 c).toNat = c.toNat / 2 ^ 11 * 2 ^ 10 + c.toNat / 2 ^ 6 % 2 ^ 5 * 2 ^ 5 + c.toNat % 2 ^ 5
    ∧ (dec555 c).toNat = c.toNat / 2 ^ 10 % 2 ^ 5 * 2 ^ 11 + c.toNat / 2 ^ 5 % 2 ^ 5 * 2 ^ 6 + c.toNat / 2 ^ 9 % 2 * 2 ^ 5
      + c.toNat % 2 ^ 5
    ∧ (enc24 false c).map BitVec.toNat = [c.toNat / 2 ^ 11 * 8, c.toNat / 2 ^ 5 % 2 ^ 6 * 4, c.toNat % 2 ^ 5 * 8]
    ∧ enc24 true c = (enc24 false c).reverse

/-- R275, R276: what a sample decodes to, as a number, for every CAPS and every byte: the 16-bit sample under READ_ORDER_SWAP, WIRE555
and BGR_READ, the 3-byte sample under BGR_READ, with the low bits of its bytes dropped. -/
def Obligations.SamplesDecodeByTheirFields : Prop :=
  ∀ (caps : Word) (b0 b1 b2 : Byte),
    (decodeSample16 caps b0 b1).toNat = sample16Number caps b0.toNat b1.toNat
    ∧ (decodeSample24 caps b0 b1 b2).toNat = sample24Number caps b0.toNat b1.toNat b2.toNat

/-- R278: the 24-bit path is exact for every colour; the 555 path is exact exactly when c[5] = c[10], else it gives c with bit 5
replaced by c[10]; and encoding again what was decoded gives the same wire word. -/
def Obligations.ColourCodecRoundTrips : Prop :=
  (∀ (caps : Word) (c : Half), capWireBgr caps = capBgrRead caps →
    ∃ b0 b1 b2, enc24 (capWireBgr caps) c = [b0, b1, b2] ∧ decodeSample24 caps b0 b1 b2 = c)
  ∧ (∀ c : Half, (dec555 (enc555 c) = c ↔ c.getLsbD 5 = c.getLsbD 10)
    ∧ (c.getLsbD 5 ≠ c.getLsbD 10 → dec555 (enc555 c) = c ^^^ 0x0020)
    ∧ enc555 (dec555 (enc555 c)) = enc555 c)

/-- R280: PUSHPIX sends the memory-write command if first, then every pixel in its wire form, and changes no register. -/
def Obligations.PushpixStreamsEveryPixel : Prop :=
  ∀ (s : State) (first : Bool) (colors : List Half),
    BusAnswers (.pushpix first colors) s
      ((if first then command s.st.amap.mw else []) ++ colors.flatMap (pixelWrites s.cfg)) s.st [] 0

/-- R282: WRPIX is a no-op off-screen; else it sets the window to the point, sends the memory-write command and the pixel, and leaves
the window at the point. -/
def Obligations.WrpixWritesOnePoint : Prop :=
  ∀ (s : State) (x y color : Half),
    if x.toInt < 0 ∨ y.toInt < 0 ∨ x.toInt ≥ s.st.geomW.toNat ∨ y.toInt ≥ s.st.geomH.toNat
    then BusAnswers (.wrpix x y color) s [] s.st [] 0
    else BusAnswers (.wrpix x y color) s
      (windowWrites s.cfg s.st.amap s.st.rot ⟨x, y, x, y⟩ ++ command s.st.amap.mw ++ pixelWrites s.cfg color)
      { s.st with win := ⟨x, y, x, y⟩ } [] 0

/-- R284: RDPIX with no pixel answers nothing, and a rectangle not wholly on screen answers zero samples; no bus cycle, no register
changed. -/
def Obligations.RdpixOutsideReadsNothing : Prop :=
  ∀ (s : State) (x y w h : Half),
    (w = 0 ∨ h = 0 → BusAnswers (.rdpix x y w h) s [] s.st [] 0)
    ∧ (w ≠ 0 → h ≠ 0 →
        x.toInt < 0 ∨ y.toInt < 0 ∨ x.toInt + w.toNat > s.st.geomW.toNat ∨ y.toInt + h.toNat > s.st.geomH.toNat →
        BusAnswers (.rdpix x y w h) s [] s.st (List.replicate ((w.toNat * h.toNat + 1) / 2) 0) 0)

/-- R284, R277: with auto-increment, RDPIX programs the window once, discards the dummy bytes, reads w*h samples in a row, and
resets the window to the full screen. -/
def Obligations.RdpixAutoincrementReadsInARow : Prop :=
  ∀ (s : State) (x y w h : Half), cap s.cfg 0 = true → w ≠ 0 → h ≠ 0 → 0 ≤ x.toInt → 0 ≤ y.toInt →
    x.toInt + w.toNat ≤ s.st.geomW.toNat → y.toInt + h.toNat ≤ s.st.geomH.toNat →
    let n := w.toNat * h.toNat
    let nd := dummies s.cfg
    let full := fullWindow s.st.geomW s.st.geomH
    BusAnswers (.rdpix x y w h) s
      (windowWrites s.cfg s.st.amap s.st.rot ⟨x, y, x + w - 1, y + h - 1⟩
        ++ readGroup s ((s.cfg.get 0x0A).extractLsb' 0 16) 0 (nd + sampleBytes s.cfg * n)
        ++ windowWrites s.cfg s.st.amap s.st.rot full)
      { s.st with win := full }
      (packHalves ((List.range n).map fun k => sampleColor s (nd + sampleBytes s.cfg * k)))
      (nd + sampleBytes s.cfg * n)

/-- R285, R277: without auto-increment, RDPIX programs the cursor, sends the GRAM-read command and discards the dummy bytes before
every sample, rows outside and columns inside, and resets the window to the full screen. -/
def Obligations.RdpixPerSampleReprogramsTheCursor : Prop :=
  ∀ (s : State) (x y w h : Half), cap s.cfg 0 = false → w ≠ 0 → h ≠ 0 → 0 ≤ x.toInt → 0 ≤ y.toInt →
    x.toInt + w.toNat ≤ s.st.geomW.toNat → y.toInt + h.toNat ≤ s.st.geomH.toNat →
    let n := w.toNat * h.toNat
    let nd := dummies s.cfg
    let each := nd + sampleBytes s.cfg
    let full := fullWindow s.st.geomW s.st.geomH
    BusAnswers (.rdpix x y w h) s
      (((List.range n).flatMap fun k =>
          let px := x + BitVec.ofNat 16 (k % w.toNat)
          let py := y + BitVec.ofNat 16 (k / w.toNat)
          windowWrites s.cfg s.st.amap s.st.rot ⟨px, py, px, py⟩
            ++ readGroup s ((s.cfg.get 0x0A).extractLsb' 0 16) (each * k) each)
        ++ windowWrites s.cfg s.st.amap s.st.rot full)
      { s.st with win := full }
      (packHalves ((List.range n).map fun k => sampleColor s (each * k + nd)))
      (each * n)

/-- R285: "same result, different throughput": for a chip whose GRAM is g, which answers each GRAM-read command with the dummy bytes
and then the bytes of the pixels from the cursor on, RDPIX responds the same with auto-increment and without. -/
def Obligations.BothReadPathsAnswerAlike : Prop :=
  ∀ (s s' : State) (x y w h : Half) (g : Nat → List Byte) (dummy : List Byte) (rest rest' : List Byte),
    (∀ k, (g k).length = sampleBytes s.cfg) → dummy.length = dummies s.cfg →
    cap s.cfg 0 = true → cap s'.cfg 0 = false → (s.cfg.get 0x01) ^^^ 1 = s'.cfg.get 0x01 →
    s'.st.geomW = s.st.geomW → s'.st.geomH = s.st.geomH → s.resp = [] → s'.resp = [] →
    s.samples = dummy ++ (List.range (w.toNat * h.toNat)).flatMap g ++ rest →
    s'.samples = ((List.range (w.toNat * h.toNat)).flatMap fun k => dummy ++ g k) ++ rest' →
    ∃ t t', exec (.rdpix x y w h) s = .next t ∧ exec (.rdpix x y w h) s' = .next t' ∧ t.resp = t'.resp

/-- R272, R273, R275, R276, R284: what PUSHPIX sends, a chip that stores and returns those bytes gives back to RDPIX: exact on the
24-bit path and on the 565 path, up to the green fill rule on the 555 path. -/
def Obligations.PushedPixelsReadBack : Prop :=
  ∀ (s : State) (x y w h : Half) (colors : List Half) (dummy rest : List Byte),
    cap s.cfg 0 = true → w ≠ 0 → h ≠ 0 → 0 ≤ x.toInt → 0 ≤ y.toInt →
    x.toInt + w.toNat ≤ s.st.geomW.toNat → y.toInt + h.toNat ≤ s.st.geomH.toNat →
    colors.length = w.toNat * h.toNat → dummy.length = dummies s.cfg →
    s.samples = dummy ++ (colors.flatMap (pixelWrites s.cfg)).filterMap
      (fun e => match e with | .w true b => some b | _ => none) ++ rest →
    ∃ t, exec (.rdpix x y w h) s = .next t
      ∧ (cap s.cfg 11 = true → cap s.cfg 1 = true → cap s.cfg 15 = cap s.cfg 3 →
          t.resp = s.resp ++ packHalves colors ∧ t.samples = rest)
      ∧ (cap s.cfg 11 = false → cap s.cfg 12 = false → cap s.cfg 1 = false → cap s.cfg 2 = false → cap s.cfg 3 = false →
          t.resp = s.resp ++ packHalves colors ∧ t.samples = rest)
      ∧ (cap s.cfg 11 = false → cap s.cfg 12 = true → cap s.cfg 1 = false → cap s.cfg 2 = false → cap s.cfg 3 = false →
          t.resp = s.resp ++ packHalves (colors.map fun c => dec555 (enc555 c)) ∧ t.samples = rest)

/-! ## Control requests -/

/-- R320, R324, R325: NOP changes nothing, CLRSTAT clears ILL only, DELAY emits its wait only; none brings the bus up. -/
def Obligations.PlainControlRequests : Prop :=
  ∀ (s : State) (ms : Half),
    exec .nop s = .next s
    ∧ exec .clrstat s = .next { s with st := { s.st with ill := false } }
    ∧ exec (.delay ms) s = .next { s with trace := s.trace ++ wait ms.toNat }

/-- R321, R35, R37: WRCFG stores the defined bits of the value, a CAPS.DUMMY of 3 as 2, in its register only; a reserved index is
illegal. -/
def Obligations.WrcfgStoresDefinedBits : Prop :=
  ∀ (s : State) (index : Byte) (v : Word),
    (∀ i : Fin 31, index.toNat = i →
      ∃ t, exec (.wrcfg index v) s = .next t
        ∧ (i ≠ 0x01 → t.cfg.get i = v &&& definedMask i)
        ∧ (i = 0x01 → t.cfg.get i =
            if (v.extractLsb' 16 2).toNat = 3 then (v &&& 0x0007FFFF) ^^^ 0x00010000 else v &&& 0x0007FFFF)
        ∧ (∀ j, j ≠ i → t.cfg.get j = s.cfg.get j)
        ∧ { t with cfg := s.cfg } = s)
    ∧ (index.toNat > 0x1E → exec (.wrcfg index v) s = .next { s with st := { s.st with ill := true } })

/-- R36, R321: the masks of defined bits are the union of the ranges listed for each register. -/
def Obligations.DefinedMasksAsListed : Prop :=
  (List.finRange 31).map definedMask =
    [0x0000FFFF, 0x0007FFFF, 0xFFFFFFFF, 0x0000FFFF, 0x0000FFFF, 0x0000FFFF, 0x0000FFFF, 0x0000FFFF, 0x0000FFFF,
     0x0000FFFF, 0x0000FFFF, 0xFFFFFFFF, 0x0000FFFF, 0xFFFFFFFF, 0xFFFFFFFF, 0xFFFFFFFF, 0x0000FFFF, 0xFFFFFFFF,
     0x0000FFFF, 0x001FFFFF, 0xFFFFFFFF, 0xFFFFFFFF, 0x0000FFFF, 0xFFFFFFFF, 0x0000FFFF, 0xFFFFFFFF, 0xFF00FFFF,
     0x0000FFFF, 0x00FFFFFF, 0xFFFFFF01, 0x00000001]

/-- R322: RDCFG responds with the register and changes nothing; a reserved index is illegal. -/
def Obligations.RdcfgRespondsWithTheRegister : Prop :=
  ∀ (s : State) (index : Byte),
    (∀ i : Fin 31, index.toNat = i → exec (.rdcfg index) s = .next { s with resp := s.resp ++ [s.cfg.get i] })
    ∧ (index.toNat > 0x1E → exec (.rdcfg index) s = .next { s with st := { s.st with ill := true } })

/-- R323, R51: RDSTATE responds with the fields of the state register in their bit positions (STATUS.DIR is 0 between requests) and
changes nothing; a reserved index is illegal. -/
def Obligations.RdstateRespondsWithTheFields : Prop :=
  ∀ (s : State) (index : Byte),
    (index.toNat ≤ 0x0C → s.pins.dir = .out →
      exec (.rdstate index) s = .next { s with resp := s.resp ++ [stWord s.st index.toNat] })
    ∧ (index.toNat > 0x0C → exec (.rdstate index) s = .next { s with st := { s.st with ill := true } })

/-! ## Rules over all requests -/

/-- R35, R50, R234, R382, R54: each register changes only by the requests that own it: cfg by WRCFG, rotation, geometry, map and control
byte by SETROT, the window by SETROT, SETWIN, WRPIX and RDPIX, the scroll by SETROT and VSCROLL, the inversion by INVERT; BUSREADY is
never cleared, and a request of the control class but BUSRESET never sets it. R234 states the window's clause; the others are read from
R35, R50, R54, R382 and the 'State written' lines of the request rules. That no request touches the inbox is the model's (log entry 1:
the inbox is what the host will do next). -/
def Obligations.RegistersChangeOnlyByTheirOwners : Prop :=
  ∀ (i : Instr) (s t : State), exec i s = .next t →
    ((∀ index v, i ≠ .wrcfg index v) → t.cfg = s.cfg)
    ∧ ((∀ r, i ≠ .setrot r) → t.st.rot = s.st.rot ∧ t.st.geomW = s.st.geomW ∧ t.st.geomH = s.st.geomH
        ∧ t.st.amap = s.st.amap ∧ t.st.ctrl = s.st.ctrl)
    ∧ ((∀ r, i ≠ .setrot r) → (∀ x0 y0 x1 y1, i ≠ .setwin x0 y0 x1 y1) → (∀ x y c, i ≠ .wrpix x y c) →
        (∀ x y w h, i ≠ .rdpix x y w h) → t.st.win = s.st.win)
    ∧ ((∀ r, i ≠ .setrot r) → (∀ a b c, i ≠ .vscroll a b c) →
        t.st.scrTop = s.st.scrTop ∧ t.st.scrLines = s.st.scrLines ∧ t.st.vsp = s.st.vsp)
    ∧ ((∀ on, i ≠ .invert on) → t.st.inv = s.st.inv)
    ∧ (t.st.busReady = (s.st.busReady || isBusRequest i || i == .busreset))
    ∧ t.inbox = s.inbox

/-- R114: the response of a request has the length fixed for it. -/
def Obligations.ResponseLengthIsFixed : Prop :=
  ∀ (i : Instr) (s t : State), i.wellFormed = true → exec i s = .next t →
    t.resp.length = s.resp.length +
      (match i with
       | .rdword | .rdreg _ _ | .rdreg32 _ | .rdcfg _ | .rdstate _ => 1
       | .rdreg40 _ => 2
       | .rdpix _ _ w h => (w.toNat * h.toNat + 1) / 2
       | _ => 0)

/-- R32: no rule reads the pins but RDSTATE's STATUS.DIR: whatever they hold, a request has the same events, registers, response and
samples used. -/
def Obligations.NoRequestReadsThePins : Prop :=
  ∀ (i : Instr) (s t : State) (p : Pins), (∀ index, i ≠ .rdstate index) → exec i s = .next t →
    ∃ t', exec i { s with pins := p } = .next t' ∧ { t' with pins := t.pins } = t

/-- R36, R37: no request but RDCFG and WRCFG reads the identity (cfg ID) or CAPS.EXT_COORD. The clause on the strobe times (cfg TIMING) is
the model's (log entry 10, DEDUCED from R147): R142 and R143 make a cycle hold for cfg TIMING's times, and the model leaves elapsed time
out, so what it has of a cycle, its event and the levels after it, does not depend on them. -/
def Obligations.UnreadRegistersHaveNoEffect : Prop :=
  ∀ (i : Instr) (s t : State) (c : Cfg),
    (∀ j : Fin 31, j ≠ 0x00 → j ≠ 0x01 → j ≠ 0x1C → c.get j = s.cfg.get j) →
    c.get 0x01 ||| 0x40 = s.cfg.get 0x01 ||| 0x40 →
    (∀ index, i ≠ .rdcfg index) → (∀ index v, i ≠ .wrcfg index v) → exec i s = .next t →
    exec i { s with cfg := c } = .next { t with cfg := c }

/-! ## Invariants of every step -/

/-- Reset is a safe state. -/
def Obligations.ResetIsSafe : Prop := Safe State.reset ∧ geometryFresh State.reset = true

/-- R31, R142, R143, R144, R145: between requests the driven pins are at their idle levels with dir = OUT, and the whole trace is a
legal bus: no write cycle while dir = IN, no cycle outside a chip selection, nothing on undriven pins but a wait or bring-up. The events
of each step are also watched by one who knows of every reset input, which undrives the pins (R32, R370): from undriven pins they run
from `BusView.start`. RS at CS(1) is the model's reading (log entry 6), and so is where a reset cuts a request (log entry 9). -/
def Obligations.BusStaysLegal : Prop :=
  ∀ s t : State, pinsAtRest s = true → busLegal s = true → step s = .next t →
    pinsAtRest t = true ∧ busLegal t = true
      ∧ ∃ es v, t.trace = s.trace ++ es ∧ (BusView.ofPins s.pins).run es = some v
        ∧ (t.pins.driven = true → v = BusView.ofPins t.pins)

/-- R35, R37: undefined bits of every configuration register stay zero, and CAPS.DUMMY stays legal. -/
def Obligations.CfgStaysLegal : Prop :=
  ∀ s t : State, cfgLegal s.cfg → step s = .next t → cfgLegal t.cfg

/-- R52: the window stays inside the geometry with start before end, and is (0,0,0,0) with no geometry. -/
def Obligations.WindowStaysInsideGeometry : Prop :=
  ∀ s t : State, windowLegal s.st = true → step s = .next t → windowLegal t.st = true

/-- R246, R227: the scroll start line stays in the scroll area. -/
def Obligations.ScrollStaysInItsArea : Prop :=
  ∀ s t : State, scrollLegal s.st = true → step s = .next t → scrollLegal t.st = true

/-- R52, R225: the geometry stays the rotation's, through every request but a WRCFG of NATIVE_WH. -/
def Obligations.GeometryFollowsRotation : Prop :=
  ∀ (i : Instr) (s t : State), geometryFresh s = true → (∀ v, i ≠ .wrcfg 0x02 v) → exec i s = .next t → geometryFresh t = true

/-! ## Counts, pseudo-requests, assembler text -/

/-- R390: the byte writes of a window write: unified without PARAM_ADDR_INC 12, or 20 with the cursor writes; legacy 8 for a single
point, else 24, or 16 with both registers combined. A SETWIN that is not a no-op appends those byte writes and no other. -/
def Obligations.WindowByteCounts : Prop :=
  (∀ (c : Cfg) (st : StRegs) (v : Window),
    let n := writeCycles (windowScript c st v)
    (cap c 10 = true → cap c 13 = false → n = if cap c 14 then 20 else 12)
    ∧ (cap c 10 = false → v.x0 = v.x1 → v.y0 = v.y1 → n = 8)
    ∧ (cap c 10 = false → ¬ (v.x0 = v.x1 ∧ v.y0 = v.y1) →
        n = 8 + (if st.amap.xs = st.amap.xe then 4 else 8) + (if st.amap.ys = st.amap.ye then 4 else 8)))
  ∧ (∀ (s : State) (x0 y0 x1 y1 : Half), 0 < s.st.geomW.toNat → 0 < s.st.geomH.toNat → x0.toInt ≤ x1.toInt → y0.toInt ≤ y1.toInt →
      0 ≤ x1.toInt → 0 ≤ y1.toInt → x0.toInt < s.st.geomW.toNat → y0.toInt < s.st.geomH.toNat →
      ∃ t es, exec (.setwin x0 y0 x1 y1) s = .next t ∧ t.trace = s.trace ++ es
        ∧ writeCycles es = writeCycles (windowScript s.cfg s.st t.st.win))

/-- R120: FULLWIN and FILL leave the window at the full screen of a geometry whose coordinates a request can carry; of the state
registers only the window and BUSREADY change, and no configuration register does. The FILL clause where the window is clipped is the
model's reading (log entry 18, DEDUCED): FILL is expanded literally, w*h pixels and ends modulo 2^16, where R120 asks the host for the
clipped window's count. -/
def Obligations.FillEndsAtFullScreen : Prop :=
  ∀ (s : State) (x y w h color : Half),
    0 < s.st.geomW.toNat → s.st.geomW.toNat ≤ 2 ^ 15 → 0 < s.st.geomH.toNat → s.st.geomH.toNat ≤ 2 ^ 15 →
    (∃ t, execAll (expandFullwin s.st.geomW s.st.geomH) s = some t
      ∧ t.st = { s.st with win := fullWindow s.st.geomW s.st.geomH, busReady := true } ∧ t.cfg = s.cfg)
    ∧ (∃ t, execAll (expandFill x y w h color s.st.geomW s.st.geomH) s = some t
      ∧ t.st = { s.st with win := fullWindow s.st.geomW s.st.geomH, busReady := true } ∧ t.cfg = s.cfg)

/-- R119: assembler lines of the spec's examples assemble to the frames the spec gives. -/
def Obligations.SpecTextAssembles : Prop :=
  (assembleLine "WRREGP 0x2A, [0x00, 0x00, 0x00, 0xEF]").map encode = some ⟨0x1104002A, [0x000000EF]⟩
  ∧ (assembleLine "INITTBL16 -, [0x0001:0x0100, 0xFFFF:0x0032]").map encode = some ⟨0x16000002, [0x00010100, 0xFFFF0032]⟩
  ∧ (assembleLine "SETWIN -5, 10, 300, 10").map encode = some ⟨0x21000000, [0xFFFB000A, 0x012C000A]⟩
  ∧ (assembleLine "PUSHPIX F, [0xF800]").map encode = some ⟨0x30010000, [0x00000001, 0xF8000000]⟩
end

