-- ==== Sys2Proof/Laws/Decode.lean ====
section
/-! SUPPORT. The fields of a header, the bytes and halves of a word, and the packed argument forms with their inverses (R111, R112,
R117). -/

namespace Sys2Proof

/-! ### Fields of appended bit vectors -/

theorem extract_low {m n : Nat} (a : BitVec m) (b : BitVec n) : (a ++ b).extractLsb' 0 n = b := by
  apply BitVec.eq_of_getLsbD_eq
  intro k hk
  simp [BitVec.getLsbD_append, hk]

theorem extract_high {m n : Nat} (a : BitVec m) (b : BitVec n) (k len : Nat) :
    (a ++ b).extractLsb' (n + k) len = a.extractLsb' k len := by
  apply BitVec.eq_of_getLsbD_eq
  intro j hj
  simp [BitVec.getLsbD_append, Nat.add_assoc, hj]

theorem extract_all {m : Nat} (a : BitVec m) : a.extractLsb' 0 m = a := by
  apply BitVec.eq_of_getLsbD_eq
  intro j hj
  simp [hj]

theorem extract_extract {w : Nat} (v : BitVec w) (k len n : Nat) (h : k + len ≤ n) :
    (v.extractLsb' 0 n).extractLsb' k len = v.extractLsb' k len := by
  apply BitVec.eq_of_getLsbD_eq
  intro j hj
  simp [hj, show k + j < n by omega]

theorem extract_split {w : Nat} (v : BitVec w) (s m n : Nat) :
    v.extractLsb' (s + n) m ++ v.extractLsb' s n = v.extractLsb' s (m + n) := by
  apply BitVec.eq_of_getLsbD_eq
  intro j hj
  simp only [BitVec.getLsbD_append, BitVec.getLsbD_extractLsb']
  by_cases h : j < n
  · simp [h, hj]
  · simp [h, hj, show j - n < m by omega, show s + n + (j - n) = s + j by omega]

/-! ### Header fields (R111) -/

@[simp] theorem opField_mkHeader (op : Op) (a8 : Byte) (imm : Half) : opField (mkHeader op a8 imm) = op.code :=
  (extract_high (op.code ++ a8) imm 8 8).trans ((extract_high op.code a8 0 8).trans (extract_all _))

@[simp] theorem a8Field_mkHeader (op : Op) (a8 : Byte) (imm : Half) : a8Field (mkHeader op a8 imm) = a8 :=
  (extract_high (op.code ++ a8) imm 0 8).trans (extract_low op.code a8)

@[simp] theorem immField_mkHeader (op : Op) (a8 : Byte) (imm : Half) : immField (mkHeader op a8 imm) = imm :=
  extract_low (op.code ++ a8) imm

/-- A header is its three fields (R111). -/
theorem header_eq_fields (h : Word) : opField h ++ a8Field h ++ immField h = h := by
  have h1 : opField h ++ a8Field h = h.extractLsb' 16 16 := extract_split h 16 8 8
  rw [h1]
  exact (extract_split h 0 16 16).trans (extract_all h)


/-! ### Halves and bytes of words (R112) -/

@[simp] theorem hiHalf_append (a b : Half) : hiHalf (a ++ b) = a := (extract_high a b 0 16).trans (extract_all a)
@[simp] theorem loHalf_append (a b : Half) : loHalf (a ++ b) = b := extract_low a b
@[simp] theorem hiHalf_append_loHalf (w : Word) : hiHalf w ++ loHalf w = w := (extract_split w 0 16 16).trans (extract_all w)
@[simp] theorem wordHalves_append (a b : Half) : wordHalves (a ++ b) = [a, b] := by simp [wordHalves]
@[simp] theorem hiByte_append (a b : Byte) : hiByte (a ++ b) = a := (extract_high a b 0 8).trans (extract_all a)
@[simp] theorem loByte_append (a b : Byte) : loByte (a ++ b) = b := extract_low a b
@[simp] theorem hiByte_append_loByte (w : Half) : hiByte w ++ loByte w = w := (extract_split w 0 8 8).trans (extract_all w)

@[simp] theorem wordBytes_append (a b c d : Byte) : wordBytes (a ++ b ++ c ++ d) = [a, b, c, d] := by
  have h3 : (a ++ b ++ c ++ d : Word).extractLsb' 24 8 = a :=
    (extract_high (a ++ b ++ c) d 16 8).trans ((extract_high (a ++ b) c 8 8).trans ((extract_high a b 0 8).trans (extract_all a)))
  have h2 : (a ++ b ++ c ++ d : Word).extractLsb' 16 8 = b :=
    (extract_high (a ++ b ++ c) d 8 8).trans ((extract_high (a ++ b) c 0 8).trans (extract_low a b))
  have h1 : (a ++ b ++ c ++ d : Word).extractLsb' 8 8 = c := (extract_high (a ++ b ++ c) d 0 8).trans (extract_low (a ++ b) c)
  have h0 : (a ++ b ++ c ++ d : Word).extractLsb' 0 8 = d := extract_low (a ++ b ++ c) d
  simp only [wordBytes, h3, h2, h1, h0]

/-- A word is its four bytes (R112). -/
theorem word_eq_bytes (w : Word) :
    w.extractLsb' 24 8 ++ w.extractLsb' 16 8 ++ w.extractLsb' 8 8 ++ w.extractLsb' 0 8 = w := by
  have h1 : w.extractLsb' 24 8 ++ w.extractLsb' 16 8 = w.extractLsb' 16 16 := extract_split w 16 8 8
  have h2 : w.extractLsb' 16 16 ++ w.extractLsb' 8 8 = w.extractLsb' 8 24 := extract_split w 8 16 8
  rw [h1, h2]
  exact (extract_split w 0 24 8).trans (extract_all w)

/-! ### The opcode map (R116, R117) -/

/-- Each opcode's number selects it and no other (R117). -/
theorem ofCode_eq_some {b : Byte} {op : Op} : Op.ofCode b = some op ↔ op.code = b := by
  constructor
  · intro h
    have := List.find?_some h
    simpa using this
  · rintro rfl
    cases op <;> decide

@[simp] theorem ofCode_code (op : Op) : Op.ofCode op.code = some op := ofCode_eq_some.2 rfl

/-! ### Packed strings (R112) -/

theorem wordBytes_append_zeros (a : Byte) : wordBytes (a ++ (0 : BitVec 24)) = [a, 0, 0, 0] := by
  have h3 : (a ++ (0 : BitVec 24) : Word).extractLsb' 24 8 = a := (extract_high a 0 0 8).trans (extract_all a)
  have h0 : (a ++ (0 : BitVec 24) : Word).extractLsb' 0 24 = 0 := extract_low a 0
  have h (k : Nat) (hk : k + 8 ≤ 24) : (a ++ (0 : BitVec 24) : Word).extractLsb' k 8 = 0 := by
    have e : (a ++ (0 : BitVec 24) : Word).extractLsb' k 8
        = ((a ++ (0 : BitVec 24) : Word).extractLsb' 0 24).extractLsb' k 8 := (extract_extract _ k 8 24 hk).symm
    rw [e, h0]; simp
  simp only [wordBytes, h3, h 16 (by omega), h 8 (by omega), h 0 (by omega)]

theorem wordBytes_append_append_zeros (a b : Byte) : wordBytes (a ++ b ++ (0 : BitVec 16)) = [a, b, 0, 0] := by
  have h3 : (a ++ b ++ (0 : BitVec 16) : Word).extractLsb' 24 8 = a :=
    (extract_high (a ++ b) 0 8 8).trans ((extract_high a b 0 8).trans (extract_all a))
  have h2 : (a ++ b ++ (0 : BitVec 16) : Word).extractLsb' 16 8 = b := (extract_high (a ++ b) 0 0 8).trans (extract_low a b)
  have h0 : (a ++ b ++ (0 : BitVec 16) : Word).extractLsb' 0 16 = 0 := extract_low (a ++ b) 0
  have h (k : Nat) (hk : k + 8 ≤ 16) : (a ++ b ++ (0 : BitVec 16) : Word).extractLsb' k 8 = 0 := by
    have e : (a ++ b ++ (0 : BitVec 16) : Word).extractLsb' k 8
        = ((a ++ b ++ (0 : BitVec 16) : Word).extractLsb' 0 16).extractLsb' k 8 := (extract_extract _ k 8 16 hk).symm
    rw [e, h0]; simp
  simp only [wordBytes, h3, h2, h 8 (by omega), h 0 (by omega)]

/-- A word whose low bytes are zero is its high byte and zeros. -/
theorem word_eq_byte1 {w : Word} (h2 : w.extractLsb' 16 8 = 0) (h1 : w.extractLsb' 8 8 = 0) (h0 : w.extractLsb' 0 8 = 0) :
    w.extractLsb' 24 8 ++ (0 : BitVec 24) = w := by
  have e : w.extractLsb' 16 8 ++ w.extractLsb' 8 8 ++ w.extractLsb' 0 8 = w.extractLsb' 0 24 := by
    have e1 : w.extractLsb' 16 8 ++ w.extractLsb' 8 8 = w.extractLsb' 8 16 := extract_split w 8 8 8
    rw [e1]; exact extract_split w 0 16 8
  rw [h2, h1, h0] at e
  have e2 : (0 : BitVec 24) = w.extractLsb' 0 24 := by rw [← e]; rfl
  rw [e2]; exact (extract_split w 0 8 24).trans (extract_all w)

theorem word_eq_byte2 {w : Word} (h1 : w.extractLsb' 8 8 = 0) (h0 : w.extractLsb' 0 8 = 0) :
    w.extractLsb' 24 8 ++ w.extractLsb' 16 8 ++ (0 : BitVec 16) = w := by
  have e : w.extractLsb' 8 8 ++ w.extractLsb' 0 8 = w.extractLsb' 0 16 := extract_split w 0 8 8
  rw [h1, h0] at e
  have e2 : (0 : BitVec 16) = w.extractLsb' 0 16 := by rw [← e]; rfl
  have e1 : w.extractLsb' 24 8 ++ w.extractLsb' 16 8 = w.extractLsb' 16 16 := extract_split w 16 8 8
  rw [e1, e2]; exact (extract_split w 0 16 16).trans (extract_all w)

theorem word_eq_byte3 {w : Word} (h0 : w.extractLsb' 0 8 = 0) :
    w.extractLsb' 24 8 ++ w.extractLsb' 16 8 ++ w.extractLsb' 8 8 ++ (0 : BitVec 8) = w := by
  have e := word_eq_bytes w
  rw [h0] at e
  exact e

theorem word_eq_half1 {w : Word} (h0 : loHalf w = 0) : hiHalf w ++ (0 : Half) = w := by
  have e := hiHalf_append_loHalf w
  rw [h0] at e
  exact e

theorem packBytes_length (bs : List Byte) : (packBytes bs).length = wordsFor bs.length 4 := by
  induction bs using packBytes.induct with
  | case1 => simp [packBytes, wordsFor]
  | case2 => simp [packBytes, wordsFor]
  | case3 => simp [packBytes, wordsFor]
  | case4 => simp [packBytes, wordsFor]
  | case5 a b c d rest ih => simp only [packBytes, List.length_cons, ih, wordsFor]; omega

theorem packHalves_length (cs : List Half) : (packHalves cs).length = wordsFor cs.length 2 := by
  induction cs using packHalves.induct with
  | case1 => simp [packHalves, wordsFor]
  | case2 => simp [packHalves, wordsFor]
  | case3 a b rest ih => simp only [packHalves, List.length_cons, ih, wordsFor]; omega

/-- Unpacking a packed byte string gives it back with its zero padding. -/
theorem unpack_packBytes (bs : List Byte) :
    (packBytes bs).flatMap wordBytes = bs ++ List.replicate (4 * wordsFor bs.length 4 - bs.length) 0 := by
  induction bs using packBytes.induct with
  | case1 => simp [packBytes, wordsFor]
  | case2 a =>
    have h : wordBytes (a ++ (0 : BitVec 24)) = [a, 0, 0, 0] := wordBytes_append_zeros a
    simp only [packBytes, List.flatMap_cons, List.flatMap_nil, h]; simp [wordsFor, List.replicate]
  | case3 a b =>
    have h : wordBytes (a ++ b ++ (0 : BitVec 16)) = [a, b, 0, 0] := wordBytes_append_append_zeros a b
    simp only [packBytes, List.flatMap_cons, List.flatMap_nil, h]; simp [wordsFor, List.replicate]
  | case4 a b c =>
    have h : wordBytes (a ++ b ++ c ++ (0 : BitVec 8)) = [a, b, c, 0] := wordBytes_append a b c 0
    simp only [packBytes, List.flatMap_cons, List.flatMap_nil, h]; simp [wordsFor]
  | case5 a b c d rest ih =>
    simp only [packBytes, List.flatMap_cons, wordBytes_append, ih, wordsFor, List.length_cons, List.cons_append, List.nil_append]
    congr 6
    omega

/-- Unpacking a packed pixel string gives it back with its zero padding. -/
theorem unpack_packHalves (cs : List Half) :
    (packHalves cs).flatMap wordHalves = cs ++ List.replicate (2 * wordsFor cs.length 2 - cs.length) 0 := by
  induction cs using packHalves.induct with
  | case1 => simp [packHalves, wordsFor]
  | case2 a =>
    have h : wordHalves (a ++ (0 : Half)) = [a, 0] := wordHalves_append a 0
    simp only [packHalves, List.flatMap_cons, List.flatMap_nil, h]; simp [wordsFor]
  | case3 a b rest ih =>
    simp only [packHalves, List.flatMap_cons, wordHalves_append, ih, wordsFor, List.length_cons, List.cons_append, List.nil_append]
    congr 4
    omega

theorem flatMap_wordBytes_length (ws : List Word) : (ws.flatMap wordBytes).length = 4 * ws.length := by
  induction ws with
  | nil => rfl
  | cons w ws ih => simp [wordBytes, ih]; omega

theorem flatMap_wordHalves_length (ws : List Word) : (ws.flatMap wordHalves).length = 2 * ws.length := by
  induction ws with
  | nil => rfl
  | cons w ws ih => simp [wordHalves, ih]; omega

/-- Packing what was unpacked gives the words back, where there are as many as needed and the padding is zero. -/
theorem packBytes_unpack (ws : List Word) (n : Nat) (hlen : ws.length = wordsFor n 4)
    (hz : ∀ b ∈ (ws.flatMap wordBytes).drop n, b = 0) : packBytes ((ws.flatMap wordBytes).take n) = ws := by
  induction ws generalizing n with
  | nil => simp [packBytes]
  | cons w ws ih =>
    simp only [wordsFor, List.length_cons] at hlen
    simp only [List.flatMap_cons, wordBytes, List.cons_append, List.nil_append] at hz ⊢
    match n, hlen with
    | 0, h => omega
    | 1, h =>
      have hws : ws = [] := List.eq_nil_of_length_eq_zero (by omega)
      subst hws
      simp only [List.flatMap_nil, List.drop_succ_cons, List.drop_zero, List.forall_mem_cons] at hz
      exact congrArg (fun w => [w]) (word_eq_byte1 hz.1 hz.2.1 hz.2.2.1)
    | 2, h =>
      have hws : ws = [] := List.eq_nil_of_length_eq_zero (by omega)
      subst hws
      simp only [List.flatMap_nil, List.drop_succ_cons, List.drop_zero, List.forall_mem_cons] at hz
      exact congrArg (fun w => [w]) (word_eq_byte2 hz.1 hz.2.1)
    | 3, h =>
      have hws : ws = [] := List.eq_nil_of_length_eq_zero (by omega)
      subst hws
      simp only [List.flatMap_nil, List.drop_succ_cons, List.drop_zero, List.forall_mem_cons] at hz
      exact congrArg (fun w => [w]) (word_eq_byte3 hz.1)
    | n + 4, h =>
      simp only [List.take_succ_cons, packBytes, word_eq_bytes]
      rw [ih n (by simp only [wordsFor]; omega) (by simpa using hz)]

/-- Packing what was unpacked gives the words back, where there are as many as needed and the padding is zero. -/
theorem packHalves_unpack (ws : List Word) (n : Nat) (hlen : ws.length = wordsFor n 2)
    (hz : ∀ c ∈ (ws.flatMap wordHalves).drop n, c = 0) : packHalves ((ws.flatMap wordHalves).take n) = ws := by
  induction ws generalizing n with
  | nil => simp [packHalves]
  | cons w ws ih =>
    simp only [wordsFor, List.length_cons] at hlen
    simp only [List.flatMap_cons, wordHalves, List.cons_append, List.nil_append] at hz ⊢
    match n, hlen with
    | 0, h => omega
    | 1, h =>
      have hws : ws = [] := List.eq_nil_of_length_eq_zero (by omega)
      subst hws
      simp only [List.flatMap_nil, List.drop_succ_cons, List.drop_zero, List.forall_mem_cons] at hz
      exact congrArg (fun w => [w]) (word_eq_half1 hz.1)
    | n + 2, h =>
      simp only [List.take_succ_cons, packHalves, hiHalf_append_loHalf]
      rw [ih n (by simp only [wordsFor]; omega) (by simpa using hz)]

theorem takePadded_eq_ok {w : Nat} {n : Nat} {items out : List (BitVec w)} :
    takePadded n items = .ok out ↔ out = items.take n ∧ ∀ b ∈ items.drop n, b = 0 := by
  unfold takePadded
  split
  · next h =>
    simp only [List.all_eq_true, beq_iff_eq] at h
    constructor
    · intro e; injection e with e; exact ⟨e.symm, h⟩
    · rintro ⟨rfl, -⟩; rfl
  · next h =>
    simp only [List.all_eq_true, beq_iff_eq] at h
    constructor
    · intro e; exact absurd e (by simp)
    · rintro ⟨-, h2⟩; exact absurd h2 h

theorem takePadded_padded {w : Nat} (xs : List (BitVec w)) (k n : Nat) (h : xs.length = n) :
    takePadded n (xs ++ List.replicate k 0) = .ok xs := by
  rw [takePadded_eq_ok]
  subst h
  simp [List.mem_replicate]

end Sys2Proof
end

