-- ==== Sys2Proof/Laws/State.lean ====
section
/-! SUPPORT. One lemma per field for every operation that updates the state, true by rfl, so that no proof unfolds a record. -/

namespace Sys2Proof.Machine

/-! ### Performing events -/

@[simp] theorem perform_pins (s : State) (es : List Event) : (s.perform es).pins = es.foldl Pins.after s.pins := rfl
@[simp] theorem perform_trace (s : State) (es : List Event) : (s.perform es).trace = s.trace ++ es := rfl
@[simp] theorem perform_cfg (s : State) (es : List Event) : (s.perform es).cfg = s.cfg := rfl
@[simp] theorem perform_st (s : State) (es : List Event) : (s.perform es).st = s.st := rfl
@[simp] theorem perform_inbox (s : State) (es : List Event) : (s.perform es).inbox = s.inbox := rfl
@[simp] theorem perform_resp (s : State) (es : List Event) : (s.perform es).resp = s.resp := rfl
@[simp] theorem perform_samples (s : State) (es : List Event) : (s.perform es).samples = s.samples := rfl
@[simp] theorem perform_freeNo (s : State) (es : List Event) : (s.perform es).freeNo = s.freeNo := rfl

@[simp] theorem perform_nil (s : State) : s.perform [] = s := by simp [State.perform]

@[simp] theorem perform_perform (s : State) (a b : List Event) : (s.perform a).perform b = s.perform (a ++ b) := by
  simp [State.perform]

/-! ### Responding -/

@[simp] theorem respond_pins (s : State) (ws : List Word) : (s.respond ws).pins = s.pins := rfl
@[simp] theorem respond_trace (s : State) (ws : List Word) : (s.respond ws).trace = s.trace := rfl
@[simp] theorem respond_cfg (s : State) (ws : List Word) : (s.respond ws).cfg = s.cfg := rfl
@[simp] theorem respond_st (s : State) (ws : List Word) : (s.respond ws).st = s.st := rfl
@[simp] theorem respond_inbox (s : State) (ws : List Word) : (s.respond ws).inbox = s.inbox := rfl
@[simp] theorem respond_resp (s : State) (ws : List Word) : (s.respond ws).resp = s.resp ++ ws := rfl
@[simp] theorem respond_samples (s : State) (ws : List Word) : (s.respond ws).samples = s.samples := rfl
@[simp] theorem respond_freeNo (s : State) (ws : List Word) : (s.respond ws).freeNo = s.freeNo := rfl

/-! ### The illegal request -/

@[simp] theorem raiseIllegal_pins (s : State) : (raiseIllegal s).pins = s.pins := rfl
@[simp] theorem raiseIllegal_trace (s : State) : (raiseIllegal s).trace = s.trace := rfl
@[simp] theorem raiseIllegal_cfg (s : State) : (raiseIllegal s).cfg = s.cfg := rfl
@[simp] theorem raiseIllegal_st (s : State) : (raiseIllegal s).st = { s.st with ill := true } := rfl
@[simp] theorem raiseIllegal_inbox (s : State) : (raiseIllegal s).inbox = s.inbox := rfl
@[simp] theorem raiseIllegal_resp (s : State) : (raiseIllegal s).resp = s.resp := rfl
@[simp] theorem raiseIllegal_samples (s : State) : (raiseIllegal s).samples = s.samples := rfl
@[simp] theorem raiseIllegal_freeNo (s : State) : (raiseIllegal s).freeNo = s.freeNo := rfl

@[simp] theorem clearIllegal_pins (s : State) : (clearIllegal s).pins = s.pins := rfl
@[simp] theorem clearIllegal_trace (s : State) : (clearIllegal s).trace = s.trace := rfl
@[simp] theorem clearIllegal_cfg (s : State) : (clearIllegal s).cfg = s.cfg := rfl
@[simp] theorem clearIllegal_st (s : State) : (clearIllegal s).st = { s.st with ill := false } := rfl
@[simp] theorem clearIllegal_inbox (s : State) : (clearIllegal s).inbox = s.inbox := rfl
@[simp] theorem clearIllegal_resp (s : State) : (clearIllegal s).resp = s.resp := rfl
@[simp] theorem clearIllegal_samples (s : State) : (clearIllegal s).samples = s.samples := rfl
@[simp] theorem clearIllegal_freeNo (s : State) : (clearIllegal s).freeNo = s.freeNo := rfl

/-! ### Accepting, configuration writes, bring-up, reset -/

@[simp] theorem accept_pins (s : State) (rest : List Input) : (s.accept rest).pins = s.pins := rfl
@[simp] theorem accept_trace (s : State) (rest : List Input) : (s.accept rest).trace = s.trace := rfl
@[simp] theorem accept_cfg (s : State) (rest : List Input) : (s.accept rest).cfg = s.cfg := rfl
@[simp] theorem accept_st (s : State) (rest : List Input) : (s.accept rest).st = s.st := rfl
@[simp] theorem accept_inbox (s : State) (rest : List Input) : (s.accept rest).inbox = rest := rfl
@[simp] theorem accept_resp (s : State) (rest : List Input) : (s.accept rest).resp = [] := rfl
@[simp] theorem accept_samples (s : State) (rest : List Input) : (s.accept rest).samples = s.samples := rfl
@[simp] theorem accept_freeNo (s : State) (rest : List Input) : (s.accept rest).freeNo = s.freeNo := rfl

@[simp] theorem writeCfg_pins (i : Fin 31) (v : Word) (s : State) : (writeCfg i v s).pins = s.pins := rfl
@[simp] theorem writeCfg_trace (i : Fin 31) (v : Word) (s : State) : (writeCfg i v s).trace = s.trace := rfl
@[simp] theorem writeCfg_cfg (i : Fin 31) (v : Word) (s : State) :
    (writeCfg i v s).cfg = s.cfg.set i (cfgStored i v) := rfl
@[simp] theorem writeCfg_st (i : Fin 31) (v : Word) (s : State) : (writeCfg i v s).st = s.st := rfl
@[simp] theorem writeCfg_inbox (i : Fin 31) (v : Word) (s : State) : (writeCfg i v s).inbox = s.inbox := rfl
@[simp] theorem writeCfg_resp (i : Fin 31) (v : Word) (s : State) : (writeCfg i v s).resp = s.resp := rfl
@[simp] theorem writeCfg_samples (i : Fin 31) (v : Word) (s : State) : (writeCfg i v s).samples = s.samples := rfl
@[simp] theorem writeCfg_freeNo (i : Fin 31) (v : Word) (s : State) : (writeCfg i v s).freeNo = s.freeNo := rfl

@[simp] theorem bringUp_pins (s : State) : (bringUp s).pins = (bringUpScript s.cfg).foldl Pins.after s.pins := rfl
@[simp] theorem bringUp_trace (s : State) : (bringUp s).trace = s.trace ++ bringUpScript s.cfg := rfl
@[simp] theorem bringUp_cfg (s : State) : (bringUp s).cfg = s.cfg := rfl
@[simp] theorem bringUp_st (s : State) : (bringUp s).st = { s.st with busReady := true } := rfl
@[simp] theorem bringUp_inbox (s : State) : (bringUp s).inbox = s.inbox := rfl
@[simp] theorem bringUp_resp (s : State) : (bringUp s).resp = s.resp := rfl
@[simp] theorem bringUp_samples (s : State) : (bringUp s).samples = s.samples := rfl
@[simp] theorem bringUp_freeNo (s : State) : (bringUp s).freeNo = s.freeNo := rfl

@[simp] theorem resetInput_pins (s : State) : (resetInput s).pins = resetPins (s.freeNo + 1) := rfl
@[simp] theorem resetInput_trace (s : State) : (resetInput s).trace = s.trace := rfl
@[simp] theorem resetInput_cfg (s : State) : (resetInput s).cfg = resetCfg := rfl
@[simp] theorem resetInput_st (s : State) : (resetInput s).st = resetSt := rfl
@[simp] theorem resetInput_inbox (s : State) : (resetInput s).inbox = s.inbox := rfl
@[simp] theorem resetInput_resp (s : State) : (resetInput s).resp = [] := rfl
@[simp] theorem resetInput_samples (s : State) : (resetInput s).samples = s.samples := rfl
@[simp] theorem resetInput_freeNo (s : State) : (resetInput s).freeNo = s.freeNo + 1 := rfl

@[simp] theorem withFetchWord_inbox (s : State) (nbits w : Nat) :
    (s.withFetchWord nbits w).inbox = .frame (tableFrame nbits w) :: s.inbox := rfl

end Sys2Proof.Machine
end

