-- ==== Sys2Proof/Laws/Ops.lean ====
section
/-! SUPPORT. One lemma per shared operation that says everything it can do; proofs cite these instead of unfolding it. -/

namespace Sys2Proof.Machine

/-! ### Configuration file -/

theorem cfgRead_set (c : Cfg) (i j : Fin 31) (v : Word) :
    cfgRead (c.set i v) j = if j = i then v else cfgRead c j := by
  simp only [cfgRead, Vector.get_eq_getElem, Vector.getElem_set]
  by_cases h : j = i
  · simp [h]
  · have : (i : Nat) ≠ j := fun e => h (Fin.ext e.symm)
    simp [h, this]

theorem cfgIndex_some {i : Byte} {k : Fin 31} : cfgIndex i = some k ↔ i.toNat = k := by
  unfold cfgIndex
  split
  · simp [Fin.ext_iff]
  · have := k.isLt; simp; omega

theorem cfgIndex_none {i : Byte} : cfgIndex i = none ↔ i.toNat > maxCfgIndex := by
  simp [cfgIndex, maxCfgIndex]; omega

/-! ### Samples -/

@[simp] theorem sampleAt_perform (s : State) (es : List Event) (k : Nat) : sampleAt (s.perform es) k = sampleAt s k := rfl

theorem sampleAt_cut (s t : State) (n k : Nat) (hs : t.samples = s.samples.drop n) (hf : t.freeNo = s.freeNo + n) :
    sampleAt t k = sampleAt s (n + k) := by
  simp [sampleAt, hs, hf, List.getD_eq_getElem?_getD, Nat.add_assoc]

theorem nextSample_eq (s : State) : nextSample s = sampleAt s 0 := by
  unfold nextSample sampleAt
  cases s.samples <;> simp

@[simp] theorem upcoming_length (s : State) (n : Nat) : (upcoming s n).length = n := by simp [upcoming]

theorem upcoming_add (s t : State) (m n : Nat) (hs : t.samples = s.samples.drop m) (hf : t.freeNo = s.freeNo + m) :
    upcoming s (m + n) = upcoming s m ++ upcoming t n := by
  simp only [upcoming, List.range_add, List.map_append, List.map_map, List.append_cancel_left_eq]
  exact List.map_congr_left fun k _ => (sampleAt_cut s t m k hs hf).symm

/-- A state in which n more read cycles have been performed, and `es` with them. -/
def afterReads (s : State) (n : Nat) (es : List Event) : State :=
  { s with samples := s.samples.drop n, freeNo := s.freeNo + n }.perform es

@[simp] theorem afterReads_pins (s : State) (n : Nat) (es : List Event) :
    (afterReads s n es).pins = es.foldl Pins.after s.pins := rfl
@[simp] theorem afterReads_trace (s : State) (n : Nat) (es : List Event) : (afterReads s n es).trace = s.trace ++ es := rfl
@[simp] theorem afterReads_cfg (s : State) (n : Nat) (es : List Event) : (afterReads s n es).cfg = s.cfg := rfl
@[simp] theorem afterReads_st (s : State) (n : Nat) (es : List Event) : (afterReads s n es).st = s.st := rfl
@[simp] theorem afterReads_inbox (s : State) (n : Nat) (es : List Event) : (afterReads s n es).inbox = s.inbox := rfl
@[simp] theorem afterReads_resp (s : State) (n : Nat) (es : List Event) : (afterReads s n es).resp = s.resp := rfl
@[simp] theorem afterReads_samples (s : State) (n : Nat) (es : List Event) :
    (afterReads s n es).samples = s.samples.drop n := rfl
@[simp] theorem afterReads_freeNo (s : State) (n : Nat) (es : List Event) : (afterReads s n es).freeNo = s.freeNo + n := rfl

@[simp] theorem afterReads_perform (s : State) (n : Nat) (a b : List Event) :
    (afterReads s n a).perform b = afterReads s n (a ++ b) := by simp [afterReads]

@[simp] theorem perform_afterReads (s : State) (n : Nat) (a b : List Event) :
    afterReads (s.perform a) n b = afterReads s n (a ++ b) := by simp [afterReads, State.perform]

@[simp] theorem afterReads_afterReads (s : State) (m n : Nat) (a b : List Event) :
    afterReads (afterReads s m a) n b = afterReads s (m + n) (a ++ b) := by
  simp [afterReads, State.perform, Nat.add_assoc]

@[simp] theorem afterReads_zero (s : State) : afterReads s 0 [] = s := by simp [afterReads]

theorem sampleAt_afterReads (s : State) (n k : Nat) (es : List Event) :
    sampleAt (afterReads s n es) k = sampleAt s (n + k) := sampleAt_cut s _ n k rfl rfl

/-- A byte read returns the coming sample and performs its cycle (R143). -/
theorem busReadByte_eq (s : State) : busReadByte s = (sampleAt s 0, afterReads s 1 [.r (sampleAt s 0)]) := by
  simp [busReadByte, nextSample_eq, afterReads, List.drop_one]

/-- A word read takes two coming samples, the high byte first (R146). -/
theorem readWord_eq (s : State) :
    readWord s = (sampleAt s 0 ++ sampleAt s 1, afterReads s 2 [.r (sampleAt s 0), .r (sampleAt s 1)]) := by
  simp [readWord, busReadByte_eq, sampleAt_afterReads]

/-- n byte reads take the n coming samples. -/
theorem readBytes_eq (n : Nat) (s : State) :
    readBytes n s = (upcoming s n, afterReads s n ((upcoming s n).map .r)) := by
  induction n generalizing s with
  | zero => simp [readBytes, upcoming]
  | succ n ih =>
    have h : upcoming s (n + 1) = sampleAt s 0 :: upcoming (afterReads s 1 [.r (sampleAt s 0)]) n := by
      rw [Nat.add_comm, upcoming_add s (afterReads s 1 [.r (sampleAt s 0)]) 1 n rfl rfl]
      simp [upcoming]
    simp [readBytes, busReadByte_eq, ih, h, Nat.add_comm]

/-- k + 1 word reads keep the last two of the 2(k+1) coming samples (R172). -/
theorem readWordsLast_eq (k : Nat) (s : State) :
    readWordsLast k s = (sampleAt s (2 * k) ++ sampleAt s (2 * k + 1),
      afterReads s (2 * (k + 1)) ((upcoming s (2 * (k + 1))).map .r)) := by
  induction k generalizing s with
  | zero => simp [readWordsLast, readWord_eq, upcoming, List.range_succ]
  | succ k ih =>
    have h : upcoming s (2 * (k + 1 + 1)) = [sampleAt s 0, sampleAt s 1]
        ++ upcoming (afterReads s 2 [.r (sampleAt s 0), .r (sampleAt s 1)]) (2 * (k + 1)) := by
      rw [show 2 * (k + 1 + 1) = 2 + 2 * (k + 1) by ring,
        upcoming_add s (afterReads s 2 [.r (sampleAt s 0), .r (sampleAt s 1)]) 2 _ rfl rfl]
      simp [upcoming, List.range_succ]
    simp only [readWordsLast, readWord_eq, ih, h, sampleAt_afterReads, afterReads_afterReads, List.map_append, List.map_cons,
      List.map_nil]
    rw [show 2 * (k + 1) = 2 + 2 * k by ring, show 2 + (2 * k + 1) = 2 + 2 * k + 1 by ring,
      show 2 * (k + 1 + 1) = 2 + (2 + 2 * k) by ring]

/-- A register read: the command, the switch to IN, 2(index+1) byte reads, the switch back (R172). -/
theorem readRegister_eq (addr : Half) (index : Nat) (s : State) :
    readRegister addr index s = (sampleAt s (2 * index) ++ sampleAt s (2 * index + 1),
      afterReads s (2 * (index + 1))
        (writeCommand addr ++ [.dir .inp] ++ (upcoming s (2 * (index + 1))).map .r ++ [.dir .out])) := by
  have h : upcoming (s.perform (writeCommand addr ++ [.dir .inp])) = upcoming s := rfl
  simp [readRegister, readWordsLast_eq, h]

/-! ### Framing and transactions (R141) -/

@[simp] theorem frameEvents_nil : frameEvents [] = [] := rfl

theorem frameEvents_of_needsSelect {es : List Event} (h : es.any Event.needsSelect = true) :
    frameEvents es = [.cs false] ++ es ++ [.cs true] := by simp [frameEvents, h]

@[simp] theorem readyBus_pins (s : State) :
    (readyBus s).pins = (if s.st.busReady then [] else bringUpScript s.cfg).foldl Pins.after s.pins := by
  unfold readyBus; split <;> rfl
@[simp] theorem readyBus_trace (s : State) :
    (readyBus s).trace = s.trace ++ (if s.st.busReady then [] else bringUpScript s.cfg) := by
  unfold readyBus; split <;> simp
@[simp] theorem readyBus_cfg (s : State) : (readyBus s).cfg = s.cfg := by unfold readyBus; split <;> rfl
@[simp] theorem readyBus_st (s : State) : (readyBus s).st = { s.st with busReady := true } := by
  unfold readyBus; split
  · next h => simp [← h]
  · rfl
@[simp] theorem readyBus_inbox (s : State) : (readyBus s).inbox = s.inbox := by unfold readyBus; split <;> rfl
@[simp] theorem readyBus_resp (s : State) : (readyBus s).resp = s.resp := by unfold readyBus; split <;> rfl
@[simp] theorem readyBus_samples (s : State) : (readyBus s).samples = s.samples := by unfold readyBus; split <;> rfl
@[simp] theorem readyBus_freeNo (s : State) : (readyBus s).freeNo = s.freeNo := by unfold readyBus; split <;> rfl

/-- The state a transaction's body starts from. -/
def bodyStart (s : State) : State := { readyBus s with trace := [] }

@[simp] theorem bodyStart_trace (s : State) : (bodyStart s).trace = [] := rfl
@[simp] theorem bodyStart_cfg (s : State) : (bodyStart s).cfg = s.cfg := readyBus_cfg s
@[simp] theorem bodyStart_st (s : State) : (bodyStart s).st = { s.st with busReady := true } := readyBus_st s
@[simp] theorem bodyStart_inbox (s : State) : (bodyStart s).inbox = s.inbox := readyBus_inbox s
@[simp] theorem bodyStart_resp (s : State) : (bodyStart s).resp = s.resp := readyBus_resp s
@[simp] theorem bodyStart_samples (s : State) : (bodyStart s).samples = s.samples := readyBus_samples s
@[simp] theorem bodyStart_freeNo (s : State) : (bodyStart s).freeNo = s.freeNo := readyBus_freeNo s
@[simp] theorem sampleAt_bodyStart (s : State) (k : Nat) : sampleAt (bodyStart s) k = sampleAt s k := by simp [sampleAt]
@[simp] theorem upcoming_bodyStart (s : State) (n : Nat) : upcoming (bodyStart s) n = upcoming s n := by simp [upcoming]

/-- A script is empty or has an event that needs the chip selected: what R141 frames. -/
def Framable (es : List Event) : Prop := es ≠ [] → es.any Event.needsSelect = true

theorem frameEvents_eq {es : List Event} (h : Framable es) :
    frameEvents es = if es = [] then [] else [.cs false] ++ es ++ [.cs true] := by
  by_cases he : es = []
  · simp [he]
  · simp [he, frameEvents_of_needsSelect (h he)]

/-- A transaction, field by field, in the terms of what its body leaves (R141). -/
theorem busTxn_leaves {α : Type} (body : State → α × State) (s : State)
    (hes : Framable (body (bodyStart s)).2.trace) :
    (busTxn body s).1 = (body (bodyStart s)).1
    ∧ (busTxn body s).2.trace = s.trace ++ busTrace s (body (bodyStart s)).2.trace
    ∧ (busTxn body s).2.pins = (busTrace s (body (bodyStart s)).2.trace).foldl Pins.after s.pins
    ∧ (busTxn body s).2.st = (body (bodyStart s)).2.st
    ∧ (busTxn body s).2.cfg = (body (bodyStart s)).2.cfg
    ∧ (busTxn body s).2.resp = (body (bodyStart s)).2.resp
    ∧ (busTxn body s).2.inbox = (body (bodyStart s)).2.inbox
    ∧ (busTxn body s).2.samples = (body (bodyStart s)).2.samples
    ∧ (busTxn body s).2.freeNo = (body (bodyStart s)).2.freeNo := by
  refine ⟨rfl, ?_, ?_, rfl, rfl, rfl, rfl, rfl, rfl⟩
  · change (readyBus s).trace ++ frameEvents (body (bodyStart s)).2.trace = _
    simp [frameEvents_eq hes, busTrace]
  · change (frameEvents (body (bodyStart s)).2.trace).foldl Pins.after (readyBus s).pins = _
    simp only [frameEvents_eq hes, busTrace, readyBus_pins, List.foldl_append]

/-- A bus request that runs a body and then responds answers what its body leaves. -/
theorem busAnswers_of_body {α : Type} {i : Instr} {s : State} {body : State → α × State} {es : List Event} {st : StRegs}
    {resp : List Word} {reads : Nat} (out : α → List Word)
    (hexec : exec i s = .next ((busTxn body s).2.respond (out (busTxn body s).1)))
    (htrace : (body (bodyStart s)).2.trace = es) (hes : Framable es)
    (hst : (body (bodyStart s)).2.st = { st with busReady := true })
    (hcfg : (body (bodyStart s)).2.cfg = s.cfg)
    (hresp : (body (bodyStart s)).2.resp ++ out (body (bodyStart s)).1 = s.resp ++ resp)
    (hinbox : (body (bodyStart s)).2.inbox = s.inbox)
    (hsamples : (body (bodyStart s)).2.samples = s.samples.drop reads)
    (hfree : (body (bodyStart s)).2.freeNo = s.freeNo + reads) :
    BusAnswers i s es st resp reads := by
  subst htrace
  obtain ⟨ha, ht, hp, h1, h2, h3, h4, h5, h6⟩ := busTxn_leaves body s hes
  exact ⟨_, hexec, by simpa using ht, by simpa using hp, by simpa [h1] using hst, by simpa [h2] using hcfg,
    by simpa [h3, ha] using hresp, by simpa [h4] using hinbox, by simpa [h5] using hsamples, by simpa [h6] using hfree⟩

/-- A bus request that performs a script answers it, with no other change. -/
theorem busAnswers_of_script {i : Instr} {s : State} {script : State → List Event} {es : List Event}
    (hexec : exec i s = .next (busRun (fun s => s.perform (script s)) s))
    (hscript : script (bodyStart s) = es) (hes : Framable es) : BusAnswers i s es s.st [] 0 := by
  refine busAnswers_of_body (body := fun s => ((), s.perform (script s))) (fun _ => []) ?_ (by simpa using hscript) hes
    (by simp) (by simp) (by simp) (by simp) (by simp) (by simp)
  rw [hexec]; simp [busRun, State.respond]

/-! ### Scripts -/

@[simp] theorem writeCommand_ne_nil (w : Half) : writeCommand w ≠ [] := by simp [writeCommand]

theorem writeCommand_needsSelect (w : Half) : (writeCommand w).any Event.needsSelect = true := rfl

theorem framable_nil : Framable [] := fun h => absurd rfl h

theorem framable_append {a b : List Event} (ha : Framable a) (hb : Framable b) : Framable (a ++ b) := by
  intro h
  by_cases h1 : a = []
  · subst h1; simpa using hb (by simpa using h)
  · simp [List.any_append, ha h1]

/-- A script of write cycles and waits is framable, whatever it holds. -/
theorem framable_of_all {es : List Event} (h : ∀ e ∈ es, e.needsSelect = true) : Framable es := by
  intro hne
  cases es with
  | nil => exact absurd rfl hne
  | cons e es => simp [h e (by simp)]

/-! ### Parameter writes (R171) -/

theorem writeRegisterParams_plain (c : Cfg) (cmd : Half) (params : List Byte) (h : capParamAddrInc (capsOf c) = false) :
    writeRegisterParams c cmd params = writeCommand cmd ++ params.map (.w true) := by
  have e : params.flatMap writeData8 = params.map (.w true) := by
    induction params with
    | nil => rfl
    | cons b bs ih => simp [writeData8, ih]
  simp [writeRegisterParams, h, e]

/-- With CAPS.PARAM_ADDR_INC each parameter goes to its own address, modulo 2^16 (R171). -/
theorem paramsToIncrementing_eq (cmd : Half) (params : List Byte) :
    paramsToIncrementing cmd params
      = params.zipIdx.flatMap fun p => writeCommand (cmd + BitVec.ofNat 16 p.2) ++ [.w true p.1] := by
  have key (ps : List Byte) (n : Nat) : paramsToIncrementing (cmd + BitVec.ofNat 16 n) ps
      = (ps.zipIdx n).flatMap fun p => writeCommand (cmd + BitVec.ofNat 16 p.2) ++ [.w true p.1] := by
    induction ps generalizing n with
    | nil => rfl
    | cons b bs ih =>
      have e : cmd + BitVec.ofNat 16 n + 1 = cmd + BitVec.ofNat 16 (n + 1) := by
        rw [BitVec.ofNat_add, BitVec.add_assoc]; rfl
      rw [paramsToIncrementing, e, ih, List.zipIdx_cons, List.flatMap_cons]
      rfl
  simpa using key params 0

theorem writeRegisterParams_incrementing (c : Cfg) (cmd : Half) (params : List Byte)
    (h : capParamAddrInc (capsOf c) = true) (hne : params ≠ []) :
    writeRegisterParams c cmd params
      = params.zipIdx.flatMap fun p => writeCommand (cmd + BitVec.ofNat 16 p.2) ++ [.w true p.1] := by
  cases params with
  | nil => exact absurd rfl hne
  | cons b bs => simp [writeRegisterParams, h, paramsToIncrementing_eq]

/-- A parameter write selects the chip, whatever its mode and length. -/
theorem writeRegisterParams_needsSelect (c : Cfg) (cmd : Half) (params : List Byte) :
    (writeRegisterParams c cmd params).any Event.needsSelect = true := by
  unfold writeRegisterParams
  split
  · cases params <;> simp [paramsToIncrementing, writeCommand, Event.needsSelect]
  · simp [writeCommand, Event.needsSelect]

theorem framable_of_needsSelect {es : List Event} (h : es.any Event.needsSelect = true) : Framable es := fun _ => h

theorem framable_of_left {a : List Event} (b : List Event) (h : a.any Event.needsSelect = true) : Framable (a ++ b) :=
  framable_of_needsSelect (by simp [List.any_append, h])

/-! ### Watching and counting events -/

/-- Watching two lists of events one after the other. -/
theorem BusView.run_append (v : BusView) (a b : List Event) : v.run (a ++ b) = (v.run a).bind fun u => u.run b := by
  induction a generalizing v with
  | nil => rfl
  | cons e a ih =>
    simp only [List.cons_append, BusView.run, Option.bind_assoc]
    exact congrArg _ (funext ih)

/-- What a watcher lets through, it lets through cut short: a reset that cuts a request breaks no rule of the bus. -/
theorem BusView.run_take {v u : BusView} {es : List Event} (k : Nat) (h : v.run es = some u) : ∃ w, v.run (es.take k) = some w := by
  rw [← List.take_append_drop k es, BusView.run_append] at h
  obtain ⟨w, hw, -⟩ := Option.bind_eq_some_iff.mp h
  exact ⟨w, hw⟩

@[simp] theorem BusView.ofPins_undriven {p : Pins} (h : p.driven = false) : BusView.ofPins p = .start := by simp [BusView.ofPins, h]
@[simp] theorem BusView.ofPins_driven {p : Pins} (h : p.driven = true) : BusView.ofPins p = ⟨true, p.csN, p.dir⟩ := by
  simp [BusView.ofPins, h]

@[simp] theorem writeCycles_nil : writeCycles [] = 0 := rfl
@[simp] theorem writeCycles_write (rs : Bool) (b : Byte) (es : List Event) :
    writeCycles (.w rs b :: es) = writeCycles es + 1 := List.countP_cons_of_pos rfl
@[simp] theorem writeCycles_append (a b : List Event) : writeCycles (a ++ b) = writeCycles a + writeCycles b := List.countP_append
@[simp] theorem writeCycles_writeCommand (w : Half) : writeCycles (writeCommand w) = 2 := rfl
@[simp] theorem writeCycles_writeRegister (cmd w : Half) : writeCycles (writeRegister cmd w) = 4 := rfl
@[simp] theorem writeCycles_bringUpScript (c : Cfg) : writeCycles (bringUpScript c) = 0 := by
  unfold bringUpScript delayMs
  simp only []
  split_ifs <;> rfl

/-- Chip select and bring-up write no byte: a bus request's write cycles are its body's (R141). -/
@[simp] theorem writeCycles_busTrace (s : State) (es : List Event) : writeCycles (busTrace s es) = writeCycles es := by
  have h : writeCycles (if es = [] then [] else [.cs false] ++ es ++ [.cs true]) = writeCycles es := by
    split
    · next h => rw [h]
    · rw [writeCycles_append, writeCycles_append]; exact Nat.zero_add _
  rw [busTrace, writeCycles_append, h]
  split <;> simp

end Sys2Proof.Machine
end

