-- ==== Sys2Proof/Laws/PerInstr.lean ====
section
/-! SUPPORT. Facts about every request as syntax, one lemma per constructor of `Instr`. -/

namespace Sys2Proof.Laws.EncodeShape

/-- The frame of a well-formed request passes the header and length checks of R118 items 1 to 3: its opcode field selects the request's
row, the row's reserved header bits are zero, and the frame has as many argument words as the row asks for. -/
def Statement (i : Instr) : Prop :=
  i.wellFormed = true →
    Op.ofCode (opField (encode i).header) = some i.op
    ∧ (encode i).header &&& i.op.reservedMask = 0
    ∧ (encode i).args.length = i.op.nargs (encode i).header ((encode i).args.headD 0)

/-- From the fields: the reserved bits of A8 and IMM16 (`ma`, `mi`) are zero in the request's operands, and the arguments are counted. -/
theorem of_fields (i : Instr) (ma : Byte) (mi : Half) (ha : i.a8 &&& ma = 0) (hi : i.imm &&& mi = 0)
    (hm : i.op.reservedMask = (0 : Byte) ++ ma ++ mi)
    (hn : i.args.length = i.op.nargs (mkHeader i.op i.a8 i.imm) (i.args.headD 0)) :
    Op.ofCode (opField (encode i).header) = some i.op
    ∧ (encode i).header &&& i.op.reservedMask = 0
    ∧ (encode i).args.length = i.op.nargs (encode i).header ((encode i).args.headD 0) := by
  refine ⟨by simp [encode], ?_, hn⟩
  have h : ((i.op.code ++ i.a8) ++ i.imm) &&& (((0 : Byte) ++ ma) ++ mi) = (0 : BitVec (8 + 8 + 16)) := by
    rw [BitVec.and_append, BitVec.and_append, ha, hi]
    simp
  rw [hm]
  exact h

theorem ofBool_setWidth_and (b : Bool) : (BitVec.ofBool b).setWidth 8 &&& (0xFE : Byte) = 0 := by cases b <;> rfl

theorem rotation_setWidth_and : ∀ r : BitVec 2, r.setWidth 8 &&& (0xFC : Byte) = 0 := by decide

theorem byte_setWidth_and (b : Byte) : b.setWidth 16 &&& (0xFF00 : Half) = 0 := by
  have h : ((0 : Byte) ++ b) &&& ((0xFF : Byte) ++ (0 : Byte)) = (0 : BitVec (8 + 8)) := by
    rw [BitVec.and_append]; simp
  have e : b.setWidth 16 = (0 : Byte) ++ b := BitVec.setWidth_eq_append (by omega)
  rw [e]
  exact h

theorem nop : Statement (.nop) :=
  fun _ => of_fields _ 0xFF 0xFFFF (BitVec.zero_and) (BitVec.zero_and) rfl rfl

theorem wrcmd (word : Half) : Statement (.wrcmd word) :=
  fun _ => of_fields _ 0xFF 0 (BitVec.zero_and) (BitVec.and_zero) rfl rfl

theorem wrdata (word : Half) : Statement (.wrdata word) :=
  fun _ => of_fields _ 0xFF 0 (BitVec.zero_and) (BitVec.and_zero) rfl rfl

theorem wrdata8 (byte : Byte) : Statement (.wrdata8 byte) :=
  fun _ => of_fields _ 0xFF 0xFF00 (BitVec.zero_and) (byte_setWidth_and byte) rfl rfl

theorem rdword : Statement (.rdword) :=
  fun _ => of_fields _ 0xFF 0xFFFF (BitVec.zero_and) (BitVec.zero_and) rfl rfl

theorem wrreg (cmd : Half) (data : Half) : Statement (.wrreg cmd data) :=
  fun _ => of_fields _ 0xFF 0 (BitVec.zero_and) (BitVec.and_zero) rfl rfl

theorem wrregp (cmd : Half) (params : List Byte) : Statement (.wrregp cmd params) := by
  intro h
  have hlen : params.length < 2 ^ 8 := by simpa [Instr.wellFormed] using h
  exact of_fields _ 0 0 (BitVec.and_zero) (BitVec.and_zero) rfl
    (by simp only [Instr.args, Instr.op, Instr.a8, Op.nargs, packBytes_length, a8Field_mkHeader, BitVec.toNat_ofNat, Nat.mod_eq_of_lt hlen])

theorem rdreg (addr : Half) (index : Byte) : Statement (.rdreg addr index) :=
  fun _ => of_fields _ 0 0 (BitVec.and_zero) (BitVec.and_zero) rfl rfl

theorem rdreg32 (addr : Half) : Statement (.rdreg32 addr) :=
  fun _ => of_fields _ 0xFF 0 (BitVec.zero_and) (BitVec.and_zero) rfl rfl

theorem rdreg40 (addr : Half) : Statement (.rdreg40 addr) :=
  fun _ => of_fields _ 0xFF 0 (BitVec.zero_and) (BitVec.and_zero) rfl rfl

theorem inittbl8 (bracket : Bool) (table : List Byte) : Statement (.inittbl8 bracket table) := by
  intro h
  have hlen : table.length < 2 ^ 16 := by simpa [Instr.wellFormed] using h
  exact of_fields _ 0xFE 0 (ofBool_setWidth_and bracket) (BitVec.and_zero) rfl
    (by simp only [Instr.args, Instr.op, Instr.imm, Op.nargs, packBytes_length, immField_mkHeader, BitVec.toNat_ofNat, Nat.mod_eq_of_lt hlen])

theorem inittbl16 (bracket : Bool) (pairs : List (Half × Half)) : Statement (.inittbl16 bracket pairs) := by
  intro h
  have hlen : pairs.length < 2 ^ 16 := by simpa [Instr.wellFormed] using h
  exact of_fields _ 0xFE 0 (ofBool_setWidth_and bracket) (BitVec.and_zero) rfl
    (by simp only [Instr.args, Instr.op, Instr.imm, Op.nargs, immField_mkHeader, BitVec.toNat_ofNat, Nat.mod_eq_of_lt hlen, List.length_map])

theorem setrot (r : BitVec 2) : Statement (.setrot r) :=
  fun _ => of_fields _ 0xFC 0xFFFF (rotation_setWidth_and r) (BitVec.zero_and) rfl rfl

theorem setwin (x0 : Half) (y0 : Half) (x1 : Half) (y1 : Half) : Statement (.setwin x0 y0 x1 y1) :=
  fun _ => of_fields _ 0xFF 0xFFFF (BitVec.zero_and) (BitVec.zero_and) rfl rfl

theorem invert (on : Bool) : Statement (.invert on) :=
  fun _ => of_fields _ 0xFE 0xFFFF (ofBool_setWidth_and on) (BitVec.zero_and) rfl rfl

theorem vscroll (top : Half) (lines : Half) (offset : Half) : Statement (.vscroll top lines offset) :=
  fun _ => of_fields _ 0xFF 0xFFFF (BitVec.zero_and) (BitVec.zero_and) rfl rfl

theorem pushpix (first : Bool) (colors : List Half) : Statement (.pushpix first colors) := by
  intro h
  have hlen : colors.length < 2 ^ 32 := by simpa [Instr.wellFormed] using h
  exact of_fields _ 0xFE 0xFFFF (ofBool_setWidth_and first) (BitVec.zero_and) rfl
    (by simp only [Instr.args, Instr.op, Op.nargs, packHalves_length, BitVec.toNat_ofNat, Nat.mod_eq_of_lt hlen, Nat.add_comm, List.length_cons, List.headD_cons])

theorem wrpix (x : Half) (y : Half) (color : Half) : Statement (.wrpix x y color) :=
  fun _ => of_fields _ 0xFF 0 (BitVec.zero_and) (BitVec.and_zero) rfl rfl

theorem rdpix (x : Half) (y : Half) (w : Half) (h : Half) : Statement (.rdpix x y w h) :=
  fun _ => of_fields _ 0xFF 0xFFFF (BitVec.zero_and) (BitVec.zero_and) rfl rfl

theorem wrcfg (index : Byte) (value : Word) : Statement (.wrcfg index value) :=
  fun _ => of_fields _ 0 0xFFFF (BitVec.and_zero) (BitVec.zero_and) rfl rfl

theorem rdcfg (index : Byte) : Statement (.rdcfg index) :=
  fun _ => of_fields _ 0 0xFFFF (BitVec.and_zero) (BitVec.zero_and) rfl rfl

theorem rdstate (index : Byte) : Statement (.rdstate index) :=
  fun _ => of_fields _ 0 0xFFFF (BitVec.and_zero) (BitVec.zero_and) rfl rfl

theorem clrstat : Statement (.clrstat) :=
  fun _ => of_fields _ 0xFF 0xFFFF (BitVec.zero_and) (BitVec.zero_and) rfl rfl

theorem delay (ms : Half) : Statement (.delay ms) :=
  fun _ => of_fields _ 0xFF 0 (BitVec.zero_and) (BitVec.and_zero) rfl rfl

theorem busreset : Statement (.busreset) :=
  fun _ => of_fields _ 0xFF 0xFFFF (BitVec.zero_and) (BitVec.zero_and) rfl rfl

end Sys2Proof.Laws.EncodeShape
end

