-- ==== Sys2Proof/Laws/Rotation.lean ====
section
/-! SUPPORT. What the shared operations of the rotation engine can do: clipping, SetWindow, ResetWindow, VScroll (R226 to R246). -/

namespace Sys2Proof.Machine

/-! ### Clipping (R229) -/

/-- What a clipped window is: the request was neither inverted nor fully off-screen, and the window lies inside the geometry. -/
theorem clipWindow_some {w h : Half} {x0 y0 x1 y1 : Int} {win : Window} (hc : clipWindow w h x0 y0 x1 y1 = some win) :
    x0 ≤ x1 ∧ y0 ≤ y1 ∧ 0 ≤ x1 ∧ 0 ≤ y1 ∧ x0 < w.toNat ∧ y0 < h.toNat
    ∧ (win.x0.toNat : Int) = max x0 0 ∧ (win.y0.toNat : Int) = max y0 0
    ∧ (win.x1.toNat : Int) = min x1 (w.toNat - 1) ∧ (win.y1.toNat : Int) = min y1 (h.toNat - 1) := by
  unfold clipWindow at hc
  simp only [] at hc
  split at hc
  · cases hc
  split at hc
  · cases hc
  split at hc
  · cases hc
  cases hc
  have hw := w.isLt
  have hh := h.isLt
  refine ⟨by omega, by omega, by omega, by omega, by omega, by omega, ?_, ?_, ?_, ?_⟩ <;>
  · simp only [trunc16, BitVec.toNat_ofInt]
    omega

/-- When a window request is a no-op (R229). -/
theorem clipWindow_none {w h : Half} {x0 y0 x1 y1 : Int} : clipWindow w h x0 y0 x1 y1 = none ↔
    (w.toNat : Int) = 0 ∨ (h.toNat : Int) = 0 ∨ x0 > x1 ∨ y0 > y1 ∨ x1 < 0 ∨ y1 < 0 ∨ x0 ≥ w.toNat ∨ y0 ≥ h.toNat := by
  unfold clipWindow
  simp only []
  split_ifs <;> simp <;> omega

/-- The window of a request that is not a no-op (R229). -/
theorem clipWindow_of_not_none {w h : Half} {x0 y0 x1 y1 : Int} (hc : clipWindow w h x0 y0 x1 y1 ≠ none) :
    clipWindow w h x0 y0 x1 y1
      = some ⟨trunc16 (max x0 0), trunc16 (max y0 0), trunc16 (min x1 (w.toNat - 1)), trunc16 (min y1 (h.toNat - 1))⟩ := by
  rw [Ne, clipWindow_none] at hc
  unfold clipWindow
  simp only []
  rw [if_neg (by omega), if_neg (by omega), if_neg (by omega)]

/-- A clipped window lies inside the geometry, start before end (R52). -/
theorem clipWindow_inside {w h : Half} {x0 y0 x1 y1 : Int} {win : Window} (hc : clipWindow w h x0 y0 x1 y1 = some win) :
    win.x0.toNat ≤ win.x1.toNat ∧ win.x1.toNat < w.toNat ∧ win.y0.toNat ≤ win.y1.toNat ∧ win.y1.toNat < h.toNat := by
  obtain ⟨h1, h2, h3, h4, h5, h6, e1, e2, e3, e4⟩ := clipWindow_some hc
  omega

/-- A request wholly on screen is stored as it is. -/
theorem clipWindow_of_inside {w h : Half} {x0 y0 x1 y1 : Int} (hx : 0 ≤ x0) (hxx : x0 ≤ x1) (hxw : x1 < w.toNat)
    (hy : 0 ≤ y0) (hyy : y0 ≤ y1) (hyh : y1 < h.toNat) :
    clipWindow w h x0 y0 x1 y1 = some ⟨trunc16 x0, trunc16 y0, trunc16 x1, trunc16 y1⟩ := by
  unfold clipWindow
  simp only []
  rw [if_neg (by omega), if_neg (by omega), if_neg (by omega), max_eq_left hx, max_eq_left hy, min_eq_left (by omega),
    min_eq_left (by omega)]

/-- With no geometry every request is a no-op. -/
theorem clipWindow_zero {w h : Half} (x0 y0 x1 y1 : Int) (hz : w.toNat = 0 ∨ h.toNat = 0) :
    clipWindow w h x0 y0 x1 y1 = none := by
  unfold clipWindow
  simp only []
  rw [if_pos (by omega)]

/-! ### SetWindow, ResetWindow (R229, R226) -/

theorem setWindow_none {s : State} {x0 y0 x1 y1 : Int} (h : clipWindow s.st.geomW s.st.geomH x0 y0 x1 y1 = none) :
    setWindow x0 y0 x1 y1 s = s := by simp [setWindow, h]

theorem setWindow_some {s : State} {x0 y0 x1 y1 : Int} {win : Window}
    (h : clipWindow s.st.geomW s.st.geomH x0 y0 x1 y1 = some win) :
    setWindow x0 y0 x1 y1 s = { s with st := { s.st with win := win } }.perform (windowScript s.cfg s.st win) := by
  simp [setWindow, h]

/-- SetWindow changes the window and performs events; nothing else. -/
theorem setWindow_leaves (x0 y0 x1 y1 : Int) (s : State) :
    ∃ win es, setWindow x0 y0 x1 y1 s = { s with st := { s.st with win := win } }.perform es := by
  cases h : clipWindow s.st.geomW s.st.geomH x0 y0 x1 y1 with
  | none => exact ⟨s.st.win, [], by simp [setWindow_none h]⟩
  | some win => exact ⟨win, _, setWindow_some h⟩

/-- The full screen, where there is a geometry (R226, R284). -/
theorem setFullWindow_of_pos {s : State} (hw : 0 < s.st.geomW.toNat) (hh : 0 < s.st.geomH.toNat) :
    setFullWindow s = { s with st := { s.st with win := ⟨0, 0, s.st.geomW - 1, s.st.geomH - 1⟩ } }.perform
      (windowScript s.cfg s.st ⟨0, 0, s.st.geomW - 1, s.st.geomH - 1⟩) := by
  have e (v : Half) (hv : 0 < v.toNat) : trunc16 ((v.toNat : Int) - 1) = v - 1 := by
    apply BitVec.eq_of_toNat_eq
    have := v.isLt
    simp only [trunc16, BitVec.toNat_ofInt, BitVec.toNat_sub]
    simp
    omega
  have h := clipWindow_of_inside (w := s.st.geomW) (h := s.st.geomH) (x0 := 0) (y0 := 0) (x1 := s.st.geomW.toNat - 1)
    (y1 := s.st.geomH.toNat - 1) (by omega) (by omega) (by omega) (by omega) (by omega) (by omega)
  rw [e _ hw, e _ hh] at h
  exact setWindow_some h

/-- A window write selects the chip, whatever the family. -/
theorem windowScript_needsSelect (c : Cfg) (st : StRegs) (win : Window) :
    (windowScript c st win).any Event.needsSelect = true := by
  unfold windowScript
  simp only []
  split
  · rw [writeWindowUnified, List.any_append, writeRegisterParams_needsSelect, Bool.or_true]
  · simp [writeWindowLegacy, writeRegister, writeCommand, Event.needsSelect]

/-! ### Bus coordinates (R230, R233), field by field -/

theorem addOffset_columns (c : Cfg) (r : BitVec 2) (v : Window) :
    (addOffset c r v).x0 = v.x0 + (if offsetApplies c r && !offsetOnRows c then cfgLo c cfgOFFSET else 0)
    ∧ (addOffset c r v).x1 = v.x1 + (if offsetApplies c r && !offsetOnRows c then cfgLo c cfgOFFSET else 0) := by
  unfold addOffset
  cases offsetApplies c r <;> cases offsetOnRows c <;> simp

theorem addOffset_rows (c : Cfg) (r : BitVec 2) (v : Window) :
    (addOffset c r v).y0 = v.y0 + (if offsetApplies c r && offsetOnRows c then cfgLo c cfgOFFSET else 0)
    ∧ (addOffset c r v).y1 = v.y1 + (if offsetApplies c r && offsetOnRows c then cfgLo c cfgOFFSET else 0) := by
  unfold addOffset
  cases offsetApplies c r <;> cases offsetOnRows c <;> simp

theorem nudge_starts (c : Cfg) (r : BitVec 2) (v : Window) : (nudge c r v).x0 = v.x0 ∧ (nudge c r v).y0 = v.y0 := by
  unfold nudge
  split <;> exact ⟨rfl, rfl⟩

theorem nudge_ends (c : Cfg) (r : BitVec 2) (v : Window) :
    (nudge c r v).x1 = (if capNudgeEn (capsOf c) && isOdd r && v.x1 == v.x0 then v.x1 + 1 else v.x1)
    ∧ (nudge c r v).y1 = (if capNudgeEn (capsOf c) && isOdd r && v.y1 == v.y0 then v.y1 + 1 else v.y1) := by
  unfold nudge
  split
  · next h => simp [h]
  · next h => simp [h]

/-! ### VScroll (R246) -/

/-- The scroll start line lies in the scroll area, which fits the native height. -/
theorem scrollStart_some {h0 top lines vsp : Half} {offset : Int} (h : scrollStart h0 top lines offset = some vsp) :
    0 < lines.toNat ∧ top.toNat + lines.toNat ≤ h0.toNat ∧ (vsp.toNat : Int) = top.toNat + offset % lines.toNat
    ∧ top.toNat ≤ vsp.toNat ∧ vsp.toNat < top.toNat + lines.toNat := by
  unfold scrollStart at h
  split at h
  · cases h
  next hn =>
    cases h
    have h0' := h0.isLt
    have hl : 0 < lines.toNat := by omega
    have m0 := Int.emod_nonneg offset (show (lines.toNat : Int) ≠ 0 by omega)
    have m1 := Int.emod_lt_of_pos offset (show 0 < (lines.toNat : Int) by omega)
    have e : ((trunc16 (top.toNat + offset % lines.toNat)).toNat : Int) = top.toNat + offset % lines.toNat := by
      simp only [trunc16, BitVec.toNat_ofInt]
      omega
    omega

theorem vScroll_none {s : State} {top lines : Half} {offset : Int} (h : scrollStart (nativeH s.cfg) top lines offset = none) :
    vScroll top lines offset s = s := by simp [vScroll, h]

theorem vScroll_some {s : State} {top lines vsp : Half} {offset : Int}
    (h : scrollStart (nativeH s.cfg) top lines offset = some vsp) :
    vScroll top lines offset s = { s with st := { s.st with scrTop := top, scrLines := lines, vsp := vsp } }.perform
      (scrollScript s.cfg top lines vsp) := by simp [vScroll, h]

/-- The scroll reset of SETROT: the whole native height, start line 0 (R227). -/
theorem resetScroll_eq (s : State) :
    resetScroll s = { s with st := { s.st with scrTop := 0, scrLines := nativeH s.cfg, vsp := 0 } }.perform
      (if nativeH s.cfg = 0 then [] else scrollScript s.cfg 0 (nativeH s.cfg) 0) := by
  unfold resetScroll
  split
  · next h => simp [h]
  · next h =>
    have hl : (nativeH s.cfg).toNat ≠ 0 := fun e => h (BitVec.eq_of_toNat_eq (by simpa using e))
    refine vScroll_some ?_
    simp [scrollStart, hl, trunc16]

end Sys2Proof.Machine
end

