-- ==== Sys2Proof/Laws/Pixel.lean ====
section
/-! SUPPORT. What the read operations of the pixel requests do: the GRAM-read command, dummy reads and samples (R275 to R285). -/

namespace Sys2Proof.Machine

/-- A concatenation as a number: the left part stands above the right one. -/
theorem toNat_concat {n m : Nat} (a : BitVec n) (b : BitVec m) : (a ++ b).toNat = a.toNat * 2 ^ m + b.toNat := by
  rw [BitVec.toNat_append, ← Nat.shiftLeft_add_eq_or_of_lt b.isLt, Nat.shiftLeft_eq]

/-- A bit field as a number: bits [start + len - 1 : start]. -/
theorem toNat_field {n : Nat} (start len : Nat) (a : BitVec n) : (a.extractLsb' start len).toNat = a.toNat / 2 ^ start % 2 ^ len := by
  rw [BitVec.extractLsb'_toNat, Nat.shiftRight_eq_div_pow]

/-- Bytes a sample takes (R275, R276). -/
def sampleWidth (caps : Word) : Nat := if capRead24 caps then 3 else 2

/-- The colour of the sample whose first byte is the k-th coming one. -/
def sampleFrom (s : State) (k : Nat) : Half :=
  if capRead24 (capsOf s.cfg) then
    decodeSample24 (capsOf s.cfg) (sampleAt s k) (sampleAt s (k + 1)) (sampleAt s (k + 2))
  else decodeSample16 (capsOf s.cfg) (sampleAt s k) (sampleAt s (k + 1))

theorem sampleFrom_afterReads (s : State) (n k : Nat) (es : List Event) :
    sampleFrom (afterReads s n es) k = sampleFrom s (n + k) := by
  simp [sampleFrom, sampleAt_afterReads, Nat.add_assoc]

/-- One sample takes the coming bytes of its width (R275, R276). -/
theorem readSample_eq (s : State) :
    readSample s = (sampleFrom s 0,
      afterReads s (sampleWidth (capsOf s.cfg)) ((upcoming s (sampleWidth (capsOf s.cfg))).map .r)) := by
  unfold readSample sampleFrom sampleWidth
  split
  · simp [readSample24, busReadByte_eq, sampleAt_afterReads, upcoming, List.range_succ]
  · simp [readSample16, busReadByte_eq, sampleAt_afterReads, upcoming, List.range_succ]

/-- n samples take the coming bytes of n widths, in order (R284). -/
theorem readSamples_eq (n : Nat) (s : State) :
    readSamples n s = ((List.range n).map fun k => sampleFrom s (sampleWidth (capsOf s.cfg) * k),
      afterReads s (sampleWidth (capsOf s.cfg) * n) ((upcoming s (sampleWidth (capsOf s.cfg) * n)).map .r)) := by
  induction n generalizing s with
  | zero => simp [readSamples, upcoming]
  | succ n ih =>
    have hb := readSample_eq s
    generalize hw : sampleWidth (capsOf s.cfg) = b at hb ⊢
    have hup : upcoming s (b * (n + 1)) = upcoming s b ++ upcoming (afterReads s b ((upcoming s b).map .r)) (b * n) := by
      rw [Nat.mul_succ, Nat.add_comm, upcoming_add s (afterReads s b ((upcoming s b).map .r)) b _ rfl rfl]
    simp only [readSamples, hb, ih, afterReads_cfg, hw, sampleFrom_afterReads, afterReads_afterReads, hup, List.map_append,
      List.range_succ_eq_map, List.map_cons, List.map_map, Nat.mul_zero]
    refine Prod.ext ?_ (by simp [Nat.mul_succ, Nat.add_comm])
    simp [Function.comp_def, Nat.mul_succ, Nat.add_comm]

/-- The GRAM-read command, the switch to IN, the dummy reads (R277, R284). -/
theorem openGramRead_eq (s : State) :
    openGramRead s = afterReads s (dummyReads (capsOf s.cfg))
      (writeCommand (cfgLo s.cfg cfgGRAM_RD) ++ [.dir .inp] ++ (upcoming s (dummyReads (capsOf s.cfg))).map .r) := by
  have h : upcoming (s.perform (writeCommand (cfgLo s.cfg cfgGRAM_RD) ++ [.dir .inp])) = upcoming s := rfl
  simp [openGramRead, readBytes_eq, h]

/-- The points of a rectangle are counted. -/
theorem rectPoints_length (x y : Int) (w h : Nat) : (rectPoints x y w h).length = w * h := by
  simp [rectPoints, List.length_flatMap, Nat.mul_comm]

theorem readPoints_length (ps : List (Int × Int)) (s : State) : (readPoints ps s).1.length = ps.length := by
  induction ps generalizing s with
  | nil => rfl
  | cons p ps ih => simp [readPoints, ih]

theorem readSamples_length (n : Nat) (s : State) : (readSamples n s).1.length = n := by simp [readSamples_eq]

end Sys2Proof.Machine
end

