-- ==== Sys2Proof/Tests/Slice0.lean ====
section
/-! SUPPORT. Tests. Expected values are the spec's own: the encodings of 30_encoding.md R116 written out, the examples of the request
rules, and the vectors V-… of 95_test_vectors.md. Then one witness for the hypotheses of each statement. -/

namespace Sys2Proof.Tests

open Sys2Proof.Machine Sys2Proof.Claims

/-! ### Well-formed terms: one the check refuses for each thing it checks (R116, R118 item 5) -/

theorem test_wf_wrregp_count : (Instr.wrregp 0 (List.replicate 256 0)).wellFormed = false := by
  simp [Instr.wellFormed, -List.reduceReplicate]
theorem test_wf_wrregp_most : (Instr.wrregp 0 (List.replicate 255 0)).wellFormed = true := by
  simp [Instr.wellFormed, -List.reduceReplicate]
theorem test_wf_inittbl8_count : (Instr.inittbl8 true (List.replicate 65536 0)).wellFormed = false := by
  simp [Instr.wellFormed, -List.reduceReplicate]
theorem test_wf_inittbl16_count : (Instr.inittbl16 true (List.replicate 65536 (0, 0))).wellFormed = false := by
  simp [Instr.wellFormed, -List.reduceReplicate]
theorem test_wf_pushpix_count : (Instr.pushpix true (List.replicate (2 ^ 32) 0)).wellFormed = false := by
  simp [Instr.wellFormed, -List.reduceReplicate]
theorem test_wf_wrcfg_index : (Instr.wrcfg 0x1F 1).wellFormed = false ∧ (Instr.wrcfg 0x1E 1).wellFormed = true := by decide
theorem test_wf_rdcfg_index : (Instr.rdcfg 0x1F).wellFormed = false ∧ (Instr.rdcfg 0x1E).wellFormed = true := by decide
theorem test_wf_rdstate_index : (Instr.rdstate 0x0D).wellFormed = false ∧ (Instr.rdstate 0x0C).wellFormed = true := by decide

/-! ### Decoding: every constructor from a frame written out from R116 -/

theorem test_decode_nop : decode ⟨0x00000000, []⟩ = .ok .nop := by decide
theorem test_decode_wrcmd : decode ⟨0x0100002C, []⟩ = .ok (.wrcmd 0x002C) := by decide
theorem test_decode_wrdata : decode ⟨0x0200F800, []⟩ = .ok (.wrdata 0xF800) := by decide
theorem test_decode_wrdata8 : decode ⟨0x03000055, []⟩ = .ok (.wrdata8 0x55) := by decide
theorem test_decode_rdword : decode ⟨0x04000000, []⟩ = .ok .rdword := by decide
theorem test_decode_wrreg : decode ⟨0x10000036, [0x00000048]⟩ = .ok (.wrreg 0x0036 0x0048) := by decide
theorem test_decode_wrregp : decode ⟨0x1103FFFE, [0x11223300]⟩ = .ok (.wrregp 0xFFFE [0x11, 0x22, 0x33]) := by decide
theorem test_decode_rdreg : decode ⟨0x120200D3, []⟩ = .ok (.rdreg 0x00D3 2) := by decide
theorem test_decode_rdreg32 : decode ⟨0x130000D3, []⟩ = .ok (.rdreg32 0x00D3) := by decide
theorem test_decode_rdreg40 : decode ⟨0x140000BF, []⟩ = .ok (.rdreg40 0x00BF) := by decide
theorem test_decode_inittbl8 :
    decode ⟨0x15010005, [0x36014896, 0x7F000000]⟩ = .ok (.inittbl8 true [0x36, 0x01, 0x48, 0x96, 0x7F]) := by decide
theorem test_decode_inittbl16 :
    decode ⟨0x16010002, [0x00010100, 0xFFFF0032]⟩ = .ok (.inittbl16 true [(0x0001, 0x0100), (0xFFFF, 0x0032)]) := by decide
theorem test_decode_setrot : decode ⟨0x20020000, []⟩ = .ok (.setrot 2) := by decide
theorem test_decode_setwin : decode ⟨0x21000000, [0xFFFB000A, 0x012C0014]⟩ = .ok (.setwin 0xFFFB 10 300 20) := by decide
theorem test_decode_invert : decode ⟨0x22010000, []⟩ = .ok (.invert true) := by decide
theorem test_decode_vscroll : decode ⟨0x23000000, [0x00140118, 0x0000FFFF]⟩ = .ok (.vscroll 20 280 0xFFFF) := by decide
theorem test_decode_pushpix :
    decode ⟨0x30000000, [0x00000003, 0xF80007E0, 0x001F0000]⟩ = .ok (.pushpix false [0xF800, 0x07E0, 0x001F]) := by decide
theorem test_decode_wrpix : decode ⟨0x3100001F, [0x00030004]⟩ = .ok (.wrpix 3 4 0x001F) := by decide
theorem test_decode_rdpix : decode ⟨0x32000000, [0x000A0014, 0x00030001]⟩ = .ok (.rdpix 10 20 3 1) := by decide
theorem test_decode_wrcfg : decode ⟨0x40020000, [0x00F00140]⟩ = .ok (.wrcfg 0x02 0x00F00140) := by decide
theorem test_decode_rdcfg : decode ⟨0x41010000, []⟩ = .ok (.rdcfg 0x01) := by decide
theorem test_decode_rdstate : decode ⟨0x42020000, []⟩ = .ok (.rdstate 0x02) := by decide
theorem test_decode_clrstat : decode ⟨0x43000000, []⟩ = .ok .clrstat := by decide
theorem test_decode_delay : decode ⟨0x44000096, []⟩ = .ok (.delay 150) := by decide
theorem test_decode_busreset : decode ⟨0x45000000, []⟩ = .ok .busreset := by decide

/-- R118 item 1 and V-IL-1. -/
theorem test_decode_unknown :
    [0x05000000, 0x0F000000, 0x17000000, 0x24000000, 0x33000000, 0x46000000, 0xFF000000].map (fun h => decode ⟨h, []⟩)
      = List.replicate 7 (.error .unknownOpcode) := by decide
/-- R118 item 2: V-TR-5, V-RS-23, V-IL-2. -/
theorem test_decode_reserved_header :
    [0x03000155, 0x22020000, 0x20040000, 0x00000001].map (fun h => decode ⟨h, []⟩)
      = List.replicate 4 (.error .reservedHeaderBit) := by decide
/-- R118 item 3: V-TR-7, V-RA-13, V-PX-5, V-IL-4. -/
theorem test_decode_length :
    decode ⟨0x0100002C, [0]⟩ = .error .wrongLength ∧ decode ⟨0x16000002, [0x00010100]⟩ = .error .wrongLength
    ∧ decode ⟨0x30010000, [3, 0xF80007E0]⟩ = .error .wrongLength ∧ decode ⟨0x32000000, [0]⟩ = .error .wrongLength
    ∧ decode ⟨0x30010000, []⟩ = .error .wrongLength := by decide
/-- R118 item 4: V-RA-17, V-RA-18, V-RS-27, V-PX-5. -/
theorem test_decode_reserved_arg :
    decode ⟨0x11030010, [0x11223344]⟩ = .error .reservedArgBit ∧ decode ⟨0x10000036, [0x00010048]⟩ = .error .reservedArgBit
    ∧ decode ⟨0x23000000, [0x00000140, 0x00010000]⟩ = .error .reservedArgBit
    ∧ decode ⟨0x30010000, [1, 0xF8000001]⟩ = .error .reservedArgBit := by decide
/-- R118 item 5: V-CT-6. -/
theorem test_decode_index :
    decode ⟨0x401F0000, [1]⟩ = .error .badIndex ∧ decode ⟨0x411F0000, []⟩ = .error .badIndex
    ∧ decode ⟨0x420D0000, []⟩ = .error .badIndex := by decide

/-- The table word of V-RA-14: the header in the low 32 bits, the argument above it. -/
theorem test_decodeTableWord : decodeTableWord 64 0x000000EF1104002A = some (.wrregp 0x2A [0x00, 0x00, 0x00, 0xEF]) := by decide
/-- A row of 32 bits whose instruction has argument words: they are zeros. -/
theorem test_decodeTableWord_short : decodeTableWord 32 0x21000000 = some (.setwin 0 0 0 0) := by decide

/-! ### Single steps from the vectors of 95_test_vectors.md -/

/-- A command byte. -/
def c (b : Byte) : Event := .w false b
/-- A data byte. -/
def d (b : Byte) : Event := .w true b

/-- S0r: the reset state with bring-up done. -/
def S0r : State :=
  { State.reset with
    pins := ⟨true, .out, 0, true, true, true, true, true⟩
    st := { resetSt with busReady := true } }

/-- S0r with CAPS set. -/
def S0rCaps (caps : Word) : State := { S0r with cfg := resetCfg.set 1 caps }

/-- U240: unified, 240 by 320, with more CAPS flags. -/
def U240 (flags : Word) : State :=
  { S0r with
    cfg := (resetCfg.set 1 (0x00010400 ||| flags)).set 2 0x00F00140
    st := { resetSt with
      busReady := true, geomW := 240, geomH := 320, win := ⟨0, 0, 239, 319⟩, ctrl := 0x40, scrLines := 320 } }

/-- L240: legacy, 240 by 320, its own map. -/
def L240 : State :=
  { S0r with
    cfg := (((((((resetCfg.set 2 0x00F00140).set 3 0x22).set 4 0x50).set 5 0x51).set 6 0x52).set 7 0x53).set 8 0x20).set 9 0x21
    st := { resetSt with
      busReady := true, geomW := 240, geomH := 320, win := ⟨0, 0, 239, 319⟩, ctrl := 0x40, scrLines := 320
      amap := ⟨0x22, 0x50, 0x51, 0x52, 0x53, 0x20, 0x21⟩ } }

/-- What a request appends to the trace, and its response. -/
def answer (i : Instr) (s : State) : Option (List Event × List Word) :=
  match exec i s with
  | .next t => some (t.trace.drop s.trace.length, t.resp)
  | .fault _ => none
  | .refused _ => none

/-- A state register after a request. -/
def stateAfter (i : Instr) (s : State) (index : Nat) : Option Word :=
  match exec i s with
  | .next t => some (stRead t.st t.pins index)
  | .fault _ => none
  | .refused _ => none

/-- V-CT-1. -/
theorem test_nop : answer .nop State.reset = some ([], []) := by decide
/-- V-TR-1. -/
theorem test_wrcmd : answer (.wrcmd 0x002C) S0r = some ([.cs false, c 0x00, c 0x2C, .cs true], []) := by decide
/-- V-TR-2: from the cold state, bring-up first. -/
theorem test_wrcmd_cold : answer (.wrcmd 0x002C) State.reset
    = some ([.idle, .rst false, .delay 2, .rst true, .delay 150, .cs false, c 0x00, c 0x2C, .cs true], [])
    ∧ stateAfter (.wrcmd 0x002C) State.reset 0 = some 0x00000002 := by decide
/-- V-TR-3. -/
theorem test_wrdata : answer (.wrdata 0xF800) S0r = some ([.cs false, d 0xF8, d 0x00, .cs true], []) := by decide
/-- V-TR-4. -/
theorem test_wrdata8 : answer (.wrdata8 0x55) S0r = some ([.cs false, d 0x55, .cs true], []) := by decide
/-- V-TR-6. -/
theorem test_rdword : answer .rdword { S0r with samples := [0x93, 0x41] }
    = some ([.cs false, .dir .inp, .r 0x93, .r 0x41, .dir .out, .cs true], [0x00009341]) := by decide
/-- V-RA-1. -/
theorem test_wrreg : answer (.wrreg 0x0036 0x0048) S0r
    = some ([.cs false, c 0x00, c 0x36, d 0x00, d 0x48, .cs true], []) := by decide
/-- V-RA-14. -/
theorem test_wrregp : answer (.wrregp 0x2A [0x00, 0x00, 0x00, 0xEF]) S0r
    = some ([.cs false, c 0x00, c 0x2A, d 0x00, d 0x00, d 0x00, d 0xEF, .cs true], []) := by decide
/-- V-RA-15: incrementing addresses wrap. -/
theorem test_wrregp_incrementing : answer (.wrregp 0xFFFE [0x11, 0x22, 0x33]) (S0rCaps 0x00012000)
    = some ([.cs false, c 0xFF, c 0xFE, d 0x11, c 0xFF, c 0xFF, d 0x22, c 0x00, c 0x00, d 0x33, .cs true], []) := by decide
/-- V-RA-5: only the last word is kept. -/
theorem test_rdreg : (answer (.rdreg 0x00D3 2) { S0r with samples := [1, 2, 3, 4, 5, 6] }).map Prod.snd
    = some [0x00000506] := by decide
/-- V-RA-3. -/
theorem test_rdreg32 : answer (.rdreg32 0x00D3) { S0r with samples := [0, 0, 0, 0, 0x93, 0x41] }
    = some ([.cs false, c 0x00, c 0xD3, .dir .inp, .r 0, .r 0, .dir .out, c 0x00, c 0xD3, .dir .inp, .r 0, .r 0, .r 0x93,
        .r 0x41, .dir .out, .cs true], [0x00009341]) := by decide
/-- V-RA-4: the first byte read is dropped. -/
theorem test_rdreg40 :
    (answer (.rdreg40 0x00BF) { S0r with samples := [0xAB, 0x02, 0, 0, 0x04, 0x94, 0, 0, 0, 0, 0x81, 0xFF] }).map Prod.snd
    = some [0x00000002, 0x049481FF] := by decide
/-- V-RA-6: the sentinel in the length byte. -/
theorem test_inittbl8 : answer (.inittbl8 false [0x36, 0x01, 0x48, 0x96, 0x7F]) S0r
    = some ([.cs false, c 0x00, c 0x36, d 0x48, .delay 150, .cs true], []) := by decide
/-- V-RA-10: the wake bracket. -/
theorem test_inittbl8_bracket : answer (.inittbl8 true [0x36, 0x01, 0x48]) (S0rCaps 0x00010400)
    = some ([.cs false, c 0x00, c 0x01, .delay 150, c 0x00, c 0x3A, d 0x55, c 0x00, c 0x36, d 0x48, c 0x00, c 0x11,
        .delay 150, c 0x00, c 0x29, .cs true], []) := by decide
/-- V-RA-12. -/
theorem test_inittbl16 : answer (.inittbl16 false [(0x0001, 0x0100), (0xFFFF, 0x0032)]) S0r
    = some ([.cs false, c 0x00, c 0x01, d 0x01, d 0x00, .delay 50, .cs true], []) := by decide
/-- V-SRC-1b: the roles of the map swap at an odd rotation without the hardware axis swap; the geometry swaps. -/
theorem test_setrot_swap :
    [1, 2, 5, 6, 7, 9].map (stateAfter (.setrot 1) (U240 0))
      = [some 1, some 0x014000F0, some 0x002B002B, some 0x002A002A, some 0x002B002A, some 0x20] := by decide
/-- V-RS-5: no geometry. -/
theorem test_setrot_zero : answer (.setrot 0) S0r
    = some ([.cs false, c 0x00, c 0x00, d 0x00, d 0x00, c 0x00, c 0x00, d 0x00, d 0x00, .cs true], [])
    ∧ stateAfter (.setrot 0) S0r 9 = some 0x40 := by decide
/-- V-RS-8: clipped. -/
theorem test_setwin_clipped : answer (.setwin (-5) 10 300 10) (U240 0)
    = some ([.cs false, c 0x00, c 0x2A, d 0x00, d 0x00, d 0x00, d 0xEF, c 0x00, c 0x2B, d 0x00, d 0x0A, d 0x00, d 0x0A,
        .cs true], []) := by decide
/-- V-RS-16: legacy. -/
theorem test_setwin_legacy : answer (.setwin 10 20 19 29) L240
    = some ([.cs false, c 0x00, c 0x20, d 0x00, d 0x0A, c 0x00, c 0x21, d 0x00, d 0x14, c 0x00, c 0x50, d 0x00, d 0x0A, c 0x00,
        c 0x51, d 0x00, d 0x13, c 0x00, c 0x52, d 0x00, d 0x14, c 0x00, c 0x53, d 0x00, d 0x1D, .cs true], []) := by decide
/-- V-RS-21: POLARITY_INV sends the opposite command, the request is recorded. -/
theorem test_invert_polarity : answer (.invert false) (U240 0x80) = some ([.cs false, c 0x00, c 0x21, .cs true], [])
    ∧ stateAfter (.invert false) (U240 0x80) 0x0C = some 0 := by decide
/-- V-RS-9: a negative offset. -/
theorem test_vscroll_negative : [0x0A, 0x0B].map (stateAfter (.vscroll 0 320 0xFFFF) (U240 0))
    = [some 0x00000140, some 0x0000013F] := by decide
/-- V-RS-24. -/
theorem test_vscroll : answer (.vscroll 20 280 300) (U240 0)
    = some ([.cs false, c 0x00, c 0x33, d 0x00, d 0x14, d 0x01, d 0x18, d 0x00, d 0x14, c 0x00, c 0x37, d 0x00, d 0x28,
        .cs true], []) := by decide
/-- V-PX-3: no memory-write command. -/
theorem test_pushpix : answer (.pushpix false [0xF800, 0x07E0, 0x001F]) (U240 0)
    = some ([.cs false, d 0xF8, d 0x00, d 0x07, d 0xE0, d 0x00, d 0x1F, .cs true], []) := by decide
/-- V-PX-7: the triplet wins over 555. -/
theorem test_pushpix_triplet : answer (.pushpix true [0x1234]) (U240 0x1800)
    = some ([.cs false, c 0x00, c 0x2C, d 0x10, d 0x44, d 0xA0, .cs true], []) := by decide
/-- V-PX-10. -/
theorem test_wrpix_legacy : answer (.wrpix 3 4 0x001F) L240
    = some ([.cs false, c 0x00, c 0x20, d 0x00, d 0x03, c 0x00, c 0x21, d 0x00, d 0x04, c 0x00, c 0x22, d 0x00, d 0x1F,
        .cs true], [])
    ∧ stateAfter (.wrpix 3 4 0x001F) L240 3 = some 0x00030004 := by decide
/-- V-PX-9: off-screen. -/
theorem test_wrpix_off : answer (.wrpix 0xFFFF 4 0x001F) (U240 0) = some ([], []) := by decide
/-- V-PX-11. -/
theorem test_rdpix : (answer (.rdpix 10 20 3 1) { U240 1 with samples := [0xEE, 0xF8, 0x00, 0x07, 0xE0, 0x00, 0x1F] }).map Prod.snd
    = some [0xF80007E0, 0x001F0000] := by decide
/-- V-PX-12: the samples under READ_ORDER_SWAP, BGR_READ, READ24, and both. -/
theorem test_sample_flags : decodeSample16 0x4 0x00 0xF8 = 0xF800 ∧ decodeSample16 0x8 0xF8 0x00 = 0x001F
    ∧ decodeSample24 0x2 0xFC 0x84 0x08 = 0xFC21 ∧ decodeSample24 0xA 0x08 0x84 0xFC = 0xFC21 := by decide
/-- V-PX-13: per-sample reads. -/
theorem test_rdpix_per_sample :
    (answer (.rdpix 5 6 2 1) { U240 0 with samples := [0xEE, 0x11, 0x11, 0xEE, 0x22, 0x22] }).map Prod.snd
    = some [0x11112222] := by decide
/-- V-CT-2: a DUMMY of 3 is stored as 2. -/
theorem test_wrcfg_caps : (match exec (.wrcfg 0x01 0xFFFFFFFF) State.reset with
    | .next t => cfgRead t.cfg 0x01
    | .fault _ => 0
    | .refused _ => 0) = 0x0006FFFF := by decide
/-- R322's example. -/
theorem test_rdcfg : answer (.rdcfg 0x01) State.reset = some ([], [0x00010000]) := by decide
/-- R323's example: after SETROT 1 on a 240 by 320 panel. -/
theorem test_rdstate : answer (.rdstate 0x02) { U240 0 with st := { resetSt with geomW := 320, geomH := 240 } }
    = some ([], [0x014000F0]) := by decide
/-- V-CT-7. -/
theorem test_clrstat : stateAfter .clrstat { S0r with st := { resetSt with ill := true } } 0 = some 0 := by decide
/-- V-CT-8: no bring-up, no chip select. -/
theorem test_delay : answer (.delay 150) State.reset = some ([.delay 150], [])
    ∧ answer (.delay 0) State.reset = some ([], []) := by decide
/-- V-CT-9. -/
theorem test_busreset : answer .busreset S0r = some ([.idle, .rst false, .delay 2, .rst true, .delay 150], []) := by decide

/-- An illegal frame: no trace, ILL set, even from the cold state (V-IL-1). -/
theorem test_step_illegal : (match step { State.reset with inbox := [.frame ⟨0x05000000, []⟩] } with
    | .next t => (t.trace, t.st.ill, t.st.busReady)
    | .fault _ => ([], false, false)
    | .refused _ => ([], false, false)) = ([], true, false) := by decide
/-- A step runs the instruction that withFetchWord places. -/
theorem test_step_withFetchWord : (match step (State.reset.withFetchWord 32 0x44000096) with
    | .next t => t.trace
    | .fault _ => []
    | .refused _ => []) = [.delay 150] := by decide

/-! ### Witnesses: concrete states and operands that meet the hypotheses of each statement -/

theorem witness_DecodeInvertsEncode : (Instr.wrregp 0xFFFE [0x11, 0x22, 0x33]).wellFormed = true := by decide

theorem witness_EncodeInvertsDecode :
    decode ⟨0x30010000, [0x00000001, 0xF8000000]⟩ = .ok (.pushpix true [0xF800]) := by decide

theorem witness_StepRunsTheDecodedRequest :
    ({ S0r with inbox := [.frame ⟨0x0100002C, []⟩, .reset] } : State).inbox = .frame ⟨0x0100002C, []⟩ :: [.reset]
    ∧ decode ⟨0x0100002C, []⟩ = .ok (.wrcmd 0x002C) := by decide

theorem witness_StepAlwaysGoesOn : State.reset.inbox = [] := by decide

/-- An unassigned opcode: no row of the map has it. -/
theorem witness_IllegalFrameIsDroppedWhole_illegal :
    ({ S0r with inbox := [.frame ⟨0x05000000, []⟩] } : State).inbox = .frame ⟨0x05000000, []⟩ :: []
    ∧ ¬ frameLegal ⟨0x05000000, []⟩ := by
  refine ⟨by decide, fun h => ?_⟩
  obtain ⟨row, hrow, hop, -⟩ := h.1
  have hrows : ∀ row ∈ opcodeRows, row.1.toNat ≠ 5 := by simp [opcodeRows]
  exact hrows row hrow hop

/-- ILL is set, and the next frame is another than CLRSTAT's. -/
theorem witness_IllegalFrameIsDroppedWhole_sticky :
    ∃ s t : State, s.inbox = .frame ⟨0, []⟩ :: [] ∧ (⟨0, []⟩ : Frame) ≠ ⟨0x43000000, []⟩ ∧ step s = .next t ∧ s.st.ill = true :=
  ⟨{ S0r with inbox := [.frame ⟨0, []⟩], st := { resetSt with ill := true } }, _, rfl, by decide, rfl, rfl⟩

theorem witness_IllegalFrameIsDroppedWhole_wellFormed :
    ∃ t, exec .clrstat S0r = .next t ∧ Instr.clrstat.wellFormed = true := ⟨_, rfl, rfl⟩

theorem witness_ResetInputAbortsAndResets_between : ({ S0r with inbox := [.reset] } : State).inbox = .reset :: [] := rfl

/-- The reset input after two of the four events of WRCMD. -/
theorem witness_ResetInputAbortsAndResets_during :
    ∃ s u : State, s.inbox = .resetDuring ⟨0x0100002C, []⟩ 2 :: [] ∧ step { s with inbox := [.frame ⟨0x0100002C, []⟩] } = .next u :=
  ⟨{ S0r with inbox := [.resetDuring ⟨0x0100002C, []⟩ 2] }, _, rfl, rfl⟩

theorem witness_BusRequestsAreTransactions : isBusRequest (.setwin 0 0 1 1) = true ∧ State.reset.pins.dir = .out := ⟨rfl, rfl⟩

theorem witness_PinsReplayTheTrace : ∃ t, exec (.wrcmd 0x002C) S0r = .next t := ⟨_, rfl⟩

theorem witness_ReadCyclesTakeTheSamplesInOrder : ∃ t, exec .rdword { S0r with samples := [0x93] } = .next t := ⟨_, rfl⟩

theorem witness_WidthIsTheOtherHeight :
    ∃ t u, exec (.setrot 2) (U240 0) = .next t ∧ exec (.setrot (2 ^^^ 1)) (U240 0) = .next u := ⟨_, _, rfl, rfl⟩

/-- Both branches of SETWIN at the right edge: column 239 is on screen, 240 is off. -/
theorem witness_SetwinClipsOrDoesNothing :
    (240 : Half).toInt ≥ ((U240 0).st.geomW.toNat : Int)
    ∧ ¬ ((U240 0).st.geomW.toNat = 0 ∨ (U240 0).st.geomH.toNat = 0 ∨ (239 : Half).toInt > (300 : Half).toInt
      ∨ (319 : Half).toInt > (319 : Half).toInt ∨ (300 : Half).toInt < 0 ∨ (319 : Half).toInt < 0
      ∨ (239 : Half).toInt ≥ ((U240 0).st.geomW.toNat : Int) ∨ (319 : Half).toInt ≥ ((U240 0).st.geomH.toNat : Int)) := by decide

/-- Both branches of VSCROLL: 20 + 300 lines fit a height of 320, 21 + 300 do not, and no lines do not. -/
theorem witness_VscrollSetsTheStartLine :
    ¬ ((300 : Half) = 0 ∨ (20 : Half).toNat + (300 : Half).toNat > (nativeH0 (U240 0).cfg).toNat)
    ∧ (21 : Half).toNat + (300 : Half).toNat > (nativeH0 (U240 0).cfg).toNat := by decide

theorem witness_WindowRoundTripRestoresState :
    0 < (U240 0).st.geomW.toNat ∧ (U240 0).st.geomW.toNat ≤ 2 ^ 15 ∧ 0 < (U240 0).st.geomH.toNat
    ∧ (U240 0).st.geomH.toNat ≤ 2 ^ 15 ∧ (U240 0).st.win = fullWindow (U240 0).st.geomW (U240 0).st.geomH := by decide

/-- Equal flags, and a colour whose bit 5 differs from its bit 10. -/
theorem witness_ColourCodecRoundTrips :
    capWireBgr 0x00008008 = capBgrRead 0x00008008 ∧ (0x041F : Half).getLsbD 5 ≠ (0x041F : Half).getLsbD 10 := by decide

/-- Both branches of WRPIX at the edges of the screen. -/
theorem witness_WrpixWritesOnePoint :
    (240 : Half).toInt ≥ (U240 0).st.geomW.toNat ∧ (0xFFFF : Half).toInt < 0
    ∧ ¬ ((239 : Half).toInt < 0 ∨ (319 : Half).toInt < 0 ∨ (239 : Half).toInt ≥ (U240 0).st.geomW.toNat
      ∨ (319 : Half).toInt ≥ (U240 0).st.geomH.toNat) := by decide

/-- No pixel; a rectangle one column past the edge. -/
theorem witness_RdpixOutsideReadsNothing :
    ((0 : Half) = 0 ∨ (5 : Half) = 0)
    ∧ ((2 : Half) ≠ 0 ∧ (1 : Half) ≠ 0 ∧ (239 : Half).toInt + (2 : Half).toNat > (U240 0).st.geomW.toNat) := by decide

/-- A rectangle that ends at the last pixel. -/
theorem witness_RdpixAutoincrementReadsInARow :
    cap (U240 1).cfg 0 = true ∧ (3 : Half) ≠ 0 ∧ (1 : Half) ≠ 0 ∧ 0 ≤ (237 : Half).toInt ∧ 0 ≤ (319 : Half).toInt
    ∧ (237 : Half).toInt + (3 : Half).toNat ≤ (U240 1).st.geomW.toNat
    ∧ (319 : Half).toInt + (1 : Half).toNat ≤ (U240 1).st.geomH.toNat := by decide

theorem witness_RdpixPerSampleReprogramsTheCursor :
    cap (U240 0).cfg 0 = false ∧ (3 : Half) ≠ 0 ∧ (1 : Half) ≠ 0 ∧ 0 ≤ (237 : Half).toInt ∧ 0 ≤ (319 : Half).toInt
    ∧ (237 : Half).toInt + (3 : Half).toNat ≤ (U240 0).st.geomW.toNat
    ∧ (319 : Half).toInt + (1 : Half).toNat ≤ (U240 0).st.geomH.toNat := by decide

/-- Two pixels of the vectors' chip, read in a row and one at a time. -/
theorem witness_BothReadPathsAnswerAlike :
    let g : Nat → List Byte := fun k => [0x11, BitVec.ofNat 8 k]
    let s : State := { U240 1 with samples := [0xEE, 0x11, 0x00, 0x11, 0x01] }
    let s' : State := { U240 0 with samples := [0xEE, 0x11, 0x00, 0xEE, 0x11, 0x01] }
    (∀ k, (g k).length = sampleBytes s.cfg) ∧ [(0xEE : Byte)].length = dummies s.cfg
    ∧ cap s.cfg 0 = true ∧ cap s'.cfg 0 = false ∧ (s.cfg.get 0x01) ^^^ 1 = s'.cfg.get 0x01
    ∧ s'.st.geomW = s.st.geomW ∧ s'.st.geomH = s.st.geomH ∧ s.resp = [] ∧ s'.resp = []
    ∧ s.samples = [0xEE] ++ (List.range ((2 : Half).toNat * (1 : Half).toNat)).flatMap g ++ []
    ∧ s'.samples = ((List.range ((2 : Half).toNat * (1 : Half).toNat)).flatMap fun k => [0xEE] ++ g k) ++ [] := by
  exact ⟨fun _ => rfl, by decide, by decide, by decide, by decide, rfl, rfl, rfl, rfl, by decide, by decide⟩

/-- A chip that stores one pixel and gives it back, on the 24-bit path, the 565 path and the 555 path. -/
theorem witness_PushedPixelsReadBack :
    let bytes (s : State) (colors : List Half) : List Byte := (colors.flatMap (pixelWrites s.cfg)).filterMap
      (fun e => match e with | .w true b => some b | _ => none)
    let s24 : State := { U240 0x803 with samples := [0xEE, 0x10, 0x44, 0xA0] }
    let s565 : State := { U240 1 with samples := [0xEE, 0x12, 0x34] }
    let s555 : State := { U240 0x1001 with samples := [0xEE, 0x09, 0x14] }
    (s24.samples = [0xEE] ++ bytes s24 [0x1234] ++ [] ∧ cap s24.cfg 0 = true ∧ cap s24.cfg 11 = true ∧ cap s24.cfg 1 = true
      ∧ cap s24.cfg 15 = cap s24.cfg 3)
    ∧ (s565.samples = [0xEE] ++ bytes s565 [0x1234] ++ [] ∧ cap s565.cfg 0 = true ∧ cap s565.cfg 11 = false
      ∧ cap s565.cfg 12 = false ∧ cap s565.cfg 1 = false ∧ cap s565.cfg 2 = false ∧ cap s565.cfg 3 = false)
    ∧ (s555.samples = [0xEE] ++ bytes s555 [0x1234] ++ [] ∧ cap s555.cfg 0 = true ∧ cap s555.cfg 11 = false
      ∧ cap s555.cfg 12 = true ∧ cap s555.cfg 1 = false ∧ cap s555.cfg 2 = false ∧ cap s555.cfg 3 = false)
    ∧ [(0xEE : Byte)].length = dummies s24.cfg ∧ [(0xEE : Byte)].length = dummies s565.cfg
    ∧ [(0xEE : Byte)].length = dummies s555.cfg ∧ [(0x1234 : Half)].length = (1 : Half).toNat * (1 : Half).toNat := by decide

/-- The last register, cfg CAPS, and the first reserved index. -/
theorem witness_WrcfgStoresDefinedBits :
    (0x1E : Byte).toNat = (30 : Fin 31) ∧ (0x01 : Byte).toNat = (0x01 : Fin 31) ∧ (0x1F : Byte).toNat > 0x1E := by decide

theorem witness_RdcfgRespondsWithTheRegister : (0x1E : Byte).toNat = (30 : Fin 31) ∧ (0x1F : Byte).toNat > 0x1E := by decide

theorem witness_RdstateRespondsWithTheFields :
    (0x0C : Byte).toNat ≤ 0x0C ∧ State.reset.pins.dir = .out ∧ (0x0D : Byte).toNat > 0x0C := ⟨by decide, rfl, by decide⟩

/-- A request that owns none of the registers. -/
theorem witness_RegistersChangeOnlyByTheirOwners :
    (∃ t, exec (.wrcmd 0) S0r = .next t) ∧ (∀ index v, Instr.wrcmd 0 ≠ .wrcfg index v) ∧ (∀ r, Instr.wrcmd 0 ≠ .setrot r)
    ∧ (∀ x0 y0 x1 y1, Instr.wrcmd 0 ≠ .setwin x0 y0 x1 y1) ∧ (∀ x y c, Instr.wrcmd 0 ≠ .wrpix x y c)
    ∧ (∀ x y w h, Instr.wrcmd 0 ≠ .rdpix x y w h) ∧ (∀ a b c, Instr.wrcmd 0 ≠ .vscroll a b c)
    ∧ (∀ on, Instr.wrcmd 0 ≠ .invert on) := by
  refine ⟨⟨_, rfl⟩, ?_, ?_, ?_, ?_, ?_, ?_, ?_⟩ <;> intros <;> exact nofun

theorem witness_ResponseLengthIsFixed : (Instr.rdreg40 0xBF).wellFormed = true ∧ ∃ t, exec (.rdreg40 0xBF) S0r = .next t :=
  ⟨rfl, _, rfl⟩

theorem witness_NoRequestReadsThePins :
    (∀ index, Instr.setrot 1 ≠ .rdstate index) ∧ ∃ t, exec (.setrot 1) (U240 0) = .next t := ⟨nofun, _, rfl⟩

/-- A configuration that differs in ID, TIMING and EXT_COORD. -/
theorem witness_UnreadRegistersHaveNoEffect :
    let s := U240 0
    let cfg : Cfg := ((s.cfg.set 0 0x9341).set 0x1C 0).set 1 0x00010440
    (∀ j : Fin 31, j ≠ 0x00 → j ≠ 0x01 → j ≠ 0x1C → cfg.get j = s.cfg.get j)
    ∧ cfg.get 0x01 ||| 0x40 = s.cfg.get 0x01 ||| 0x40 ∧ (∀ index, Instr.setrot 1 ≠ .rdcfg index)
    ∧ (∀ index v, Instr.setrot 1 ≠ .wrcfg index v) ∧ ∃ t, exec (.setrot 1) s = .next t :=
  ⟨by decide, by decide, nofun, nofun, _, rfl⟩

/-- The reset input in the middle of a request, from the cold state; and a read on a bus that is up. -/
theorem witness_BusStaysLegal :
    let s : State := { State.reset with inbox := [.resetDuring ⟨0x0100002C, []⟩ 7] }
    let s' : State := { U240 0 with trace := [.idle], inbox := [.frame ⟨0x04000000, []⟩] }
    (pinsAtRest s = true ∧ busLegal s = true ∧ ∃ t, step s = .next t)
    ∧ (pinsAtRest s' = true ∧ busLegal s' = true ∧ ∃ t, step s' = .next t ∧ t.pins.driven = true) :=
  ⟨⟨by decide, by decide, _, rfl⟩, by decide, by decide, _, rfl, rfl⟩

/-- A bring-up and a reset lie behind: the trace goes on, the pins are undriven, and the next request drives them again. -/
theorem witness_BusStaysLegal_after_reset :
    let s : State := { State.reset with trace := [.idle, .cs false, .w false 0x00], inbox := [.frame ⟨0x0100002C, []⟩] }
    s.pins.driven = false ∧ pinsAtRest s = true ∧ busLegal s = true ∧ ∃ t, step s = .next t ∧ t.pins.driven = true :=
  ⟨rfl, by decide, by decide, _, rfl, rfl⟩

theorem witness_CfgStaysLegal :
    let s : State := { State.reset with inbox := [.frame ⟨0x40010000, [0xFFFFFFFF]⟩] }
    cfgLegal s.cfg ∧ ∃ t, step s = .next t := ⟨by decide, _, rfl⟩

/-- The full screen before, a clipped window asked for. -/
theorem witness_WindowStaysInsideGeometry :
    let s : State := { U240 0 with inbox := [.frame ⟨0x21000000, [0xFFFB000A, 0x012C000A]⟩] }
    windowLegal s.st = true ∧ ∃ t, step s = .next t := ⟨by decide, _, rfl⟩

theorem witness_ScrollStaysInItsArea :
    let s : State := { U240 0 with inbox := [.frame ⟨0x23000000, [0x00140118, 0x0000FFFF]⟩] }
    scrollLegal s.st = true ∧ ∃ t, step s = .next t := ⟨by decide, _, rfl⟩

theorem witness_GeometryFollowsRotation :
    geometryFresh (U240 0) = true ∧ (∀ v, Instr.setrot 3 ≠ .wrcfg 0x02 v) ∧ ∃ t, exec (.setrot 3) (U240 0) = .next t :=
  ⟨by decide, nofun, _, rfl⟩

/-- A unified chip; a legacy chip with a single point; a legacy chip with a rectangle. -/
theorem witness_WindowByteCounts :
    (cap (U240 0).cfg 10 = true ∧ cap (U240 0).cfg 13 = false)
    ∧ (cap L240.cfg 10 = false ∧ (⟨3, 4, 3, 4⟩ : Window).x0 = (⟨3, 4, 3, 4⟩ : Window).x1
      ∧ (⟨3, 4, 3, 4⟩ : Window).y0 = (⟨3, 4, 3, 4⟩ : Window).y1)
    ∧ ¬ ((⟨3, 4, 3, 5⟩ : Window).x0 = (⟨3, 4, 3, 5⟩ : Window).x1 ∧ (⟨3, 4, 3, 5⟩ : Window).y0 = (⟨3, 4, 3, 5⟩ : Window).y1) := by
  decide

/-- SETWIN -5, 319, 0, 320: clipped to the left bottom corner. -/
theorem witness_WindowByteCounts_setwin :
    0 < (U240 0).st.geomW.toNat ∧ 0 < (U240 0).st.geomH.toNat ∧ (0xFFFB : Half).toInt ≤ (0 : Half).toInt
    ∧ (319 : Half).toInt ≤ (320 : Half).toInt ∧ 0 ≤ (0 : Half).toInt ∧ 0 ≤ (320 : Half).toInt
    ∧ (0xFFFB : Half).toInt < (U240 0).st.geomW.toNat ∧ (319 : Half).toInt < (U240 0).st.geomH.toNat := by decide

/-- The largest geometry of the statement. -/
theorem witness_FillEndsAtFullScreen :
    let s : State := { S0r with st := { resetSt with geomW := 0x8000, geomH := 0x8000 } }
    0 < s.st.geomW.toNat ∧ s.st.geomW.toNat ≤ 2 ^ 15 ∧ 0 < s.st.geomH.toNat ∧ s.st.geomH.toNat ≤ 2 ^ 15 := by decide

end Sys2Proof.Tests
end

section
/-! SUPPORT. What a request's part of the bus is made of: write cycles, waits, and read groups that switch the direction to IN and
back (R142 to R144, R326). Every script of the model has that form. -/

namespace Sys2Proof.Machine

/-- A switch to IN, the read cycles of some bytes, the switch back to OUT (R143, R144). -/
def readBurst (bs : List Byte) : List Event := .dir .inp :: (bs.map .r ++ [.dir .out])

/-- The events of a transaction's body: write cycles, waits, and bursts of read cycles. -/
inductive BodyScript : List Event → Prop
  | nil : BodyScript []
  | write (rs : Bool) (b : Byte) {es : List Event} (h : BodyScript es) : BodyScript (.w rs b :: es)
  | wait (ms : Nat) {es : List Event} (h : BodyScript es) : BodyScript (.delay ms :: es)
  | read {bs : List Byte} (hbs : bs ≠ []) {es : List Event} (h : BodyScript es) :
      BodyScript (readBurst bs ++ es)

namespace BodyScript

theorem append {a b : List Event} (ha : BodyScript a) (hb : BodyScript b) : BodyScript (a ++ b) := by
  induction ha with
  | nil => exact hb
  | write rs b _ ih => exact .write rs b ih
  | wait ms _ ih => exact .wait ms ih
  | read hbs _ ih => rw [List.append_assoc]; exact .read hbs ih

theorem flatMap {α : Type} {f : α → List Event} (h : ∀ x, BodyScript (f x)) (xs : List α) : BodyScript (xs.flatMap f) := by
  induction xs with
  | nil => exact .nil
  | cons x xs ih => exact (h x).append ih

/-- What R141 frames with chip select is every body that is not empty. -/
theorem framable {es : List Event} (h : BodyScript es) : Framable es := by
  cases h with
  | nil => exact framable_nil
  | write | wait => exact fun _ => rfl
  | read hbs =>
    obtain ⟨b, bs, rfl⟩ := List.exists_cons_of_ne_nil hbs
    exact fun _ => rfl

/-! ### Write-side scripts (R146, R170, R171, R326) -/

theorem writeCommand (w : Half) : BodyScript (writeCommand w) := .write _ _ (.write _ _ .nil)

theorem writeData (w : Half) : BodyScript (writeData w) := .write _ _ (.write _ _ .nil)

theorem writeData8 (b : Byte) : BodyScript (writeData8 b) := .write _ _ .nil

theorem writeRegister (cmd w : Half) : BodyScript (writeRegister cmd w) := (writeCommand cmd).append (writeData w)

theorem delayMs (n : Nat) : BodyScript (delayMs n) := by
  unfold Machine.delayMs
  split
  · exact .wait _ .nil
  · exact .nil

theorem paramsToIncrementing (cmd : Half) (params : List Byte) : BodyScript (paramsToIncrementing cmd params) := by
  induction params generalizing cmd with
  | nil => exact .nil
  | cons b bs ih => exact ((writeCommand cmd).append (writeData8 b)).append (ih (cmd + 1))

theorem writeRegisterParams (c : Cfg) (cmd : Half) (params : List Byte) : BodyScript (writeRegisterParams c cmd params) := by
  unfold Machine.writeRegisterParams
  split
  · cases params with
    | nil => exact writeCommand cmd
    | cons b bs => exact paramsToIncrementing cmd (b :: bs)
  · exact (writeCommand cmd).append (flatMap writeData8 params)

/-! ### Rotation, window, inversion and scroll (R222, R231, R232, R240, R246) -/

theorem writeControl (c : Cfg) (cb : Byte) : BodyScript (writeControl c cb) := by
  unfold Machine.writeControl
  split
  · split
    · exact (writeRegisterParams ..).append (writeRegisterParams ..)
    · exact writeRegisterParams ..
  · exact (writeRegister ..).append (writeRegister ..)

theorem writeWindowUnified (c : Cfg) (m : RegMap) (v : Window) : BodyScript (writeWindowUnified c m v) := by
  refine .append (.append ?_ (writeRegisterParams ..)) (writeRegisterParams ..)
  split
  · exact (writeRegisterParams ..).append (writeRegisterParams ..)
  · exact .nil

theorem writeBoundary (startReg endReg start fin : Half) : BodyScript (writeBoundary startReg endReg start fin) := by
  unfold Machine.writeBoundary
  split
  · exact writeRegister ..
  · exact (writeRegister ..).append (writeRegister ..)

theorem writeWindowLegacy (m : RegMap) (v : Window) (single : Bool) : BodyScript (writeWindowLegacy m v single) := by
  refine ((writeRegister ..).append (writeRegister ..)).append ?_
  split
  · exact .nil
  · exact (writeBoundary ..).append (writeBoundary ..)

theorem windowScript (c : Cfg) (st : StRegs) (win : Window) : BodyScript (windowScript c st win) := by
  unfold Machine.windowScript
  simp only []
  split
  · exact writeWindowUnified ..
  · exact writeWindowLegacy ..

theorem scrollScript (c : Cfg) (top lines vsp : Half) : BodyScript (scrollScript c top lines vsp) := by
  unfold Machine.scrollScript
  split
  · exact (writeRegisterParams ..).append (writeRegisterParams ..)
  · exact writeRegister ..

theorem invertScript (c : Cfg) (eff : Bool) : BodyScript (invertScript c eff) := by
  unfold Machine.invertScript
  split
  · exact writeCommand _
  · exact writeRegister ..

/-! ### Pixels and tables (R273, R280, R181 to R187) -/

theorem pixelWrite (caps : Word) (color : Half) : BodyScript (pixelWrite caps color) := flatMap writeData8 _

theorem pushScript (s : State) (first : Bool) (colors : List Half) : BodyScript (pushScript s first colors) := by
  refine .append ?_ (flatMap (pixelWrite _) colors)
  split
  · exact writeCommand _
  · exact .nil

theorem tableEntry8 (c : Cfg) (cmd n : Byte) (rest : List Byte) : BodyScript (tableEntry8 c cmd n rest).1 := by
  unfold Machine.tableEntry8
  split
  · exact delayMs _
  · split
    · exact delayMs _
    · exact writeRegisterParams ..

theorem runEntries8 (c : Cfg) (fuel : Nat) (table : List Byte) : BodyScript (runEntries8 c fuel table) := by
  fun_induction Machine.runEntries8 c fuel table with
  | case1 fuel cmd n rest script left h ih => exact .append (by simpa [h] using tableEntry8 c cmd n rest) ih
  | case2 => exact .nil

theorem runTable16 (c : Cfg) (pairs : List (Half × Half)) : BodyScript (runTable16 c pairs) := by
  refine flatMap (fun p => ?_) pairs
  unfold tableEntry16
  split
  · exact delayMs _
  · exact writeRegister ..

theorem inBracket (c : Cfg) (bracket : Bool) {es : List Event} (h : BodyScript es) : BodyScript (inBracket c bracket es) := by
  have prefixed : BodyScript (wakePrefix c) := ((writeCommand _).append (delayMs _)).append (writeRegisterParams ..)
  have suffixed : BodyScript (wakeSuffix c) := ((writeCommand _).append (delayMs _)).append (writeCommand _)
  unfold Machine.inBracket
  split
  · exact (prefixed.append h).append suffixed
  · exact h

/-! ### Reads (R143, R144) -/

theorem readBurst {bs : List Byte} (hbs : bs ≠ []) : BodyScript (readBurst bs) := by simpa using BodyScript.read hbs .nil

end BodyScript

theorem append_readBurst (a : List Event) (bs : List Byte) :
    a ++ readBurst bs = a ++ [Event.dir Dir.inp] ++ bs.map Event.r ++ [Event.dir Dir.out] := by simp [readBurst]

theorem upcoming_ne_nil (s : State) {n : Nat} (h : 0 < n) : upcoming s n ≠ [] :=
  List.ne_nil_of_length_pos (by simpa using h)

end Sys2Proof.Machine
end

section
/-! SUPPORT. What performing a request can do, said once: the body of every bus request, what its transaction leaves, and one inversion
lemma each for `exec`, `runFrame` and `step`. -/

namespace Sys2Proof.Machine

/-! ### The bodies of the bus requests (R141) -/

/-- What a bus request does inside its transaction, its response included; nothing for the requests of the control class. -/
def busBody : Instr → State → State
  | .wrcmd word, s => s.perform (writeCommand word)
  | .wrdata word, s => s.perform (writeData word)
  | .wrdata8 byte, s => s.perform (writeData8 byte)
  | .rdword, s => (readWordAlone s).2.respond [zext32 (readWordAlone s).1]
  | .wrreg cmd data, s => s.perform (writeRegister cmd data)
  | .wrregp cmd params, s => s.perform (writeRegisterParams s.cfg cmd params)
  | .rdreg addr index, s =>
    (readRegister addr index.toNat s).2.respond [zext32 (readRegister addr index.toNat s).1]
  | .rdreg32 addr, s => (readRegister32 addr s).2.respond [(readRegister32 addr s).1]
  | .rdreg40 addr, s =>
    (readRegister40 addr s).2.respond
      [((readRegister40 addr s).1.extractLsb' 32 8).setWidth 32, (readRegister40 addr s).1.extractLsb' 0 32]
  | .inittbl8 bracket table, s => s.perform (inBracket s.cfg bracket (runTable8 s.cfg table))
  | .inittbl16 bracket pairs, s => s.perform (inBracket s.cfg bracket (runTable16 s.cfg pairs))
  | .setrot r, s => setRotation r s
  | .setwin x0 y0 x1 y1, s => setWindow (s16 x0) (s16 y0) (s16 x1) (s16 y1) s
  | .invert on, s => setInversion on s
  | .vscroll top lines offset, s => vScroll top lines (s16 offset) s
  | .pushpix first colors, s => s.perform (pushScript s first colors)
  | .wrpix x y color, s => writePixelAt (s16 x) (s16 y) color s
  | .rdpix x y w h, s => readPixels (s16 x) (s16 y) w.toNat h.toNat s
  | .nop, s | .wrcfg _ _, s | .rdcfg _, s | .rdstate _, s | .clrstat, s | .delay _, s | .busreset, s => s

/-- Responding inside a transaction is responding after it. -/
theorem busRun_respond {α : Type} (body : State → α × State) (out : α → List Word) (s : State) :
    busRun (fun s => (body s).2.respond (out (body s).1)) s = (busTxn body s).2.respond (out (busTxn body s).1) := rfl

/-- Every request of the bus class is its body run as a bus transaction. -/
theorem exec_eq_busRun {i : Instr} (hi : isBusRequest i = true) (s : State) : exec i s = .next (busRun (busBody i) s) := by
  cases i with
  | nop | wrcfg | rdcfg | rdstate | clrstat | delay | busreset => cases hi
  | wrcmd | wrdata | wrdata8 | wrreg | wrregp | inittbl8 | inittbl16 | setrot | setwin | invert | vscroll | pushpix | wrpix
  | rdpix => rfl
  | rdword => exact congrArg Host.Outcome.next (busRun_respond readWordAlone (fun w => [zext32 w]) s).symm
  | rdreg addr index => exact congrArg Host.Outcome.next (busRun_respond (readRegister addr index.toNat) (fun w => [zext32 w]) s).symm
  | rdreg32 addr => exact congrArg Host.Outcome.next (busRun_respond (readRegister32 addr) (fun v => [v]) s).symm
  | rdreg40 addr =>
    exact congrArg Host.Outcome.next (busRun_respond (readRegister40 addr)
      (fun v => [(v.extractLsb' 32 8).setWidth 32, v.extractLsb' 0 32]) s).symm

/-- The state registers after SETROT r: window and scroll are reset too (R220 to R227). -/
def rotatedSt (c : Cfg) (st : StRegs) (r : BitVec 2) : StRegs :=
  { st with
    ctrl := controlByte c r
    amap := activeMap c r
    rot := r
    geomW := widthAt c r
    geomH := heightAt c r
    win := if 0 < (widthAt c r).toNat ∧ 0 < (heightAt c r).toNat then ⟨0, 0, widthAt c r - 1, heightAt c r - 1⟩ else ⟨0, 0, 0, 0⟩
    scrTop := 0
    scrLines := nativeH c
    vsp := 0 }

/-- The window is kept, or moved to one inside the geometry, start before end (R52). -/
def WindowMoved (st st' : StRegs) : Prop :=
  ∃ win, st' = { st with win := win }
    ∧ (win = st.win ∨ win.x0.toNat ≤ win.x1.toNat ∧ win.x1.toNat < st.geomW.toNat
      ∧ win.y0.toNat ≤ win.y1.toNat ∧ win.y1.toNat < st.geomH.toNat)

/-- The state registers that a bus request's body can leave, by request (R234, R220, R240, R246). -/
inductive RegsAfter (c : Cfg) (st : StRegs) : Instr → StRegs → Prop
  | same (i : Instr) : RegsAfter c st i st
  | setwin {x0 y0 x1 y1 : Half} {st' : StRegs} (moved : WindowMoved st st') : RegsAfter c st (.setwin x0 y0 x1 y1) st'
  | wrpix {x y color : Half} {st' : StRegs} (moved : WindowMoved st st') : RegsAfter c st (.wrpix x y color) st'
  | rdpix {x y w h : Half} {st' : StRegs} (moved : WindowMoved st st') : RegsAfter c st (.rdpix x y w h) st'
  | setrot (r : BitVec 2) : RegsAfter c st (.setrot r) (rotatedSt c st r)
  | invert (on : Bool) : RegsAfter c st (.invert on) { st with inv := on }
  | vscroll {top lines offset vsp : Half} (h : scrollStart (nativeH c) top lines (s16 offset) = some vsp) :
      RegsAfter c st (.vscroll top lines offset) { st with scrTop := top, scrLines := lines, vsp := vsp }

/-- From s to t a script was performed, and no configuration register changed. -/
structure Performed (s t : State) : Prop where
  events : ∃ es, BodyScript es ∧ t.trace = s.trace ++ es
  cfg : t.cfg = s.cfg

namespace Performed

theorem refl (s : State) : Performed s s := ⟨⟨[], .nil, by simp⟩, rfl⟩

theorem trans {s t u : State} (h : Performed s t) (h' : Performed t u) : Performed s u := by
  obtain ⟨⟨es, hes, ht⟩, hc⟩ := h
  obtain ⟨⟨es', hes', hu⟩, hc'⟩ := h'
  exact ⟨⟨es ++ es', hes.append hes', by simp [hu, ht]⟩, hc'.trans hc⟩

theorem perform (s : State) {es : List Event} (h : BodyScript es) : Performed s (s.perform es) := ⟨⟨es, h, rfl⟩, rfl⟩

theorem afterReads (s : State) (n : Nat) {es : List Event} (h : BodyScript es) : Performed s (afterReads s n es) :=
  ⟨⟨es, h, rfl⟩, rfl⟩

theorem respond {s t : State} (h : Performed s t) (ws : List Word) : Performed s (t.respond ws) := ⟨h.events, h.cfg⟩

theorem withSt {s t : State} (h : Performed s t) (st : StRegs) : Performed s { t with st := st } := ⟨h.events, h.cfg⟩

end Performed

/-! ### Reads -/

theorem readRegister_performed (addr : Half) (index : Nat) (s : State) :
    Performed s (readRegister addr index s).2 ∧ (readRegister addr index s).2.st = s.st := by
  rw [readRegister_eq, ← append_readBurst]
  exact ⟨.afterReads _ _ (.append (.writeCommand addr) (.readBurst (upcoming_ne_nil s (by omega)))), rfl⟩

theorem readRegister32_performed (addr : Half) (s : State) :
    Performed s (readRegister32 addr s).2 ∧ (readRegister32 addr s).2.st = s.st := by
  have h0 := readRegister_performed addr 0 s
  have h1 := readRegister_performed addr 1 (readRegister addr 0 s).2
  exact ⟨h0.1.trans h1.1, h1.2.trans h0.2⟩

theorem readRegister40_performed (addr : Half) (s : State) :
    Performed s (readRegister40 addr s).2 ∧ (readRegister40 addr s).2.st = s.st := by
  have h01 := readRegister32_performed addr s
  have h2 := readRegister_performed addr 2 (readRegister32 addr s).2
  exact ⟨h01.1.trans h2.1, h2.2.trans h01.2⟩

theorem readWordAlone_performed (s : State) : Performed s (readWordAlone s).2 ∧ (readWordAlone s).2.st = s.st := by
  have h : (readWordAlone s).2 = afterReads s 2 (readBurst [sampleAt s 0, sampleAt s 1]) := by
    simp [readWordAlone, readWord_eq, readBurst]
  rw [h]
  exact ⟨.afterReads _ _ (.readBurst (List.cons_ne_nil _ _)), rfl⟩

/-- Opening the GRAM for reading, n samples, and the switch back to OUT (R284, R285). -/
theorem gramRead_eq (n : Nat) (s : State) :
    (readSamples n (openGramRead s)).2.perform [.dir .out]
      = afterReads s (dummyReads (capsOf s.cfg) + sampleWidth (capsOf s.cfg) * n)
        (writeCommand (cfgLo s.cfg cfgGRAM_RD)
          ++ readBurst (upcoming s (dummyReads (capsOf s.cfg) + sampleWidth (capsOf s.cfg) * n))) := by
  rw [upcoming_add s (openGramRead s) _ _ (by simp [openGramRead_eq]) (by simp [openGramRead_eq])]
  simp [readSamples_eq, openGramRead_eq, readBurst]

theorem gramRead_performed {n : Nat} (hn : 0 < n) (s : State) :
    Performed s ((readSamples n (openGramRead s)).2.perform [.dir .out])
      ∧ ((readSamples n (openGramRead s)).2.perform [.dir .out]).st = s.st := by
  have hw : 0 < sampleWidth (capsOf s.cfg) := by unfold sampleWidth; split <;> decide
  have hpos : 0 < dummyReads (capsOf s.cfg) + sampleWidth (capsOf s.cfg) * n := Nat.add_pos_right _ (Nat.mul_pos hw hn)
  rw [gramRead_eq]
  exact ⟨.afterReads _ _ (.append (.writeCommand _) (.readBurst (upcoming_ne_nil s hpos))), rfl⟩

/-! ### Windows -/

theorem WindowMoved.refl (st : StRegs) : WindowMoved st st := ⟨st.win, rfl, .inl rfl⟩

theorem WindowMoved.trans {a b c : StRegs} (h : WindowMoved a b) (h' : WindowMoved b c) : WindowMoved a c := by
  obtain ⟨win, rfl, hwin⟩ := h
  obtain ⟨win', rfl, hkeep | hin⟩ := h'
  · exact ⟨win, by rw [hkeep], hwin⟩
  · exact ⟨win', rfl, .inr hin⟩

/-- From s to t a script was performed and at most the window moved. -/
def Painted (s t : State) : Prop := Performed s t ∧ WindowMoved s.st t.st

namespace Painted

theorem refl (s : State) : Painted s s := ⟨.refl s, .refl s.st⟩

theorem trans {s t u : State} (h : Painted s t) (h' : Painted t u) : Painted s u := ⟨h.1.trans h'.1, h.2.trans h'.2⟩

theorem of_st {s t : State} (h : Performed s t ∧ t.st = s.st) : Painted s t := ⟨h.1, h.2 ▸ .refl s.st⟩

theorem perform (s : State) {es : List Event} (h : BodyScript es) : Painted s (s.perform es) := of_st ⟨.perform s h, rfl⟩

theorem respond {s t : State} (h : Painted s t) (ws : List Word) : Painted s (t.respond ws) := ⟨h.1.respond ws, h.2⟩

theorem setWindow (x0 y0 x1 y1 : Int) (s : State) : Painted s (setWindow x0 y0 x1 y1 s) := by
  cases h : clipWindow s.st.geomW s.st.geomH x0 y0 x1 y1 with
  | none => rw [setWindow_none h]; exact refl s
  | some win =>
    rw [setWindow_some h]
    exact ⟨((Performed.refl s).withSt _).trans (.perform _ (.windowScript ..)), win, rfl, .inr (clipWindow_inside h)⟩

theorem writePixelAt (x y : Int) (color : Half) (s : State) : Painted s (writePixelAt x y color s) := by
  unfold Machine.writePixelAt
  split
  · exact refl s
  · exact (setWindow x y x y s).trans (perform _ (.append (.writeCommand _) (.pixelWrite _ color)))

theorem autoincRead (x y : Int) {w h : Nat} (hw : 0 < w) (hh : 0 < h) (s : State) : Painted s (autoincRead x y w h s).2 :=
  (setWindow ..).trans (of_st (gramRead_performed (Nat.mul_pos hw hh) _))

theorem readPoint (p : Int × Int) (s : State) : Painted s (readPoint p s).2 :=
  (setWindow ..).trans (of_st (gramRead_performed Nat.one_pos _))

theorem readPoints (ps : List (Int × Int)) (s : State) : Painted s (readPoints ps s).2 := by
  induction ps generalizing s with
  | nil => exact refl s
  | cons p ps ih => exact (readPoint p s).trans (ih _)

theorem readPixels (x y : Int) (w h : Nat) (s : State) : Painted s (readPixels x y w h s) := by
  unfold Machine.readPixels
  split
  · exact refl s
  next hpos =>
    split
    · exact (refl s).respond _
    · refine respond (.trans ?_ (setWindow ..)) _
      cases capAutoincRead (capsOf s.cfg) with
      | true => exact autoincRead x y (by omega) (by omega) s
      | false => exact readPoints _ s

end Painted

/-! ### Rotation -/

theorem resetWindow_performed (s : State) :
    Performed s (resetWindow s) ∧ (resetWindow s).st = { s.st with
      win := if 0 < s.st.geomW.toNat ∧ 0 < s.st.geomH.toNat then ⟨0, 0, s.st.geomW - 1, s.st.geomH - 1⟩ else ⟨0, 0, 0, 0⟩ } := by
  unfold resetWindow
  split
  next h =>
    rw [setFullWindow_of_pos h.1 h.2]
    exact ⟨((Performed.refl s).withSt _).trans (.perform _ (.windowScript ..)), rfl⟩
  next => exact ⟨(Performed.refl s).withSt _, rfl⟩

theorem resetScroll_performed (s : State) :
    Performed s (resetScroll s) ∧ (resetScroll s).st = { s.st with scrTop := 0, scrLines := nativeH s.cfg, vsp := 0 } := by
  rw [resetScroll_eq]
  refine ⟨((Performed.refl s).withSt _).trans (.perform _ ?_), rfl⟩
  split
  · exact .nil
  · exact .scrollScript ..

theorem setRotation_eq (r : BitVec 2) (s : State) : setRotation r s = resetScroll (resetWindow
    { s.perform (writeControl s.cfg (controlByte s.cfg r)) with st := { s.st with
      ctrl := controlByte s.cfg r, amap := activeMap s.cfg r, rot := r, geomW := widthAt s.cfg r, geomH := heightAt s.cfg r } }) :=
  rfl

theorem setRotation_performed (r : BitVec 2) (s : State) :
    Performed s (setRotation r s) ∧ (setRotation r s).st = rotatedSt s.cfg s.st r := by
  have hcontrol : Performed s (s.perform (writeControl s.cfg (controlByte s.cfg r))) := .perform s (.writeControl ..)
  rw [setRotation_eq]
  obtain ⟨hscroll, hscrollSt⟩ := resetScroll_performed (resetWindow _)
  obtain ⟨hwindow, hwindowSt⟩ := resetWindow_performed _
  refine ⟨((hcontrol.withSt _).trans hwindow).trans hscroll, ?_⟩
  rw [hscrollSt, hwindowSt, hwindow.cfg]
  rfl

/-! ### Every request -/

theorem performed_respond {i : Instr} {s t : State} (h : Performed s t ∧ t.st = s.st) (ws : List Word) :
    Performed s (t.respond ws) ∧ RegsAfter s.cfg s.st i (t.respond ws).st := by
  refine ⟨h.1.respond ws, ?_⟩
  rw [respond_st, h.2]
  exact .same i

/-- The body of every bus request performs a script, and changes the registers its request owns. -/
theorem busBody_performed (i : Instr) (s : State) : Performed s (busBody i s) ∧ RegsAfter s.cfg s.st i (busBody i s).st := by
  cases i with
  | nop | wrcfg | rdcfg | rdstate | clrstat | delay | busreset => exact ⟨.refl s, .same _⟩
  | wrcmd word => exact ⟨.perform s (.writeCommand word), .same _⟩
  | wrdata word => exact ⟨.perform s (.writeData word), .same _⟩
  | wrdata8 byte => exact ⟨.perform s (.writeData8 byte), .same _⟩
  | wrreg cmd data => exact ⟨.perform s (.writeRegister cmd data), .same _⟩
  | wrregp cmd params => exact ⟨.perform s (.writeRegisterParams s.cfg cmd params), .same _⟩
  | inittbl8 bracket table => exact ⟨.perform s (.inBracket _ bracket (.runEntries8 ..)), .same _⟩
  | inittbl16 bracket pairs => exact ⟨.perform s (.inBracket _ bracket (.runTable16 _ pairs)), .same _⟩
  | pushpix first colors => exact ⟨.perform s (.pushScript s first colors), .same _⟩
  | rdword => exact performed_respond (readWordAlone_performed s) _
  | rdreg addr index => exact performed_respond (readRegister_performed addr index.toNat s) _
  | rdreg32 addr => exact performed_respond (readRegister32_performed addr s) _
  | rdreg40 addr => exact performed_respond (readRegister40_performed addr s) _
  | setrot r =>
    obtain ⟨hp, hst⟩ := setRotation_performed r s
    exact ⟨hp, hst ▸ .setrot r⟩
  | setwin x0 y0 x1 y1 =>
    obtain ⟨hp, hmoved⟩ := Painted.setWindow (s16 x0) (s16 y0) (s16 x1) (s16 y1) s
    exact ⟨hp, .setwin hmoved⟩
  | wrpix x y color =>
    obtain ⟨hp, hmoved⟩ := Painted.writePixelAt (s16 x) (s16 y) color s
    exact ⟨hp, .wrpix hmoved⟩
  | rdpix x y w h =>
    obtain ⟨hp, hmoved⟩ := Painted.readPixels (s16 x) (s16 y) w.toNat h.toNat s
    exact ⟨hp, .rdpix hmoved⟩
  | invert on => exact ⟨((Performed.refl s).withSt _).trans (.perform _ (.invertScript ..)), .invert on⟩
  | vscroll top lines offset =>
    simp only [busBody]
    cases h : scrollStart (nativeH s.cfg) top lines (s16 offset) with
    | none => rw [vScroll_none h]; exact ⟨.refl s, .same _⟩
    | some vsp =>
      rw [vScroll_some h]
      exact ⟨((Performed.refl s).withSt _).trans (.perform _ (.scrollScript ..)), .vscroll h⟩

/-- A bus request went from s to t: bring-up if needed, then a script in one chip selection; the configuration is kept, BUSREADY is set,
and of the other state registers those the request owns can change (R141). -/
structure BusRan (i : Instr) (s t : State) : Prop where
  events : ∃ es, BodyScript es ∧ t.trace = s.trace ++ busTrace s es ∧ t.pins = (busTrace s es).foldl Pins.after s.pins
  cfg : t.cfg = s.cfg
  regs : RegsAfter s.cfg { s.st with busReady := true } i t.st

theorem busRun_ran (i : Instr) (s : State) : BusRan i s (busRun (busBody i) s) := by
  obtain ⟨⟨⟨es, hes, htrace⟩, hcfg⟩, hregs⟩ := busBody_performed i (bodyStart s)
  rw [bodyStart_trace, List.nil_append] at htrace
  rw [bodyStart_cfg] at hcfg hregs
  rw [bodyStart_st] at hregs
  obtain ⟨-, ht, hp, hst, hc, -⟩ := busTxn_leaves (fun s => ((), busBody i s)) s (by simpa [htrace] using hes.framable)
  rw [htrace] at ht hp
  exact ⟨⟨es, hes, ht, hp⟩, hc.trans hcfg, by rw [← hst] at hregs; exact hregs⟩

/-- What performing a request can lead to: the inversion of `exec`. -/
inductive ExecTo (s : State) : Instr → State → Prop
  | bus {i : Instr} {t : State} (hi : isBusRequest i = true) (ran : BusRan i s t) : ExecTo s i t
  | nop : ExecTo s .nop s
  | wrcfg {index : Byte} {k : Fin 31} (v : Word) (hk : cfgIndex index = some k) : ExecTo s (.wrcfg index v) (writeCfg k v s)
  | wrcfgReserved {index : Byte} (v : Word) (hk : cfgIndex index = none) : ExecTo s (.wrcfg index v) (raiseIllegal s)
  | rdcfg {index : Byte} {k : Fin 31} (hk : cfgIndex index = some k) : ExecTo s (.rdcfg index) (s.respond [cfgRead s.cfg k])
  | rdcfgReserved {index : Byte} (hk : cfgIndex index = none) : ExecTo s (.rdcfg index) (raiseIllegal s)
  | rdstate {index : Byte} (hindex : index.toNat ≤ maxStIndex) :
      ExecTo s (.rdstate index) (s.respond [stRead s.st s.pins index.toNat])
  | rdstateReserved {index : Byte} (hindex : index.toNat > maxStIndex) : ExecTo s (.rdstate index) (raiseIllegal s)
  | clrstat : ExecTo s .clrstat (clearIllegal s)
  | delay (ms : Half) : ExecTo s (.delay ms) (s.perform (delayMs ms.toNat))
  | busreset : ExecTo s .busreset (bringUp s)

theorem exec_to {i : Instr} {s t : State} (h : exec i s = .next t) : ExecTo s i t := by
  by_cases hi : isBusRequest i = true
  · rw [exec_eq_busRun hi] at h
    cases h
    exact .bus hi (busRun_ran i s)
  cases i with
  | wrcmd | wrdata | wrdata8 | rdword | wrreg | wrregp | rdreg | rdreg32 | rdreg40 | inittbl8 | inittbl16 | setrot | setwin
  | invert | vscroll | pushpix | wrpix | rdpix => exact absurd rfl hi
  | nop => cases h; exact .nop
  | clrstat => cases h; exact .clrstat
  | delay ms => cases h; exact .delay ms
  | busreset => cases h; exact .busreset
  | wrcfg index v =>
    simp only [exec, execWrcfg] at h
    split at h
    next hk => cases h; exact .wrcfgReserved v hk
    next hk => cases h; exact .wrcfg v hk
  | rdcfg index =>
    simp only [exec, execRdcfg] at h
    split at h
    next hk => cases h; exact .rdcfgReserved hk
    next hk => cases h; exact .rdcfg hk
  | rdstate index =>
    simp only [exec, execRdstate] at h
    split at h
    next hindex => cases h; exact .rdstateReserved hindex
    next hindex => cases h; exact .rdstate (Nat.le_of_not_gt hindex)

/-- A frame is dropped whole or its request is performed (R341, R110). -/
theorem runFrame_to {f : Frame} {s t : State} (h : runFrame f s = .next t) :
    t = raiseIllegal s ∨ ∃ i, decode f = .ok i ∧ exec i s = .next t := by
  unfold runFrame at h
  split at h
  · cases h; exact .inl rfl
  next i hi => exact .inr ⟨i, hi, h⟩

/-- What one step can do: wait, perform a frame, be reset, or be reset in the middle of a frame's request (R88, R370, R371). -/
inductive StepTo (s : State) : State → Prop
  | wait (hin : s.inbox = []) : StepTo s s
  | frame {f : Frame} {rest : List Input} (hin : s.inbox = .frame f :: rest) {t : State}
      (h : runFrame f (s.accept rest) = .next t) : StepTo s t
  | reset {rest : List Input} (hin : s.inbox = .reset :: rest) : StepTo s (resetInput (s.accept rest))
  | cut {f : Frame} {k : Nat} {rest : List Input} (hin : s.inbox = .resetDuring f k :: rest) {u : State}
      (h : runFrame f (s.accept rest) = .next u) : StepTo s (cutByReset k (s.accept rest) u)

theorem step_to {s t : State} (h : step s = .next t) : StepTo s t := by
  unfold step at h
  split at h
  next hin => cases h; exact .wait hin
  next i rest hin =>
    cases i with
    | frame f => exact .frame hin h
    | reset => cases h; exact .reset hin
    | resetDuring f k =>
      simp only [runInput, runFrameCut] at h
      split at h <;> cases h
      next u hu => exact .cut hin hu

/-- A property of the registers that reset meets and every request keeps holds after every step. -/
theorem step_keeps_registers {P : Cfg → StRegs → Prop} (hreset : P resetCfg resetSt)
    (hill : ∀ c st, P c st → P c { st with ill := true })
    (hexec : ∀ i s t, P s.cfg s.st → exec i s = .next t → P t.cfg t.st)
    {s t : State} (hs : P s.cfg s.st) (h : step s = .next t) : P t.cfg t.st := by
  cases step_to h with
  | wait => exact hs
  | reset | cut => exact hreset
  | @frame f rest _ _ hf =>
    obtain rfl | ⟨i, -, hi⟩ := runFrame_to hf
    · exact hill _ _ hs
    · exact hexec i (s.accept rest) t hs hi

end Sys2Proof.Machine
end

section
/-! SUPPORT. A request's events keep the bus legal: what a script and bring-up do to the pins and to a watcher of the bus (R31, R142 to
R145, R372), and the settled statement `BusStaysLegal`. -/

namespace Sys2Proof.Machine

/-! ### Scripts inside a chip selection -/

/-- Driven pins at their idle levels (R31). -/
def idlePins (dout : Byte) : Pins := ⟨true, .out, dout, true, true, true, true, true⟩

/-- Driven pins inside a chip selection, between two cycles. -/
def selectedPins (d : Dir) (rs : Bool) (dout : Byte) : Pins := ⟨true, d, dout, false, rs, true, true, true⟩

theorem readCycles_pins (bs : List Byte) (rs : Bool) (dout : Byte) :
    ∃ rs', (bs.map Event.r).foldl Pins.after (selectedPins .inp rs dout) = selectedPins .inp rs' dout := by
  induction bs generalizing rs with
  | nil => exact ⟨rs, rfl⟩
  | cons b bs ih => exact ih true

theorem readBurst_pins (bs : List Byte) (rs : Bool) (dout : Byte) :
    ∃ rs', (readBurst bs).foldl Pins.after (selectedPins .out rs dout) = selectedPins .out rs' dout := by
  obtain ⟨rs', hread⟩ := readCycles_pins bs rs dout
  refine ⟨rs', ?_⟩
  rw [readBurst, List.foldl_cons, List.foldl_append]
  exact congrArg (fun p => Pins.after p (.dir .out)) hread

/-- A script moves RS and the data lanes, and nothing else once it is over. -/
theorem BodyScript.pins {es : List Event} (h : BodyScript es) (rs : Bool) (dout : Byte) :
    ∃ rs' dout', es.foldl Pins.after (selectedPins .out rs dout) = selectedPins .out rs' dout' := by
  induction h generalizing rs dout with
  | nil => exact ⟨rs, dout, rfl⟩
  | write rs' b _ ih => exact ih rs' b
  | wait _ _ ih => exact ih rs dout
  | @read bs _ es _ ih =>
    obtain ⟨rs', hread⟩ := readBurst_pins bs rs dout
    rw [List.foldl_append, hread]
    exact ih rs' dout

theorem readCycles_run (bs : List Byte) : BusView.run ⟨true, false, .inp⟩ (bs.map .r) = some ⟨true, false, .inp⟩ := by
  induction bs with
  | nil => rfl
  | cons b bs ih => exact ih

theorem readBurst_run (bs : List Byte) : BusView.run ⟨true, false, .out⟩ (readBurst bs) = some ⟨true, false, .out⟩ := by
  have hback : BusView.run ⟨true, false, .inp⟩ (bs.map Event.r ++ [Event.dir Dir.out]) = some ⟨true, false, .out⟩ := by
    rw [BusView.run_append, readCycles_run]
    rfl
  exact hback

/-- Inside a selection a script breaks no rule of the bus, and leaves the direction at OUT. -/
theorem BodyScript.run {es : List Event} (h : BodyScript es) :
    BusView.run ⟨true, false, .out⟩ es = some ⟨true, false, .out⟩ := by
  induction h with
  | nil => rfl
  | write _ _ _ ih | wait _ _ ih => exact ih
  | @read bs _ es _ ih =>
    rw [BusView.run_append, readBurst_run]
    exact ih

/-! ### Bring-up and whole transactions -/

/-- Bring-up leaves the pins driven and idle, whatever they were (R372). -/
theorem bringUpScript_pins (c : Cfg) (p : Pins) : (bringUpScript c).foldl Pins.after p = idlePins p.dout := by
  unfold bringUpScript delayMs
  simp only []
  split_ifs <;> rfl

/-- Bring-up breaks no rule of the bus, whatever the watcher knew (R372). -/
theorem bringUpScript_run (c : Cfg) (v : BusView) : v.run (bringUpScript c) = some ⟨true, true, .out⟩ := by
  unfold bringUpScript delayMs
  simp only []
  split_ifs <;> rfl

/-- A watcher's view agrees with the pins, as far as they are driven. -/
def BusView.Agrees (v : BusView) (p : Pins) : Prop := p.driven = true → v = ⟨true, p.csN, p.dir⟩

theorem isIdle_iff {p : Pins} (hdriven : p.driven = true) : p.isIdle = true ↔ p = idlePins p.dout := by
  obtain ⟨driven, dir, dout, csN, rs, wrN, rdN, rstN⟩ := p
  cases hdriven
  simp only [Pins.isIdle, idlePins, Bool.and_eq_true, beq_iff_eq, Pins.mk.injEq, true_and]
  tauto

theorem pinsAtRest_iff {s : State} : pinsAtRest s = true ↔
    (s.pins.driven = true → s.pins = idlePins s.pins.dout) ∧ (s.st.busReady = true → s.pins.driven = true) ∧ s.pins.dir = .out := by
  unfold pinsAtRest
  cases hd : s.pins.driven with
  | false => simp
  | true => simp [isIdle_iff hd]

theorem busLegal_iff {s : State} : busLegal s = true ↔ ∃ v, BusView.start.run s.trace = some v ∧ v.Agrees s.pins := by
  unfold busLegal BusView.Agrees
  cases h : BusView.start.run s.trace with
  | none => simp
  | some v =>
    obtain ⟨driven, csN, dir⟩ := v
    cases hd : s.pins.driven with
    | false => simp
    | true => simp [and_assoc]

theorem BusView.agrees_ofPins (p : Pins) : (BusView.ofPins p).Agrees p := fun h => BusView.ofPins_driven h

/-- Before a transaction's body: the bus is brought up if it was not ready (R141). -/
theorem readyEvents_legal {s : State} (hrest : pinsAtRest s = true) {v : BusView} (hv : v.Agrees s.pins) :
    v.run (if s.st.busReady then [] else bringUpScript s.cfg) = some ⟨true, true, .out⟩
      ∧ (if s.st.busReady then [] else bringUpScript s.cfg).foldl Pins.after s.pins = idlePins s.pins.dout := by
  obtain ⟨hidle, hready, -⟩ := pinsAtRest_iff.mp hrest
  split
  next hb =>
    have hp := hidle (hready hb)
    refine ⟨?_, hp⟩
    rw [hp] at hv
    exact congrArg some (hv rfl)
  next => exact ⟨bringUpScript_run s.cfg v, bringUpScript_pins s.cfg s.pins⟩

/-- A script framed with chip select leaves the pins idle and breaks no rule of the bus (R141, R145). -/
theorem selection_legal {es : List Event} (hes : BodyScript es) (dout : Byte) :
    BusView.run ⟨true, true, .out⟩ (if es = [] then [] else [Event.cs false] ++ es ++ [Event.cs true]) = some ⟨true, true, .out⟩
      ∧ ∃ dout', (if es = [] then [] else [Event.cs false] ++ es ++ [Event.cs true]).foldl Pins.after (idlePins dout)
        = idlePins dout' := by
  split
  · exact ⟨rfl, dout, rfl⟩
  · obtain ⟨rs, dout', hpins⟩ := hes.pins true dout
    have hrun : (BusView.run ⟨true, false, .out⟩ es).bind (fun u => u.run [.cs true]) = some ⟨true, true, .out⟩ := by
      rw [hes.run]; rfl
    refine ⟨?_, dout', ?_⟩
    · rw [BusView.run_append, BusView.run_append, Option.bind_assoc]
      exact hrun
    · rw [List.foldl_append, List.foldl_append]
      exact congrArg (fun p => Pins.after p (.cs true)) hpins

theorem busTrace_legal {s : State} (hrest : pinsAtRest s = true) {es : List Event} (hes : BodyScript es) :
    (∀ v : BusView, v.Agrees s.pins → v.run (busTrace s es) = some ⟨true, true, .out⟩)
      ∧ ∃ dout, (busTrace s es).foldl Pins.after s.pins = idlePins dout := by
  obtain ⟨hsel, dout, hpins⟩ := selection_legal hes s.pins.dout
  constructor
  · intro v hv
    rw [busTrace, BusView.run_append, (readyEvents_legal hrest hv).1]
    exact hsel
  · refine ⟨dout, ?_⟩
    rw [busTrace, List.foldl_append, (readyEvents_legal hrest (BusView.agrees_ofPins _)).2]
    exact hpins

/-! ### Every step -/

/-- From s to t the pins are left at rest, and any watcher who agreed with the pins sees only legal events and agrees with them again. -/
def BusKept (s t : State) : Prop :=
  pinsAtRest t = true
    ∧ ∃ es, t.trace = s.trace ++ es ∧ ∀ v : BusView, v.Agrees s.pins → ∃ u, v.run es = some u ∧ u.Agrees t.pins

/-- The bus is kept where the pins and BUSREADY stay as they are and at most a wait is added. -/
theorem busKept_of_waits {s t : State} (hrest : pinsAtRest s = true) (hpins : t.pins = s.pins)
    (hready : t.st.busReady = s.st.busReady) {n : Nat} (htrace : t.trace = s.trace ++ delayMs n) : BusKept s t := by
  refine ⟨?_, delayMs n, htrace, fun v hv => ⟨v, ?_, hpins ▸ hv⟩⟩
  · simpa [pinsAtRest, hpins, hready] using hrest
  · unfold delayMs; split <;> rfl

/-- The bus is kept where legal events end with the pins idle. -/
theorem busKept_of_idle {s t : State} {es : List Event} (htrace : t.trace = s.trace ++ es) {dout : Byte}
    (hpins : t.pins = idlePins dout) (hrun : ∀ v : BusView, v.Agrees s.pins → v.run es = some ⟨true, true, .out⟩) :
    BusKept s t := by
  refine ⟨?_, es, htrace, fun v hv => ⟨_, hrun v hv, ?_⟩⟩
  · rw [pinsAtRest_iff, hpins]; exact ⟨fun _ => rfl, fun _ => rfl, rfl⟩
  · rw [hpins]; exact fun _ => rfl

theorem exec_busKept {i : Instr} {s t : State} (hrest : pinsAtRest s = true) (h : exec i s = .next t) : BusKept s t := by
  cases exec_to h with
  | bus _ ran =>
    obtain ⟨es, hes, htrace, hpins⟩ := ran.events
    obtain ⟨hrun, dout, hidle⟩ := busTrace_legal hrest hes
    exact busKept_of_idle htrace (hpins.trans hidle) hrun
  | busreset => exact busKept_of_idle rfl (bringUpScript_pins s.cfg s.pins) fun v _ => bringUpScript_run s.cfg v
  | delay ms => exact busKept_of_waits hrest (by unfold delayMs; split <;> rfl) rfl rfl
  | nop | wrcfg | wrcfgReserved | rdcfg | rdcfgReserved | rdstate | rdstateReserved | clrstat =>
    exact busKept_of_waits hrest rfl rfl (n := 0) (List.append_nil _).symm

theorem runFrame_busKept {f : Frame} {s t : State} (hrest : pinsAtRest s = true) (h : runFrame f s = .next t) : BusKept s t := by
  obtain rfl | ⟨i, -, hi⟩ := runFrame_to h
  · exact busKept_of_waits hrest rfl rfl (n := 0) (List.append_nil _).symm
  · exact exec_busKept hrest hi

/-- A reset leaves the pins undriven, so whatever legal events came before it the bus is kept (R32, R370). -/
theorem busKept_of_reset {s : State} (u : State) {es : List Event} (htrace : u.trace = s.trace ++ es)
    (hrun : ∀ v : BusView, v.Agrees s.pins → ∃ w, v.run es = some w) : BusKept s (resetInput u) := by
  refine ⟨rfl, es, htrace, fun v hv => ?_⟩
  obtain ⟨w, hw⟩ := hrun v hv
  exact ⟨w, hw, nofun⟩

theorem step_busKept {s t : State} (hrest : pinsAtRest s = true) (h : step s = .next t) : BusKept s t := by
  cases step_to h with
  | wait => exact busKept_of_waits hrest rfl rfl (n := 0) (List.append_nil _).symm
  | frame _ hf => exact runFrame_busKept (s := s.accept _) hrest hf
  | @reset rest => exact busKept_of_reset (s.accept rest) (List.append_nil _).symm fun v _ => ⟨v, rfl⟩
  | @cut _ k _ _ _ hf =>
    obtain ⟨-, es, htrace, hrun⟩ := runFrame_busKept (s := s.accept _) hrest hf
    refine busKept_of_reset (es := es.take k) _ (by simp [htrace]) fun v hv => ?_
    obtain ⟨w, hw, -⟩ := hrun v hv
    exact BusView.run_take k hw

/-- Settles O50: every step keeps the bus for every watcher who agrees with the pins, and so for the one who has seen the whole trace
and for the one who is told of every reset. -/
theorem busStaysLegal : Obligations.BusStaysLegal := by
  intro s t hrest hlegal h
  obtain ⟨hrest', es, htrace, hrun⟩ := step_busKept hrest h
  obtain ⟨v, hv, hagrees⟩ := busLegal_iff.mp hlegal
  refine ⟨hrest', busLegal_iff.mpr ?_, es, ?_⟩
  · obtain ⟨u, hu, hagrees'⟩ := hrun v hagrees
    exact ⟨u, by rw [htrace, BusView.run_append, hv]; exact hu, hagrees'⟩
  · obtain ⟨u, hu, hagrees'⟩ := hrun _ (BusView.agrees_ofPins s.pins)
    exact ⟨u, htrace, hu, fun hd => (hagrees' hd).trans (BusView.ofPins_driven hd).symm⟩

end Sys2Proof.Machine
end

section
/-! SUPPORT. The registers: what reset leaves, and what every step keeps of the configuration, the window and the geometry (R35 to R37,
R51, R52, R321), with the settled statements about them. -/

namespace Sys2Proof.Machine

/-! ### Reset -/

/-- Settles O9, by evaluation of the reset state. -/
theorem resetValuesAsListed : Obligations.ResetValuesAsListed := ⟨rfl, by decide, rfl, rfl⟩

/-- Settles O42, by evaluation of the 31 masks. -/
theorem definedMasksAsListed : Obligations.DefinedMasksAsListed := by
  unfold Obligations.DefinedMasksAsListed
  decide

theorem resetCfg_legal : cfgLegal resetCfg := by decide

theorem resetSt_windowLegal : windowLegal resetSt = true := by decide

/-- Settles O49, part by part. -/
theorem resetIsSafe : Obligations.ResetIsSafe :=
  ⟨⟨rfl, rfl, resetCfg_legal, resetSt_windowLegal, by decide⟩, by decide⟩

/-! ### Configuration registers (R35, R37, R321) -/

theorem exec_cfg {i : Instr} {s t : State} (h : exec i s = .next t) :
    t.cfg = s.cfg ∨ ∃ index v k, i = .wrcfg index v ∧ cfgIndex index = some k ∧ t.cfg = s.cfg.set k (cfgStored k v) := by
  cases exec_to h with
  | bus _ ran => exact .inl ran.cfg
  | @wrcfg index k v hk => exact .inr ⟨index, v, k, rfl, hk, rfl⟩
  | nop | wrcfgReserved | rdcfg | rdcfgReserved | rdstate | rdstateReserved | clrstat | delay | busreset => exact .inl rfl

theorem legalCaps_undefined {v m : Word} (h : v &&& ~~~m = 0) : legalCaps v &&& ~~~m = 0 := by
  unfold legalCaps
  split
  · rw [BitVec.and_assoc, BitVec.and_comm _ (~~~m), ← BitVec.and_assoc, h]
    exact BitVec.zero_and
  · exact h

theorem cfgStored_undefined (i : Fin 31) (v : Word) : cfgStored i v &&& ~~~definedMask i = 0 := by
  have h : v &&& definedMask i &&& ~~~definedMask i = 0 := by
    rw [BitVec.and_assoc, BitVec.and_not_self]
    exact BitVec.and_zero
  unfold cfgStored
  split
  · exact legalCaps_undefined h
  · exact h

/-- A DUMMY of 3 is stored as 2 (R37). -/
theorem capDummy_legalCaps (v : Word) : capDummy (legalCaps v) ≤ 2 := by
  unfold legalCaps
  split
  next h =>
    have hfield : (v &&& ~~~(0x00010000 : Word)).extractLsb' 16 2 = v.extractLsb' 16 2 &&& 2 := by
      rw [BitVec.extractLsb'_and]; rfl
    have h3 : v.extractLsb' 16 2 = 3 := BitVec.eq_of_toNat_eq h
    rw [capDummy, hfield, h3]
    decide
  next h =>
    have hlt : capDummy v < 4 := (v.extractLsb' 16 2).isLt
    omega

theorem cfgLegal_set {c : Cfg} (h : cfgLegal c) (i : Fin 31) (v : Word) : cfgLegal (c.set i (cfgStored i v)) := by
  obtain ⟨hundef, hdummy⟩ := h
  constructor
  · intro j
    rw [cfgRead_set]
    split
    next hj => exact hj ▸ cfgStored_undefined i v
    next => exact hundef j
  · rw [capsOf, cfgRead_set]
    split
    next hi =>
      rw [cfgStored, if_pos hi.symm]
      exact capDummy_legalCaps _
    next => exact hdummy

/-- Settles O51: only WRCFG writes a configuration register, and it stores a legal value. -/
theorem cfgStaysLegal : Obligations.CfgStaysLegal := by
  intro s t hs h
  refine step_keeps_registers (P := fun c _ => cfgLegal c) resetCfg_legal (fun _ _ h => h) ?_ hs h
  intro i s t hs h
  obtain hc | ⟨-, v, k, -, -, hc⟩ := exec_cfg h
  · exact hc ▸ hs
  · exact hc ▸ cfgLegal_set hs k v

/-! ### The window (R52) -/

theorem windowLegal_moved {st st' : StRegs} (h : windowLegal st = true) (moved : WindowMoved st st') : windowLegal st' = true := by
  obtain ⟨win, rfl, rfl | hin⟩ := moved
  · exact h
  · have hgeom : 0 < st.geomW.toNat ∧ 0 < st.geomH.toNat := by omega
    simpa [windowLegal, hgeom] using hin

theorem windowLegal_rotated (c : Cfg) (st : StRegs) (r : BitVec 2) : windowLegal (rotatedSt c st r) = true := by
  unfold windowLegal rotatedSt
  simp only []
  split
  next h =>
    obtain ⟨hw, hh⟩ := h
    have hsub (v : Half) (hv : 0 < v.toNat) : (v - 1).toNat < v.toNat := by bv_omega
    simpa [hw, hh] using ⟨hsub _ hw, hsub _ hh⟩
  next => simp

theorem RegsAfter.windowLegal {c : Cfg} {i : Instr} {st st' : StRegs} (h : windowLegal st = true)
    (regs : RegsAfter c st i st') : windowLegal st' = true := by
  cases regs with
  | same | invert | vscroll => exact h
  | setwin moved | wrpix moved | rdpix moved => exact windowLegal_moved h moved
  | setrot r => exact windowLegal_rotated c st r

theorem exec_windowLegal {i : Instr} {s t : State} (hs : windowLegal s.st = true) (h : exec i s = .next t) :
    windowLegal t.st = true := by
  cases exec_to h with
  | bus _ ran => exact RegsAfter.windowLegal (st := { s.st with busReady := true }) hs ran.regs
  | nop | wrcfg | wrcfgReserved | rdcfg | rdcfgReserved | rdstate | rdstateReserved | clrstat | delay | busreset => exact hs

/-- Settles O52: a window request clips to the geometry, and SETROT resets the window with the geometry. -/
theorem windowStaysInsideGeometry : Obligations.WindowStaysInsideGeometry := by
  intro s t hs h
  exact step_keeps_registers (P := fun _ st => windowLegal st = true) resetSt_windowLegal (fun _ _ h => h)
    (fun _ _ _ => exec_windowLegal) hs h

/-! ### The geometry (R225) -/

/-- The rotation and the geometry change together, by SETROT (R220). -/
theorem RegsAfter.geometry {c : Cfg} {i : Instr} {st st' : StRegs} (regs : RegsAfter c st i st') :
    (st'.rot = st.rot ∧ st'.geomW = st.geomW ∧ st'.geomH = st.geomH)
      ∨ (st'.geomW = widthAt c st'.rot ∧ st'.geomH = heightAt c st'.rot) := by
  cases regs with
  | same | invert | vscroll => exact .inl ⟨rfl, rfl, rfl⟩
  | setwin moved | wrpix moved | rdpix moved =>
    obtain ⟨win, rfl, -⟩ := moved
    exact .inl ⟨rfl, rfl, rfl⟩
  | setrot r => exact .inr ⟨rfl, rfl⟩

theorem geometryFresh_iff {s : State} :
    geometryFresh s = true ↔ s.st.geomW = widthAt s.cfg s.st.rot ∧ s.st.geomH = heightAt s.cfg s.st.rot := by
  simp [geometryFresh]

theorem geometryFresh_writeCfg {s : State} (h : geometryFresh s = true) {k : Fin 31} (hk : k ≠ cfgNATIVE_WH) (v : Word) :
    geometryFresh (writeCfg k v s) = true := by
  have hread : cfgRead (s.cfg.set k (cfgStored k v)) cfgNATIVE_WH = cfgRead s.cfg cfgNATIVE_WH := by
    rw [cfgRead_set, if_neg hk.symm]
  simpa [geometryFresh, widthAt, heightAt, cfgHi, cfgLo, hread] using h

/-- Settles O54: SETROT derives the geometry from the rotation it sets, and no other request touches rotation or geometry. -/
theorem geometryFollowsRotation : Obligations.GeometryFollowsRotation := by
  intro i s t hs hi h
  cases exec_to h with
  | bus _ ran =>
    rw [geometryFresh_iff] at hs ⊢
    rw [ran.cfg]
    obtain ⟨hrot, hw, hh⟩ | hfresh := ran.regs.geometry
    · rw [hrot, hw, hh]; exact hs
    · exact hfresh
  | @wrcfg index k v hk =>
    refine geometryFresh_writeCfg hs (fun hk2 => hi v ?_) v
    have hindex : index = 0x02 := BitVec.eq_of_toNat_eq (by rw [cfgIndex_some.mp hk, hk2]; rfl)
    rw [hindex]
  | nop | wrcfgReserved | rdcfg | rdcfgReserved | rdstate | rdstateReserved | clrstat | delay | busreset => exact hs

end Sys2Proof.Machine
end

section
/-! SUPPORT. Which parts of the state no request reads: the pins, but for RDSTATE, and of the configuration ID, TIMING and
CAPS.EXT_COORD, but for RDCFG and WRCFG (R32, R36, R37, D49). States that differ in nothing else go through every request alike. -/

namespace Sys2Proof.Machine

/-! ### What is read of the configuration -/

/-- A configuration with ID and TIMING cleared and CAPS.EXT_COORD set: what is left tells all that a request reads. -/
def canonCfg (c : Cfg) : Cfg := ((c.set cfgID 0).set cfgTIMING 0).set cfgCAPS (capsOf c ||| 0x40)

theorem cfg_ext {c c' : Cfg} (h : ∀ j, cfgRead c j = cfgRead c' j) : c = c' := Vector.ext fun j hj => h ⟨j, hj⟩

theorem cfgRead_canonCfg_eq (c : Cfg) (j : Fin 31) : cfgRead (canonCfg c) j =
    if j = cfgCAPS then capsOf c ||| 0x40 else if j = cfgTIMING then 0 else if j = cfgID then 0 else cfgRead c j := by
  simp only [canonCfg, cfgRead_set]

@[simp] theorem capsOf_canonCfg (c : Cfg) : capsOf (canonCfg c) = capsOf c ||| 0x40 := cfgRead_canonCfg_eq c cfgCAPS

theorem cfgRead_canonCfg {j : Fin 31} (hj : j ∉ [cfgID, cfgTIMING, cfgCAPS]) (c : Cfg) : cfgRead (canonCfg c) j = cfgRead c j := by
  simp only [List.mem_cons, List.not_mem_nil, or_false, not_or] at hj
  obtain ⟨h0, h1, h2⟩ := hj
  rw [cfgRead_canonCfg_eq, if_neg h2, if_neg h1, if_neg h0]

theorem cfgLo_canonCfg {j : Fin 31} (hj : j ∉ [cfgID, cfgTIMING, cfgCAPS]) (c : Cfg) : cfgLo (canonCfg c) j = cfgLo c j := by
  rw [cfgLo, cfgRead_canonCfg hj, cfgLo]

theorem cfgHi_canonCfg {j : Fin 31} (hj : j ∉ [cfgID, cfgTIMING, cfgCAPS]) (c : Cfg) : cfgHi (canonCfg c) j = cfgHi c j := by
  rw [cfgHi, cfgRead_canonCfg hj, cfgHi]

theorem cfgByte_canonCfg {j : Fin 31} (hj : j ∉ [cfgID, cfgTIMING, cfgCAPS]) (c : Cfg) (k : Nat) :
    cfgByte (canonCfg c) j k = cfgByte c j k := by
  rw [cfgByte, cfgRead_canonCfg hj, cfgByte]

theorem canonCfg_eq_of_agree {c c' : Cfg} (h : ∀ j : Fin 31, j ≠ cfgID → j ≠ cfgCAPS → j ≠ cfgTIMING → c.get j = c'.get j)
    (hcaps : c.get cfgCAPS ||| 0x40 = c'.get cfgCAPS ||| 0x40) : canonCfg c = canonCfg c' := by
  refine cfg_ext fun j => ?_
  rw [cfgRead_canonCfg_eq, cfgRead_canonCfg_eq]
  split_ifs with h2 h1 h0
  · exact hcaps
  · rfl
  · rfl
  · exact h j h0 h2 h1

/-! ### No script reads the rest -/

theorem bringUpScript_canonCfg (c : Cfg) : bringUpScript (canonCfg c) = bringUpScript c := by
  simp (disch := decide) only [bringUpScript, cfgRead_canonCfg, cfgByte_canonCfg, cfgHi_canonCfg]

@[simp] theorem writeRegisterParams_canonCfg (c : Cfg) : writeRegisterParams (canonCfg c) = writeRegisterParams c := by
  funext cmd params
  simp [writeRegisterParams, capParamAddrInc]

@[simp] theorem capUnified_canonCfg (c : Cfg) : capUnified (capsOf (canonCfg c)) = capUnified (capsOf c) := by simp [capUnified]

@[simp] theorem capSplitCtrl_canonCfg (c : Cfg) : capSplitCtrl (capsOf (canonCfg c)) = capSplitCtrl (capsOf c) := by
  simp [capSplitCtrl]

theorem controlByte_canonCfg (c : Cfg) : controlByte (canonCfg c) = controlByte c := by
  funext r
  simp (disch := decide) [controlByte, cfgByte_canonCfg, capInvX, capInvY]

theorem writeControl_canonCfg (c : Cfg) : writeControl (canonCfg c) = writeControl c := by
  funext cb
  simp (disch := decide) only [writeControl, docValue, entValue, capUnified_canonCfg, capSplitCtrl_canonCfg,
    writeRegisterParams_canonCfg, cfgHi_canonCfg, cfgLo_canonCfg]

theorem activeMap_canonCfg (c : Cfg) : activeMap (canonCfg c) = activeMap c := by
  funext r
  simp (disch := decide) [activeMap, mapOfCfg, cfgLo_canonCfg, capHwAxisSwap]

theorem widthAt_canonCfg (c : Cfg) : widthAt (canonCfg c) = widthAt c := by
  funext r
  simp (disch := decide) only [widthAt, cfgLo_canonCfg, cfgHi_canonCfg]

theorem heightAt_canonCfg (c : Cfg) : heightAt (canonCfg c) = heightAt c := by
  funext r
  simp (disch := decide) only [heightAt, cfgLo_canonCfg, cfgHi_canonCfg]

theorem addOffset_canonCfg (c : Cfg) : addOffset (canonCfg c) = addOffset c := by
  have happlies : offsetApplies (canonCfg c) = offsetApplies c := by
    funext r
    rw [offsetApplies, cfgRead_canonCfg (by decide), offsetApplies]
  have hrows : offsetOnRows (canonCfg c) = offsetOnRows c := by
    rw [offsetOnRows, cfgRead_canonCfg (by decide), offsetOnRows]
  funext r v
  simp (disch := decide) only [addOffset, happlies, hrows, cfgLo_canonCfg]

theorem wireCoords_canonCfg (c : Cfg) : wireCoords (canonCfg c) = wireCoords c := by
  have hnudge : capNudgeEn (capsOf (canonCfg c)) = capNudgeEn (capsOf c) := by simp [capNudgeEn]
  funext r v
  simp only [wireCoords, nudge, addOffset_canonCfg, hnudge]

theorem windowScript_canonCfg (c : Cfg) : windowScript (canonCfg c) = windowScript c := by
  funext st win
  simp only [windowScript, writeWindowUnified, wireCoords_canonCfg, capUnified_canonCfg, capSplitCtrl_canonCfg,
    writeRegisterParams_canonCfg]

theorem nativeH_canonCfg (c : Cfg) : nativeH (canonCfg c) = nativeH c := cfgLo_canonCfg (by decide) c

theorem scrollScript_canonCfg (c : Cfg) : scrollScript (canonCfg c) = scrollScript c := by
  funext top lines vsp
  simp (disch := decide) only [scrollScript, nativeH_canonCfg, capUnified_canonCfg, writeRegisterParams_canonCfg, cfgHi_canonCfg,
    cfgLo_canonCfg]

theorem invertScript_canonCfg (c : Cfg) : invertScript (canonCfg c) = invertScript c := by
  funext eff
  simp (disch := decide) only [invertScript, capUnified_canonCfg, cfgHi_canonCfg, cfgLo_canonCfg]

theorem sentinelInCommand_canonCfg (c : Cfg) : sentinelInCommand (canonCfg c) = sentinelInCommand c := by
  rw [sentinelInCommand, cfgRead_canonCfg (by decide), sentinelInCommand]

theorem tableEntry8_canonCfg (c : Cfg) : tableEntry8 (canonCfg c) = tableEntry8 c := by
  funext cmd n rest
  simp only [tableEntry8, sentinelInCommand_canonCfg, writeRegisterParams_canonCfg]

theorem runTable8_canonCfg (c : Cfg) : runTable8 (canonCfg c) = runTable8 c := by
  funext table
  suffices h : ∀ fuel, runEntries8 (canonCfg c) fuel table = runEntries8 c fuel table from h table.length
  intro fuel
  induction fuel generalizing table with
  | zero => rfl
  | succ fuel ih =>
    match table with
    | [] | [_] => rfl
    | cmd :: n :: rest => simp only [runEntries8, tableEntry8_canonCfg, ih]

theorem runTable16_canonCfg (c : Cfg) : runTable16 (canonCfg c) = runTable16 c := by
  funext pairs
  simp (disch := decide) only [runTable16, tableEntry16, cfgLo_canonCfg]

theorem inBracket_canonCfg (c : Cfg) : inBracket (canonCfg c) = inBracket c := by
  funext bracket script
  simp (disch := decide) only [inBracket, wakePrefix, wakeSuffix, capUnified_canonCfg, cfgByte_canonCfg, cfgLo_canonCfg,
    writeRegisterParams_canonCfg]

/-! ### No use of CAPS reads EXT_COORD (D49) -/

theorem capPolarityInv_extCoord (caps : Word) : capPolarityInv (caps ||| 0x40) = capPolarityInv caps := by simp [capPolarityInv]

theorem capAutoincRead_extCoord (caps : Word) : capAutoincRead (caps ||| 0x40) = capAutoincRead caps := by simp [capAutoincRead]

theorem pixelWrite_extCoord (caps : Word) : pixelWrite (caps ||| 0x40) = pixelWrite caps := by
  funext color
  simp [pixelWrite, pixelBytes, capWire24Only, capWireBgr, capWire555]

theorem dummyReads_extCoord (caps : Word) : dummyReads (caps ||| 0x40) = dummyReads caps := by
  have hfield : (caps ||| 0x40).extractLsb' 16 2 = caps.extractLsb' 16 2 := by
    rw [BitVec.extractLsb'_or]; exact BitVec.or_zero
  simp only [dummyReads, capDummy, hfield]
  simp [capNoReadDummy]

theorem capRead24_extCoord (caps : Word) : capRead24 (caps ||| 0x40) = capRead24 caps := by simp [capRead24]

theorem sampleWidth_extCoord (caps : Word) : sampleWidth (caps ||| 0x40) = sampleWidth caps := by
  rw [sampleWidth, capRead24_extCoord, sampleWidth]

theorem decodeSample24_extCoord (caps : Word) : decodeSample24 (caps ||| 0x40) = decodeSample24 caps := by
  funext b0 b1 b2
  simp [decodeSample24, capBgrRead]

theorem decodeSample16_extCoord (caps : Word) : decodeSample16 (caps ||| 0x40) = decodeSample16 caps := by
  funext hi lo
  simp [decodeSample16, capReadOrderSwap, capWire555, capBgrRead]

/-! ### States that differ in what no request reads -/

/-- s' is s but for the pins and for what no request reads of the configuration. -/
def Alike (s s' : State) : Prop := ∃ p c, canonCfg c = canonCfg s.cfg ∧ s' = { s with pins := p, cfg := c }

/-- The same answer, and states that are alike. -/
def AlikeResult {α : Type} (r r' : α × State) : Prop := r'.1 = r.1 ∧ Alike r.2 r'.2

namespace Alike

variable {s s' : State}

/-- What reads the configuration only where a request does has one value at both states. -/
theorem reads {α : Type} (f : Cfg → α) (hf : ∀ c, f (canonCfg c) = f c) (h : Alike s s') : f s'.cfg = f s.cfg := by
  obtain ⟨p, c, hc, rfl⟩ := h
  rw [← hf c, hc, hf s.cfg]

theorem readsCaps {α : Type} (f : Word → α) (hf : ∀ v, f (v ||| 0x40) = f v) (h : Alike s s') :
    f (capsOf s'.cfg) = f (capsOf s.cfg) :=
  h.reads (fun c => f (capsOf c)) fun c => by rw [capsOf_canonCfg, hf]

theorem st (h : Alike s s') : s'.st = s.st := by obtain ⟨p, c, -, rfl⟩ := h; rfl

theorem trace (h : Alike s s') : s'.trace = s.trace := by obtain ⟨p, c, -, rfl⟩ := h; rfl

theorem sampleAt (h : Alike s s') : sampleAt s' = sampleAt s := by obtain ⟨p, c, -, rfl⟩ := h; rfl

theorem upcoming (h : Alike s s') : upcoming s' = upcoming s := by obtain ⟨p, c, -, rfl⟩ := h; rfl

theorem perform (h : Alike s s') (es : List Event) : Alike (s.perform es) (s'.perform es) := by
  obtain ⟨p, c, hc, rfl⟩ := h
  exact ⟨_, c, hc, rfl⟩

theorem afterReads (h : Alike s s') (n : Nat) (es : List Event) : Alike (afterReads s n es) (afterReads s' n es) := by
  obtain ⟨p, c, hc, rfl⟩ := h
  exact ⟨_, c, hc, rfl⟩

theorem respond (h : Alike s s') (ws : List Word) : Alike (s.respond ws) (s'.respond ws) := by
  obtain ⟨p, c, hc, rfl⟩ := h
  exact ⟨p, c, hc, rfl⟩

theorem withSt (h : Alike s s') (st : StRegs) : Alike { s with st := st } { s' with st := st } := by
  obtain ⟨p, c, hc, rfl⟩ := h
  exact ⟨p, c, hc, rfl⟩

theorem performScript (h : Alike s s') (f : Cfg → List Event) (hf : ∀ c, f (canonCfg c) = f c) :
    Alike (s.perform (f s.cfg)) (s'.perform (f s'.cfg)) := by
  rw [h.reads f hf]
  exact h.perform _

/-! ### Reads -/

theorem readWordAlone (h : Alike s s') : AlikeResult (readWordAlone s) (readWordAlone s') := by
  simp only [Machine.readWordAlone, readWord_eq, sampleAt_perform, h.sampleAt]
  exact ⟨rfl, ((h.perform _).afterReads _ _).perform _⟩

theorem readRegister (h : Alike s s') (addr : Half) (index : Nat) :
    AlikeResult (readRegister addr index s) (readRegister addr index s') := by
  rw [readRegister_eq, readRegister_eq, h.sampleAt, h.upcoming]
  exact ⟨rfl, h.afterReads _ _⟩

theorem readRegister32 (h : Alike s s') (addr : Half) : AlikeResult (readRegister32 addr s) (readRegister32 addr s') := by
  obtain ⟨v0, h0⟩ := h.readRegister addr 0
  obtain ⟨v1, h1⟩ := h0.readRegister addr 1
  exact ⟨by simp only [Machine.readRegister32, v0, v1], h1⟩

theorem readRegister40 (h : Alike s s') (addr : Half) : AlikeResult (readRegister40 addr s) (readRegister40 addr s') := by
  have hv (u : State) : (Machine.readRegister40 addr u).1
      = ((Machine.readRegister32 addr u).1 ++ (Machine.readRegister addr 2 (Machine.readRegister32 addr u).2).1).extractLsb' 0 40 :=
    rfl
  obtain ⟨v01, h01⟩ := h.readRegister32 addr
  obtain ⟨v2, h2⟩ := h01.readRegister addr 2
  exact ⟨by rw [hv, hv, v01, v2], h2⟩

theorem sampleFrom (h : Alike s s') : sampleFrom s' = sampleFrom s := by
  funext k
  simp only [Machine.sampleFrom, h.sampleAt, h.readsCaps _ capRead24_extCoord, h.readsCaps _ decodeSample24_extCoord,
    h.readsCaps _ decodeSample16_extCoord]

theorem readSamples (h : Alike s s') (n : Nat) : AlikeResult (readSamples n s) (readSamples n s') := by
  rw [readSamples_eq, readSamples_eq, h.readsCaps _ sampleWidth_extCoord, h.sampleFrom, h.upcoming]
  exact ⟨rfl, h.afterReads _ _⟩

theorem openGramRead (h : Alike s s') : Alike (openGramRead s) (openGramRead s') := by
  rw [openGramRead_eq, openGramRead_eq, h.upcoming, h.readsCaps _ dummyReads_extCoord,
    h.reads (fun c => cfgLo c cfgGRAM_RD) (cfgLo_canonCfg (by decide))]
  exact h.afterReads _ _

/-! ### Windows and pixels -/

theorem setWindow (h : Alike s s') (x0 y0 x1 y1 : Int) : Alike (setWindow x0 y0 x1 y1 s) (setWindow x0 y0 x1 y1 s') := by
  unfold Machine.setWindow
  rw [h.st, h.reads _ windowScript_canonCfg]
  split
  · exact h
  · exact (h.withSt _).perform _

theorem setFullWindow (h : Alike s s') : Alike (setFullWindow s) (setFullWindow s') := by
  unfold Machine.setFullWindow
  rw [h.st]
  exact h.setWindow ..

theorem writePixelAt (h : Alike s s') (x y : Int) (color : Half) : Alike (writePixelAt x y color s) (writePixelAt x y color s') := by
  unfold Machine.writePixelAt
  rw [h.st]
  split
  · exact h
  · have hw := h.setWindow x y x y
    simp only [hw.st, hw.readsCaps _ pixelWrite_extCoord]
    exact hw.perform _

theorem autoincRead (h : Alike s s') (x y : Int) (w n : Nat) : AlikeResult (autoincRead x y w n s) (autoincRead x y w n s') := by
  obtain ⟨hv, hs⟩ := (h.setWindow x y (x + w - 1) (y + n - 1)).openGramRead.readSamples (w * n)
  exact ⟨hv, hs.perform _⟩

theorem readPoint (h : Alike s s') (p : Int × Int) : AlikeResult (readPoint p s) (readPoint p s') := by
  obtain ⟨hv, hs⟩ := (h.setWindow p.1 p.2 p.1 p.2).openGramRead.readSamples 1
  exact ⟨List.head_eq_of_cons_eq hv, hs.perform _⟩

theorem readPoints (h : Alike s s') (ps : List (Int × Int)) : AlikeResult (readPoints ps s) (readPoints ps s') := by
  induction ps generalizing s s' with
  | nil => exact ⟨rfl, h⟩
  | cons p ps ih =>
    obtain ⟨hv, hs⟩ := h.readPoint p
    obtain ⟨hvs, hss⟩ := ih hs
    exact ⟨congrArg₂ _ hv hvs, hss⟩

theorem readPixels (h : Alike s s') (x y : Int) (w n : Nat) : Alike (readPixels x y w n s) (readPixels x y w n s') := by
  have hread : AlikeResult (if capAutoincRead (capsOf s.cfg) then Machine.autoincRead x y w n s else perSampleRead x y w n s)
      (if capAutoincRead (capsOf s.cfg) then Machine.autoincRead x y w n s' else perSampleRead x y w n s') := by
    split
    · exact h.autoincRead x y w n
    · exact h.readPoints _
  unfold Machine.readPixels
  rw [h.st, h.readsCaps _ capAutoincRead_extCoord]
  split
  · exact h
  split
  · exact h.respond _
  · simp only [hread.1]
    exact hread.2.setFullWindow.respond _

/-! ### Rotation, inversion, scroll -/

theorem resetWindow (h : Alike s s') : Alike (resetWindow s) (resetWindow s') := by
  unfold Machine.resetWindow
  rw [h.st]
  split
  · exact h.setFullWindow
  · exact h.withSt _

theorem vScroll (h : Alike s s') (top lines : Half) (offset : Int) : Alike (vScroll top lines offset s) (vScroll top lines offset s') := by
  unfold Machine.vScroll
  rw [h.st, h.reads _ nativeH_canonCfg, h.reads _ scrollScript_canonCfg]
  split
  · exact h
  · exact (h.withSt _).perform _

theorem resetScroll (h : Alike s s') : Alike (resetScroll s) (resetScroll s') := by
  unfold Machine.resetScroll
  rw [h.st, h.reads _ nativeH_canonCfg]
  split
  · exact h.withSt _
  · exact h.vScroll ..

theorem setRotation (h : Alike s s') (r : BitVec 2) : Alike (setRotation r s) (setRotation r s') := by
  rw [setRotation_eq, setRotation_eq, h.st, h.reads _ controlByte_canonCfg, h.reads _ writeControl_canonCfg,
    h.reads _ activeMap_canonCfg, h.reads _ widthAt_canonCfg, h.reads _ heightAt_canonCfg]
  exact ((h.perform _).withSt _).resetWindow.resetScroll

theorem setInversion (h : Alike s s') (on : Bool) : Alike (setInversion on s) (setInversion on s') := by
  unfold Machine.setInversion
  rw [h.st, h.reads _ invertScript_canonCfg, h.readsCaps _ capPolarityInv_extCoord]
  exact (h.withSt _).perform _

/-! ### Requests -/

theorem busBody (h : Alike s s') (i : Instr) : Alike (busBody i s) (busBody i s') := by
  cases i with
  | nop | wrcfg | rdcfg | rdstate | clrstat | delay | busreset => exact h
  | wrcmd | wrdata | wrdata8 | wrreg => exact h.perform _
  | wrregp cmd params => exact h.performScript (writeRegisterParams · cmd params) fun c => by rw [writeRegisterParams_canonCfg]
  | inittbl8 bracket table =>
    exact h.performScript (fun c => inBracket c bracket (runTable8 c table)) fun c => by
      rw [inBracket_canonCfg, runTable8_canonCfg]
  | inittbl16 bracket pairs =>
    exact h.performScript (fun c => inBracket c bracket (runTable16 c pairs)) fun c => by
      rw [inBracket_canonCfg, runTable16_canonCfg]
  | pushpix first colors =>
    simp only [Machine.busBody, pushScript, h.st, h.readsCaps _ pixelWrite_extCoord]
    exact h.perform _
  | rdword =>
    obtain ⟨hv, hs⟩ := h.readWordAlone
    simp only [Machine.busBody, hv]
    exact hs.respond _
  | rdreg addr index =>
    obtain ⟨hv, hs⟩ := h.readRegister addr index.toNat
    simp only [Machine.busBody, hv]
    exact hs.respond _
  | rdreg32 addr =>
    obtain ⟨hv, hs⟩ := h.readRegister32 addr
    simp only [Machine.busBody, hv]
    exact hs.respond _
  | rdreg40 addr =>
    obtain ⟨hv, hs⟩ := h.readRegister40 addr
    simp only [Machine.busBody, hv]
    exact hs.respond _
  | setrot r => exact h.setRotation r
  | setwin x0 y0 x1 y1 => exact h.setWindow ..
  | wrpix x y color => exact h.writePixelAt ..
  | rdpix x y w n => exact h.readPixels ..
  | invert on => exact h.setInversion on
  | vscroll top lines offset => exact h.vScroll ..

theorem bringUp (h : Alike s s') : Alike (bringUp s) (bringUp s') := by
  unfold Machine.bringUp
  simp only [h.reads _ bringUpScript_canonCfg, perform_st, h.st]
  exact (h.perform _).withSt _

theorem readyBus (h : Alike s s') : Alike (readyBus s) (readyBus s') := by
  unfold Machine.readyBus
  rw [h.st]
  split
  · exact h
  · exact h.bringUp

theorem readyBus_pins (h : Alike s s') (hpins : s'.pins = s.pins) : (Machine.readyBus s').pins = (Machine.readyBus s).pins := by
  rw [Machine.readyBus_pins, Machine.readyBus_pins, h.st, h.reads _ bringUpScript_canonCfg, hpins]

theorem withPinsAndTrace (h : Alike s s') (p p' : Pins) (es : List Event) :
    Alike { s with pins := p, trace := es } { s' with pins := p', trace := es } := by
  obtain ⟨-, c, hc, rfl⟩ := h
  exact ⟨p', c, hc, rfl⟩

/-- A transaction keeps states alike where its body does, and equal pins equal. -/
theorem busRun {body : State → State} (hbody : ∀ u u', Alike u u' → Alike (body u) (body u')) (h : Alike s s') :
    Alike (busRun body s) (busRun body s') ∧ (s'.pins = s.pins → (busRun body s').pins = (busRun body s).pins) := by
  have hr := h.readyBus
  have hb : Alike (body (bodyStart s)) (body (bodyStart s')) := hbody _ _ (hr.withPinsAndTrace _ _ [])
  have hrun (u : State) : Machine.busRun body u
      = ({ body (bodyStart u) with pins := (Machine.readyBus u).pins, trace := (Machine.readyBus u).trace } : State).perform
        (frameEvents (body (bodyStart u)).trace) := rfl
  rw [hrun, hrun, hr.trace, hb.trace]
  refine ⟨(hb.withPinsAndTrace _ _ _).perform _, fun hpins => ?_⟩
  rw [perform_pins, perform_pins, h.readyBus_pins hpins]

end Alike

/-- Every request but the three that read registers or write the configuration goes alike from states that are alike. -/
theorem exec_alike {i : Instr} {s s' t : State} (hrdstate : ∀ index, i ≠ .rdstate index) (hrdcfg : ∀ index, i ≠ .rdcfg index)
    (hwrcfg : ∀ index v, i ≠ .wrcfg index v) (h : Alike s s') (ht : exec i s = .next t) :
    ∃ t', exec i s' = .next t' ∧ Alike t t' ∧ (s'.pins = s.pins → t'.pins = t.pins) := by
  by_cases hi : isBusRequest i = true
  · rw [exec_eq_busRun hi] at ht
    cases ht
    exact ⟨_, exec_eq_busRun hi s', h.busRun fun _ _ hu => hu.busBody i⟩
  cases i with
  | wrcmd | wrdata | wrdata8 | rdword | wrreg | wrregp | rdreg | rdreg32 | rdreg40 | inittbl8 | inittbl16 | setrot | setwin
  | invert | vscroll | pushpix | wrpix | rdpix => exact absurd rfl hi
  | wrcfg index v => exact absurd rfl (hwrcfg index v)
  | rdcfg index => exact absurd rfl (hrdcfg index)
  | rdstate index => exact absurd rfl (hrdstate index)
  | nop => cases ht; exact ⟨s', rfl, h, id⟩
  | clrstat =>
    cases ht
    refine ⟨_, rfl, ?_, id⟩
    unfold clearIllegal
    rw [h.st]
    exact h.withSt _
  | delay ms =>
    cases ht
    exact ⟨_, rfl, h.perform _, fun hpins => by rw [perform_pins, perform_pins, hpins]⟩
  | busreset =>
    cases ht
    exact ⟨_, rfl, h.bringUp, fun hpins => by rw [bringUp_pins, bringUp_pins, hpins, h.reads _ bringUpScript_canonCfg]⟩

/-- A request but WRCFG keeps the configuration (R35). -/
theorem exec_keeps_cfg {i : Instr} {s t : State} (hi : ∀ index v, i ≠ .wrcfg index v) (h : exec i s = .next t) : t.cfg = s.cfg := by
  obtain hc | ⟨index, v, _, hw, -⟩ := exec_cfg h
  · exact hc
  · exact absurd hw (hi index v)

theorem execRdcfg_pins (index : Byte) {s t : State} (p : Pins) (h : execRdcfg index s = .next t) :
    execRdcfg index { s with pins := p } = .next { t with pins := p } := by
  unfold execRdcfg at h ⊢
  split at h <;> cases h <;> rfl

theorem execWrcfg_pins (index : Byte) (v : Word) {s t : State} (p : Pins) (h : execWrcfg index v s = .next t) :
    execWrcfg index v { s with pins := p } = .next { t with pins := p } := by
  unfold execWrcfg at h ⊢
  split at h <;> cases h <;> rfl

theorem exec_pins_of_not_reg {i : Instr} {s t : State} (p : Pins) (hrdstate : ∀ index, i ≠ .rdstate index)
    (hrdcfg : ∀ index, i ≠ .rdcfg index) (hwrcfg : ∀ index v, i ≠ .wrcfg index v) (h : exec i s = .next t) :
    ∃ t', exec i { s with pins := p } = .next t' ∧ { t' with pins := t.pins } = t := by
  obtain ⟨t', ht', ⟨p', c, -, rfl⟩, -⟩ := exec_alike hrdstate hrdcfg hwrcfg (s' := { s with pins := p }) ⟨p, s.cfg, rfl, rfl⟩ h
  have hc : c = t.cfg := (exec_keeps_cfg hwrcfg ht').trans (exec_keeps_cfg hwrcfg h).symm
  exact ⟨_, ht', by rw [hc]⟩

/-- Settles O47: a state with other pins is alike, and RDCFG and WRCFG do not read the pins either. -/
theorem noRequestReadsThePins : Obligations.NoRequestReadsThePins := by
  intro i s t p hi h
  cases i with
  | rdstate index => exact absurd rfl (hi index)
  | rdcfg index => exact ⟨_, execRdcfg_pins index p h, rfl⟩
  | wrcfg index v => exact ⟨_, execWrcfg_pins index v p h, rfl⟩
  | _ => exact exec_pins_of_not_reg p hi nofun nofun h

theorem execRdstate_cfg (index : Byte) {s t : State} (c : Cfg) (h : execRdstate index s = .next t) :
    execRdstate index { s with cfg := c } = .next { t with cfg := c } := by
  unfold execRdstate at h ⊢
  split at h
  next hidx => cases h; exact if_pos hidx
  next hidx => cases h; exact if_neg hidx

/-- Settles O48: configurations that agree but for ID, TIMING and CAPS.EXT_COORD make states alike. -/
theorem unreadRegistersHaveNoEffect : Obligations.UnreadRegistersHaveNoEffect := by
  intro i s t c hc hcaps hrdcfg hwrcfg h
  by_cases hi : ∃ index, i = .rdstate index
  · obtain ⟨index, rfl⟩ := hi
    exact execRdstate_cfg index c h
  have halike : Alike s { s with cfg := c } := ⟨s.pins, c, canonCfg_eq_of_agree hc hcaps, rfl⟩
  obtain ⟨t', ht', ⟨p, c', -, rfl⟩, hpins⟩ := exec_alike (fun index e => hi ⟨index, e⟩) hrdcfg hwrcfg halike h
  have hp : p = t.pins := hpins rfl
  have hc' : c' = c := exec_keeps_cfg hwrcfg ht'
  rw [ht', hp, hc']

end Sys2Proof.Machine
end

section
/-! SUPPORT. The trace a request appends, seen from the pins and from the chip: the pins replay it (R86, R89), and its read cycles took
the coming samples in order (R143, log entry 3). -/

namespace Sys2Proof.Machine

/-- Settles O6: `step` takes the frame off the inbox, and `runFrame` of a frame that decodes is `exec`. -/
theorem stepRunsTheDecodedRequest : Obligations.StepRunsTheDecodedRequest := by
  intro s f rest i hin hdec
  have hstep : step s = runFrame f (s.accept rest) := by simp only [step, hin, runInput]
  have hrun : runFrame f (s.accept rest) = exec i (s.accept rest) := by simp only [runFrame, hdec]
  exact hstep.trans hrun

/-- Settles O13: a transaction plays its framed script, DELAY its wait, BUSRESET the bring-up, and no other request an event. -/
theorem pinsReplayTheTrace : Obligations.PinsReplayTheTrace := by
  intro i s t h
  cases exec_to h with
  | bus hi ran =>
    obtain ⟨es, -, htrace, hpins⟩ := ran.events
    exact ⟨busTrace s es, htrace, hpins⟩
  | delay ms => exact ⟨delayMs ms.toNat, rfl, rfl⟩
  | busreset => exact ⟨bringUpScript s.cfg, rfl, rfl⟩
  | nop | wrcfg | wrcfgReserved | rdcfg | rdcfgReserved | rdstate | rdstateReserved | clrstat =>
    exact ⟨[], (List.append_nil s.trace).symm, rfl⟩

/-! ### The bytes that the read cycles of a script carry -/

/-- The byte of a read cycle. -/
def sampledByte : Event → Option Byte
  | .r b => some b
  | .w _ _ | .delay _ | .cs _ | .dir _ | .rst _ | .idle => none

/-- The bytes of the read cycles among some events, in order. -/
def sampledBytes (es : List Event) : List Byte := es.filterMap sampledByte

@[simp] theorem sampledBytes_nil : sampledBytes [] = [] := rfl

@[simp] theorem sampledBytes_append (a b : List Event) : sampledBytes (a ++ b) = sampledBytes a ++ sampledBytes b :=
  List.filterMap_append

theorem sampledBytes_flatMap {α : Type} {f : α → List Event} (h : ∀ x, sampledBytes (f x) = []) (xs : List α) :
    sampledBytes (xs.flatMap f) = [] := by
  induction xs with
  | nil => rfl
  | cons x xs ih => simp [h, ih]

@[simp] theorem sampledBytes_readBurst (bs : List Byte) : sampledBytes (readBurst bs) = bs := by
  have hcycles : sampledBytes (bs.map .r) = bs := by
    induction bs with
    | nil => rfl
    | cons b bs ih => exact congrArg (b :: ·) ih
  calc sampledBytes (readBurst bs) = sampledBytes (bs.map .r) ++ [] := sampledBytes_append (bs.map .r) [.dir .out]
    _ = bs := by rw [hcycles, List.append_nil]

/-- Chip select samples nothing (R145). -/
@[simp] theorem sampledBytes_frameEvents (es : List Event) : sampledBytes (frameEvents es) = sampledBytes es := by
  unfold frameEvents
  split
  · exact (sampledBytes_append es [.cs true]).trans (List.append_nil _)
  · rfl

/-! ### Write-side scripts sample nothing (R146, R170, R171, R222 to R246, R273, R181 to R187, R372) -/

@[simp] theorem sampledBytes_writeCommand (w : Half) : sampledBytes (writeCommand w) = [] := rfl

@[simp] theorem sampledBytes_writeData (w : Half) : sampledBytes (writeData w) = [] := rfl

@[simp] theorem sampledBytes_writeData8 (b : Byte) : sampledBytes (writeData8 b) = [] := rfl

@[simp] theorem sampledBytes_writeRegister (cmd w : Half) : sampledBytes (writeRegister cmd w) = [] := rfl

@[simp] theorem sampledBytes_delayMs (n : Nat) : sampledBytes (delayMs n) = [] := by
  unfold delayMs
  split <;> rfl

@[simp] theorem sampledBytes_paramsToIncrementing (cmd : Half) (params : List Byte) :
    sampledBytes (paramsToIncrementing cmd params) = [] := by
  induction params generalizing cmd with
  | nil => rfl
  | cons b bs ih => simp [paramsToIncrementing, ih]

@[simp] theorem sampledBytes_writeRegisterParams (c : Cfg) (cmd : Half) (params : List Byte) :
    sampledBytes (writeRegisterParams c cmd params) = [] := by
  unfold writeRegisterParams
  split
  · cases params with
    | nil => rfl
    | cons b bs => exact sampledBytes_paramsToIncrementing cmd (b :: bs)
  · simp [sampledBytes_flatMap sampledBytes_writeData8]

@[simp] theorem sampledBytes_writeControl (c : Cfg) (cb : Byte) : sampledBytes (writeControl c cb) = [] := by
  unfold writeControl
  split_ifs <;> simp

@[simp] theorem sampledBytes_writeWindowUnified (c : Cfg) (m : RegMap) (v : Window) :
    sampledBytes (writeWindowUnified c m v) = [] := by
  unfold writeWindowUnified
  split <;> simp

@[simp] theorem sampledBytes_writeBoundary (startReg endReg start fin : Half) :
    sampledBytes (writeBoundary startReg endReg start fin) = [] := by
  unfold writeBoundary
  split <;> simp

@[simp] theorem sampledBytes_writeWindowLegacy (m : RegMap) (v : Window) (single : Bool) :
    sampledBytes (writeWindowLegacy m v single) = [] := by
  unfold writeWindowLegacy
  split <;> simp

@[simp] theorem sampledBytes_windowScript (c : Cfg) (st : StRegs) (win : Window) : sampledBytes (windowScript c st win) = [] := by
  unfold windowScript
  simp only []
  split <;> simp

@[simp] theorem sampledBytes_scrollScript (c : Cfg) (top lines vsp : Half) : sampledBytes (scrollScript c top lines vsp) = [] := by
  unfold scrollScript
  split <;> simp

@[simp] theorem sampledBytes_invertScript (c : Cfg) (eff : Bool) : sampledBytes (invertScript c eff) = [] := by
  unfold invertScript
  split <;> simp

@[simp] theorem sampledBytes_pixelWrite (caps : Word) (color : Half) : sampledBytes (pixelWrite caps color) = [] :=
  sampledBytes_flatMap sampledBytes_writeData8 _

@[simp] theorem sampledBytes_pushScript (s : State) (first : Bool) (colors : List Half) :
    sampledBytes (pushScript s first colors) = [] := by
  have hpixels := sampledBytes_flatMap (sampledBytes_pixelWrite (capsOf s.cfg)) colors
  unfold pushScript
  split <;> simp [hpixels]

@[simp] theorem sampledBytes_tableEntry8 (c : Cfg) (cmd n : Byte) (rest : List Byte) :
    sampledBytes (tableEntry8 c cmd n rest).1 = [] := by
  unfold tableEntry8
  split_ifs <;> simp

@[simp] theorem sampledBytes_runEntries8 (c : Cfg) (fuel : Nat) (table : List Byte) :
    sampledBytes (runEntries8 c fuel table) = [] := by
  fun_induction runEntries8 c fuel table with
  | case1 fuel cmd n rest script left h ih =>
    have hentry : sampledBytes script = [] := by simpa [h] using sampledBytes_tableEntry8 c cmd n rest
    simp [hentry, ih]
  | case2 => rfl

@[simp] theorem sampledBytes_runTable16 (c : Cfg) (pairs : List (Half × Half)) : sampledBytes (runTable16 c pairs) = [] := by
  refine sampledBytes_flatMap (fun p => ?_) pairs
  unfold tableEntry16
  split <;> simp

/-- The wake bracket samples nothing of its own (R187). -/
@[simp] theorem sampledBytes_inBracket (c : Cfg) (bracket : Bool) (es : List Event) :
    sampledBytes (inBracket c bracket es) = sampledBytes es := by
  unfold inBracket
  split <;> simp [wakePrefix, wakeSuffix]

@[simp] theorem sampledBytes_bringUpScript (c : Cfg) : sampledBytes (bringUpScript c) = [] := by
  unfold bringUpScript
  simp only []
  split
  · simp only [sampledBytes_append, sampledBytes_delayMs]
    rfl
  · rfl

/-! ### Requests take the samples in order -/

/-- From s to t the trace grew by events whose read cycles took the coming samples of s, in order and one each, and no other sample
was used up. -/
def TakesSamples (s t : State) : Prop :=
  ∃ es n, t.trace = s.trace ++ es ∧ sampledBytes es = upcoming s n ∧ t.samples = s.samples.drop n ∧ t.freeNo = s.freeNo + n

namespace TakesSamples

theorem afterReads {s : State} {n : Nat} {es : List Event} (h : sampledBytes es = upcoming s n) :
    TakesSamples s (afterReads s n es) := ⟨es, n, rfl, h, rfl, rfl⟩

theorem perform (s : State) {es : List Event} (h : sampledBytes es = []) : TakesSamples s (s.perform es) :=
  ⟨es, 0, rfl, h, rfl, rfl⟩

theorem refl (s : State) : TakesSamples s s := ⟨[], 0, (List.append_nil s.trace).symm, rfl, rfl, rfl⟩

/-- The samples taken second are those coming after the ones taken first. -/
theorem trans {s t u : State} (h : TakesSamples s t) (h' : TakesSamples t u) : TakesSamples s u := by
  obtain ⟨es, m, htrace, hbytes, hsamples, hfree⟩ := h
  obtain ⟨es', n, htrace', hbytes', hsamples', hfree'⟩ := h'
  refine ⟨es ++ es', m + n, by rw [htrace', htrace, List.append_assoc], ?_, by rw [hsamples', hsamples, List.drop_drop],
    by rw [hfree', hfree, Nat.add_assoc]⟩
  rw [sampledBytes_append, hbytes, hbytes', upcoming_add s t m n hsamples hfree]

theorem withSt {s t : State} (h : TakesSamples s t) (st : StRegs) : TakesSamples s { t with st := st } := h

theorem respond {s t : State} (h : TakesSamples s t) (ws : List Word) : TakesSamples s (t.respond ws) := h

/-! #### Reads -/

theorem readWordAlone (s : State) : TakesSamples s (readWordAlone s).2 := by
  have h : (Machine.readWordAlone s).2 = Machine.afterReads s 2 (readBurst (upcoming s 2)) := by
    simp [Machine.readWordAlone, readWord_eq, readBurst, upcoming, List.range_succ]
  exact h ▸ afterReads (sampledBytes_readBurst _)

theorem readRegister (addr : Half) (index : Nat) (s : State) : TakesSamples s (readRegister addr index s).2 := by
  rw [readRegister_eq, ← append_readBurst]
  exact afterReads (by simp)

theorem readRegister32 (addr : Half) (s : State) : TakesSamples s (readRegister32 addr s).2 :=
  (readRegister addr 0 s).trans (readRegister addr 1 _)

theorem readRegister40 (addr : Half) (s : State) : TakesSamples s (readRegister40 addr s).2 :=
  (readRegister32 addr s).trans (readRegister addr 2 _)

theorem gramRead (n : Nat) (s : State) : TakesSamples s ((readSamples n (openGramRead s)).2.perform [.dir .out]) := by
  rw [gramRead_eq]
  exact afterReads (by simp)

/-! #### Windows, pixels, rotation -/

theorem setWindow (x0 y0 x1 y1 : Int) (s : State) : TakesSamples s (setWindow x0 y0 x1 y1 s) := by
  cases h : clipWindow s.st.geomW s.st.geomH x0 y0 x1 y1 with
  | none => rw [setWindow_none h]; exact refl s
  | some win => rw [setWindow_some h]; exact ((refl s).withSt _).trans (perform _ (sampledBytes_windowScript ..))

theorem writePixelAt (x y : Int) (color : Half) (s : State) : TakesSamples s (writePixelAt x y color s) := by
  unfold Machine.writePixelAt
  split
  · exact refl s
  · exact (setWindow x y x y s).trans (perform _ (by simp))

theorem readPoints (ps : List (Int × Int)) (s : State) : TakesSamples s (readPoints ps s).2 := by
  induction ps generalizing s with
  | nil => exact refl s
  | cons p ps ih =>
    have hpoint : TakesSamples s (readPoint p s).2 := (setWindow ..).trans (gramRead 1 _)
    exact hpoint.trans (ih _)

theorem readPixels (x y : Int) (w h : Nat) (s : State) : TakesSamples s (readPixels x y w h s) := by
  unfold Machine.readPixels
  split
  · exact refl s
  split
  · exact (refl s).respond _
  · refine respond (.trans ?_ (setWindow ..)) _
    cases capAutoincRead (capsOf s.cfg) with
    | true => exact (setWindow ..).trans (gramRead (w * h) _)
    | false => exact readPoints _ s

theorem resetWindow (s : State) : TakesSamples s (resetWindow s) := by
  unfold Machine.resetWindow
  split
  · exact setWindow ..
  · exact (refl s).withSt _

theorem vScroll (top lines : Half) (offset : Int) (s : State) : TakesSamples s (vScroll top lines offset s) := by
  cases h : scrollStart (nativeH s.cfg) top lines offset with
  | none => rw [vScroll_none h]; exact refl s
  | some vsp => rw [vScroll_some h]; exact ((refl s).withSt _).trans (perform _ (sampledBytes_scrollScript ..))

theorem resetScroll (s : State) : TakesSamples s (resetScroll s) := by
  unfold Machine.resetScroll
  split
  · exact (refl s).withSt _
  · exact vScroll ..

theorem setRotation (r : BitVec 2) (s : State) : TakesSamples s (setRotation r s) := by
  have hcontrol : TakesSamples s (s.perform (writeControl s.cfg (controlByte s.cfg r))) := perform s (sampledBytes_writeControl ..)
  rw [setRotation_eq]
  exact ((hcontrol.withSt _).trans (resetWindow _)).trans (resetScroll _)

/-! #### Every request -/

theorem busBody (i : Instr) (s : State) : TakesSamples s (busBody i s) := by
  cases i with
  | nop | wrcfg | rdcfg | rdstate | clrstat | delay | busreset => exact refl s
  | wrcmd | wrdata | wrdata8 | wrreg | wrregp | pushpix => exact perform s (by simp)
  | inittbl8 bracket table => exact perform s (by simp [runTable8])
  | inittbl16 bracket pairs => exact perform s (by simp)
  | rdword => exact (readWordAlone s).respond _
  | rdreg addr index => exact (readRegister addr index.toNat s).respond _
  | rdreg32 addr => exact (readRegister32 addr s).respond _
  | rdreg40 addr => exact (readRegister40 addr s).respond _
  | setrot r => exact setRotation r s
  | setwin x0 y0 x1 y1 => exact setWindow ..
  | invert on => exact ((refl s).withSt _).trans (perform _ (sampledBytes_invertScript ..))
  | vscroll top lines offset => exact vScroll ..
  | wrpix x y color => exact writePixelAt ..
  | rdpix x y w h => exact readPixels ..

theorem bringUp (s : State) : TakesSamples s (bringUp s) := (perform s (sampledBytes_bringUpScript s.cfg)).withSt _

theorem readyBus (s : State) : TakesSamples s (readyBus s) := by
  unfold Machine.readyBus
  split
  · exact refl s
  · exact bringUp s

/-- A transaction takes the samples its body takes: bring-up and chip select read nothing (R141). -/
theorem busRun {body : State → State} {s : State} (h : TakesSamples (bodyStart s) (body (bodyStart s))) :
    TakesSamples s (busRun body s) := by
  obtain ⟨es, n, htrace, hbytes, hsamples, hfree⟩ := h
  have hbody : (body (bodyStart s)).trace = es := htrace
  have hframed : TakesSamples (Machine.readyBus s) (Machine.busRun body s) :=
    ⟨frameEvents es, n, hbody ▸ rfl, (sampledBytes_frameEvents es).trans hbytes, hsamples, hfree⟩
  exact (readyBus s).trans hframed

theorem exec {i : Instr} {s t : State} (h : exec i s = .next t) : TakesSamples s t := by
  cases exec_to h with
  | bus hi ran =>
    rw [exec_eq_busRun hi] at h
    cases h
    exact busRun (busBody i _)
  | delay ms => exact perform s (sampledBytes_delayMs _)
  | busreset => exact bringUp s
  | nop | wrcfg | wrcfgReserved | rdcfg | rdcfgReserved | rdstate | rdstateReserved | clrstat => exact refl s

end TakesSamples

theorem sampledBytes_eq_filterMap (es : List Event) :
    sampledBytes es = es.filterMap (fun e => match e with | .r b => some b | _ => none) := by
  refine congrArg (es.filterMap ·) (funext fun e => ?_)
  cases e <;> rfl

/-- Settles O14: every request takes the samples in order, and `upcoming` lists the samples of the statement. -/
theorem readCyclesTakeTheSamplesInOrder : Obligations.ReadCyclesTakeTheSamplesInOrder := by
  intro i s t h
  obtain ⟨es, n, htrace, hbytes, hsamples, hfree⟩ := TakesSamples.exec h
  exact ⟨es, n, htrace, (sampledBytes_eq_filterMap es).symm.trans hbytes, hsamples, hfree⟩

end Sys2Proof.Machine
end

section
/-! SUPPORT. What the decoder's parts answer, said once: when they accept, and what a header's reserved bits and a padded string leave
(R111, R112, R116, R118); the round trips between requests and frames that follow, with the settled statements of 30_encoding.md on
them. -/

namespace Sys2Proof

/-! ### When a part of the decoder accepts (R118 items 3 to 5) -/

@[simp] theorem noArgs_eq_ok {i j : Instr} {args : List Word} : noArgs i args = .ok j ↔ args = [] ∧ i = j := by
  cases args <;> simp [noArgs]

@[simp] theorem oneArg_eq_ok {f : Word → Except DecodeError Instr} {j : Instr} {args : List Word} :
    oneArg f args = .ok j ↔ ∃ a, args = [a] ∧ f a = .ok j := by
  rcases args with _ | ⟨a, _ | ⟨b, rest⟩⟩ <;> simp [oneArg]

@[simp] theorem twoArgs_eq_ok {f : Word → Word → Except DecodeError Instr} {j : Instr} {args : List Word} :
    twoArgs f args = .ok j ↔ ∃ a b, args = [a, b] ∧ f a b = .ok j := by
  rcases args with _ | ⟨a, _ | ⟨b, _ | ⟨c, rest⟩⟩⟩ <;> simp [twoArgs]

@[simp] theorem countAndString_eq_ok {f : Word → List Word → Except DecodeError Instr} {j : Instr} {args : List Word} :
    countAndString f args = .ok j ↔ ∃ n ws, args = n :: ws ∧ f n ws = .ok j := by
  cases args <;> simp [countAndString]

@[simp] theorem withIndex_eq_ok {index : Byte} {largest : Nat} {i j : Instr} :
    withIndex index largest i = .ok j ↔ index.toNat ≤ largest ∧ i = j := by
  unfold withIndex
  split <;> simp_all

@[simp] theorem withZeroHigh_eq_ok {w : Word} {i j : Instr} : withZeroHigh w i = .ok j ↔ hiHalf w = 0 ∧ i = j := by
  unfold withZeroHigh
  split <;> simp_all

@[simp] theorem map_eq_ok {α β : Type} {g : α → β} {r : Except DecodeError α} {b : β} :
    r.map g = .ok b ↔ ∃ a, r = .ok a ∧ g a = b := by
  cases r <;> simp [Except.map]

@[simp] theorem bind_eq_ok {α β : Type} {g : α → Except DecodeError β} {r : Except DecodeError α} {b : β} :
    r.bind g = .ok b ↔ ∃ a, r = .ok a ∧ g a = .ok b := by
  cases r <;> simp [Except.bind]

/-- A frame decodes to a request when it passes the checks of R118 items 1 to 3 and its arguments are read as that request. -/
theorem decode_eq_ok {f : Frame} {i : Instr} : decode f = .ok i ↔
    ∃ op, Op.ofCode (opField f.header) = some op ∧ f.header &&& op.reservedMask = 0
      ∧ f.args.length = op.nargs f.header (f.args.headD 0) ∧ decodeArgs op f.header f.args = .ok i := by
  unfold decode
  cases Op.ofCode (opField f.header) with
  | none => simp
  | some op =>
    simp only [bne_iff_ne, Option.some.injEq, exists_eq_left']
    split_ifs <;> simp_all

/-! ### Decoding what was encoded -/

/-- The frame of a well-formed request passes the checks of R118 items 1 to 3. -/
theorem encode_shape : ∀ i : Instr, Laws.EncodeShape.Statement i
  | .nop => Laws.EncodeShape.nop
  | .wrcmd word => Laws.EncodeShape.wrcmd word
  | .wrdata word => Laws.EncodeShape.wrdata word
  | .wrdata8 byte => Laws.EncodeShape.wrdata8 byte
  | .rdword => Laws.EncodeShape.rdword
  | .wrreg cmd data => Laws.EncodeShape.wrreg cmd data
  | .wrregp cmd params => Laws.EncodeShape.wrregp cmd params
  | .rdreg addr index => Laws.EncodeShape.rdreg addr index
  | .rdreg32 addr => Laws.EncodeShape.rdreg32 addr
  | .rdreg40 addr => Laws.EncodeShape.rdreg40 addr
  | .inittbl8 bracket table => Laws.EncodeShape.inittbl8 bracket table
  | .inittbl16 bracket pairs => Laws.EncodeShape.inittbl16 bracket pairs
  | .setrot r => Laws.EncodeShape.setrot r
  | .setwin x0 y0 x1 y1 => Laws.EncodeShape.setwin x0 y0 x1 y1
  | .invert on => Laws.EncodeShape.invert on
  | .vscroll top lines offset => Laws.EncodeShape.vscroll top lines offset
  | .pushpix first colors => Laws.EncodeShape.pushpix first colors
  | .wrpix x y color => Laws.EncodeShape.wrpix x y color
  | .rdpix x y w h => Laws.EncodeShape.rdpix x y w h
  | .wrcfg index value => Laws.EncodeShape.wrcfg index value
  | .rdcfg index => Laws.EncodeShape.rdcfg index
  | .rdstate index => Laws.EncodeShape.rdstate index
  | .clrstat => Laws.EncodeShape.clrstat
  | .delay ms => Laws.EncodeShape.delay ms
  | .busreset => Laws.EncodeShape.busreset

@[simp] theorem flagBit_mkHeader (op : Op) (b : Bool) (imm : Half) :
    flagBit (mkHeader op ((BitVec.ofBool b).setWidth 8) imm) = b := by simp [flagBit]

/-- A field is read back from the wider field it was put into. -/
theorem extract_setWidth {k w : Nat} (v : BitVec k) (h : k ≤ w) : (v.setWidth w).extractLsb' 0 k = v := by
  apply BitVec.eq_of_getLsbD_eq
  intro j hj
  simp [hj, show j < w by omega]

/-- A byte string whose length fits its k-bit count is read back whole. -/
theorem takePadded_packBytes {k : Nat} {bs : List Byte} (h : bs.length < 2 ^ k) :
    takePadded (BitVec.ofNat k bs.length).toNat ((packBytes bs).flatMap wordBytes) = .ok bs := by
  rw [BitVec.toNat_ofNat, Nat.mod_eq_of_lt h, unpack_packBytes]
  exact takePadded_padded _ _ _ rfl

/-- A pixel string whose length fits its k-bit count is read back whole. -/
theorem takePadded_packHalves {k : Nat} {cs : List Half} (h : cs.length < 2 ^ k) :
    takePadded (BitVec.ofNat k cs.length).toNat ((packHalves cs).flatMap wordHalves) = .ok cs := by
  rw [BitVec.toNat_ofNat, Nat.mod_eq_of_lt h, unpack_packHalves]
  exact takePadded_padded _ _ _ rfl

/-- The arguments and the header of a well-formed request are read as that request (R116). -/
theorem decodeArgs_encode {i : Instr} (hwf : i.wellFormed = true) :
    decodeArgs i.op (mkHeader i.op i.a8 i.imm) i.args = .ok i := by
  cases i with
  | nop | rdword | clrstat | busreset => rfl
  | wrcmd | wrdata | rdreg | rdreg32 | rdreg40 | delay | setwin | wrpix | rdpix | wrreg | vscroll | invert =>
    simp [decodeArgs, Instr.op, Instr.a8, Instr.imm, Instr.args]
  | wrdata8 | setrot => simp [decodeArgs, Instr.op, Instr.a8, Instr.imm, Instr.args, loByte, extract_setWidth]
  | wrcfg | rdcfg | rdstate => simpa [decodeArgs, Instr.op, Instr.a8, Instr.imm, Instr.args] using of_decide_eq_true hwf
  | inittbl16 bracket pairs => simp [decodeArgs, Instr.op, Instr.a8, Instr.imm, Instr.args, Function.comp_def]
  | wrregp cmd params =>
    have hitems : takePadded _ _ = .ok params := takePadded_packBytes (of_decide_eq_true hwf)
    simp only [decodeArgs, Instr.op, Instr.a8, Instr.imm, Instr.args, a8Field_mkHeader, immField_mkHeader, hitems]
    rfl
  | inittbl8 bracket table =>
    have hitems : takePadded _ _ = .ok table := takePadded_packBytes (of_decide_eq_true hwf)
    simp only [decodeArgs, Instr.op, Instr.a8, Instr.imm, Instr.args, flagBit_mkHeader, immField_mkHeader, hitems]
    rfl
  | pushpix first colors =>
    have hitems : takePadded _ _ = .ok colors := takePadded_packHalves (of_decide_eq_true hwf)
    simp only [decodeArgs, Instr.op, Instr.a8, Instr.imm, Instr.args, countAndString, flagBit_mkHeader, hitems]
    rfl

/-- Settles O1: the frame passes the checks of the header, and its arguments are read back. -/
theorem decodeInvertsEncode : Obligations.DecodeInvertsEncode := by
  intro i hwf
  obtain ⟨hop, hmask, hlen⟩ := encode_shape i hwf
  exact decode_eq_ok.mpr ⟨i.op, hop, hmask, hlen, decodeArgs_encode hwf⟩

/-! ### What the reserved header bits leave (R115 to R117) -/

/-- How many low bits of A8 an opcode's row uses. -/
def Op.a8Bits : Op → Nat
  | .wrregp | .rdreg | .wrcfg | .rdcfg | .rdstate => 8
  | .setrot => 2
  | .inittbl8 | .inittbl16 | .invert | .pushpix => 1
  | .nop | .wrcmd | .wrdata | .wrdata8 | .rdword | .wrreg | .rdreg32 | .rdreg40 | .setwin | .vscroll | .wrpix | .rdpix
  | .clrstat | .delay | .busreset => 0

/-- How many low bits of IMM16 an opcode's row uses. -/
def Op.immBits : Op → Nat
  | .wrcmd | .wrdata | .wrreg | .wrregp | .rdreg | .rdreg32 | .rdreg40 | .inittbl8 | .inittbl16 | .wrpix | .delay => 16
  | .wrdata8 => 8
  | .nop | .rdword | .setrot | .setwin | .invert | .vscroll | .pushpix | .rdpix | .wrcfg | .rdcfg | .rdstate | .clrstat
  | .busreset => 0

theorem a8Field_reservedMask (op : Op) : a8Field op.reservedMask = BitVec.allOnes 8 <<< op.a8Bits := by cases op <;> rfl

theorem immField_reservedMask (op : Op) : immField op.reservedMask = BitVec.allOnes 16 <<< op.immBits := by cases op <;> rfl

/-- A value whose bits from k up are zero is its low k bits. -/
theorem eq_low_of_reserved {w k : Nat} {v : BitVec w} (h : v &&& BitVec.allOnes w <<< k = 0) :
    (v.extractLsb' 0 k).setWidth w = v := by
  apply BitVec.eq_of_getLsbD_eq
  intro j hj
  have hbit := congrArg (·.getLsbD j) h
  by_cases hk : j < k
  · simp [hj, hk]
  · simpa [hk, hj] using hbit.symm

theorem eq_zero_of_eq_low {w k : Nat} {v : BitVec w} (h : (v.extractLsb' 0 k).setWidth w = v) (hk : k = 0) : 0 = v := by
  subst hk
  simpa using h

/-- Where a header's reserved bits are zero, its operand fields are the bits that its row uses. -/
theorem fields_of_reserved {h : Word} {op : Op} (hmask : h &&& op.reservedMask = 0) :
    ((a8Field h).extractLsb' 0 op.a8Bits).setWidth 8 = a8Field h
      ∧ ((immField h).extractLsb' 0 op.immBits).setWidth 16 = immField h := by
  have ha8 : a8Field h &&& a8Field op.reservedMask = 0 := BitVec.extractLsb'_and.symm.trans (congrArg a8Field hmask)
  have himm : immField h &&& immField op.reservedMask = 0 := BitVec.extractLsb'_and.symm.trans (congrArg immField hmask)
  rw [a8Field_reservedMask] at ha8
  rw [immField_reservedMask] at himm
  exact ⟨eq_low_of_reserved ha8, eq_low_of_reserved himm⟩

/-- A8 with one bit in use is the sub-flag. -/
theorem flag_eq_a8Field {h : Word} (hlow : ((a8Field h).extractLsb' 0 1).setWidth 8 = a8Field h) :
    (BitVec.ofBool (flagBit h)).setWidth 8 = a8Field h := by
  have hflag : BitVec.ofBool (flagBit h) = (a8Field h).extractLsb' 0 1 := by
    apply BitVec.eq_of_getLsbD_eq
    intro j hj
    obtain rfl : j = 0 := by omega
    simp [flagBit]
  rw [hflag, hlow]

/-! ### Encoding what was decoded -/

theorem zero_append_loHalf {w : Word} (h : hiHalf w = 0) : (0 : Half) ++ loHalf w = w := by
  rw [← h, hiHalf_append_loHalf]

/-- A byte string read from as many words as it needs packs into those words (R112). -/
theorem takePadded_bytes_ok {ws : List Word} {n : Nat} {out : List Byte} (hlen : ws.length = wordsFor n 4)
    (h : takePadded n (ws.flatMap wordBytes) = .ok out) : out.length = n ∧ packBytes out = ws := by
  obtain ⟨rfl, hpad⟩ := takePadded_eq_ok.mp h
  refine ⟨?_, packBytes_unpack ws n hlen hpad⟩
  rw [List.length_take, flatMap_wordBytes_length, hlen, wordsFor]
  omega

/-- A pixel string read from as many words as it needs packs into those words (R112). -/
theorem takePadded_halves_ok {ws : List Word} {n : Nat} {out : List Half} (hlen : ws.length = wordsFor n 2)
    (h : takePadded n (ws.flatMap wordHalves) = .ok out) : out.length = n ∧ packHalves out = ws := by
  obtain ⟨rfl, hpad⟩ := takePadded_eq_ok.mp h
  refine ⟨?_, packHalves_unpack ws n hlen hpad⟩
  rw [List.length_take, flatMap_wordHalves_length, hlen, wordsFor]
  omega

/-- The request read from a checked header and its arguments is well-formed and has that header's fields and those arguments. -/
theorem decodeArgs_carried {op : Op} {h : Word} {args : List Word} {i : Instr} (hmask : h &&& op.reservedMask = 0)
    (hlen : args.length = op.nargs h (args.headD 0)) (hi : decodeArgs op h args = .ok i) :
    i.op = op ∧ i.wellFormed = true ∧ i.a8 = a8Field h ∧ i.imm = immField h ∧ i.args = args := by
  obtain ⟨ha8, himm⟩ := fields_of_reserved hmask
  have noA8 := eq_zero_of_eq_low ha8
  have noImm := eq_zero_of_eq_low himm
  cases op with
  | nop | rdword | clrstat | busreset =>
    obtain ⟨rfl, rfl⟩ := noArgs_eq_ok.mp hi
    exact ⟨rfl, rfl, noA8 rfl, noImm rfl, rfl⟩
  | wrcmd | wrdata | rdreg32 | rdreg40 | delay =>
    obtain ⟨rfl, rfl⟩ := noArgs_eq_ok.mp hi
    exact ⟨rfl, rfl, noA8 rfl, rfl, rfl⟩
  | wrdata8 =>
    obtain ⟨rfl, rfl⟩ := noArgs_eq_ok.mp hi
    exact ⟨rfl, rfl, noA8 rfl, himm, rfl⟩
  | rdreg =>
    obtain ⟨rfl, rfl⟩ := noArgs_eq_ok.mp hi
    exact ⟨rfl, rfl, rfl, rfl, rfl⟩
  | setrot =>
    obtain ⟨rfl, rfl⟩ := noArgs_eq_ok.mp hi
    exact ⟨rfl, rfl, ha8, noImm rfl, rfl⟩
  | invert =>
    obtain ⟨rfl, rfl⟩ := noArgs_eq_ok.mp hi
    exact ⟨rfl, rfl, flag_eq_a8Field ha8, noImm rfl, rfl⟩
  | rdcfg | rdstate =>
    obtain ⟨_, hread, hi⟩ := bind_eq_ok.mp hi
    obtain ⟨rfl, rfl⟩ := noArgs_eq_ok.mp hread
    obtain ⟨hindex, rfl⟩ := withIndex_eq_ok.mp hi
    exact ⟨rfl, decide_eq_true hindex, rfl, noImm rfl, rfl⟩
  | wrcfg =>
    obtain ⟨v, rfl, hi⟩ := oneArg_eq_ok.mp hi
    obtain ⟨hindex, rfl⟩ := withIndex_eq_ok.mp hi
    exact ⟨rfl, decide_eq_true hindex, rfl, noImm rfl, rfl⟩
  | wrreg =>
    obtain ⟨a, rfl, hi⟩ := oneArg_eq_ok.mp hi
    obtain ⟨hhigh, rfl⟩ := withZeroHigh_eq_ok.mp hi
    exact ⟨rfl, rfl, noA8 rfl, rfl, congrArg (fun a => [a]) (zero_append_loHalf hhigh)⟩
  | wrpix =>
    obtain ⟨a, rfl, hi⟩ := oneArg_eq_ok.mp hi
    cases hi
    exact ⟨rfl, rfl, noA8 rfl, rfl, by simp [Instr.args]⟩
  | setwin | rdpix =>
    obtain ⟨a, b, rfl, hi⟩ := twoArgs_eq_ok.mp hi
    cases hi
    exact ⟨rfl, rfl, noA8 rfl, noImm rfl, by simp [Instr.args]⟩
  | vscroll =>
    obtain ⟨a, b, rfl, hi⟩ := twoArgs_eq_ok.mp hi
    obtain ⟨hhigh, rfl⟩ := withZeroHigh_eq_ok.mp hi
    exact ⟨rfl, rfl, noA8 rfl, noImm rfl,
      congrArg₂ (fun a b => [a, b]) (hiHalf_append_loHalf a) (zero_append_loHalf hhigh)⟩
  | wrregp =>
    obtain ⟨params, hparams, rfl⟩ := map_eq_ok.mp hi
    obtain ⟨hn, hws⟩ := takePadded_bytes_ok hlen hparams
    exact ⟨rfl, decide_eq_true (hn ▸ (a8Field h).isLt), by simp [Instr.a8, hn], rfl, hws⟩
  | inittbl8 =>
    obtain ⟨table, htable, rfl⟩ := map_eq_ok.mp hi
    obtain ⟨hn, hws⟩ := takePadded_bytes_ok hlen htable
    exact ⟨rfl, decide_eq_true (hn ▸ (immField h).isLt), flag_eq_a8Field ha8, by simp [Instr.imm, hn], hws⟩
  | inittbl16 =>
    cases hi
    have hn : (args.map fun a => (hiHalf a, loHalf a)).length = (immField h).toNat := (List.length_map _).trans hlen
    exact ⟨rfl, decide_eq_true (hn ▸ (immField h).isLt), flag_eq_a8Field ha8, by simp [Instr.imm, hn],
      by simp [Instr.args, Function.comp_def]⟩
  | pushpix =>
    obtain ⟨n, ws, rfl, hi⟩ := countAndString_eq_ok.mp hi
    obtain ⟨colors, hcolors, rfl⟩ := map_eq_ok.mp hi
    have hcount : ws.length = wordsFor n.toNat 2 := Nat.succ.inj (hlen.trans (Nat.add_comm 1 _))
    obtain ⟨hn, hws⟩ := takePadded_halves_ok hcount hcolors
    exact ⟨rfl, decide_eq_true (hn ▸ n.isLt), flag_eq_a8Field ha8, noImm rfl, by simp [Instr.args, hn, hws]⟩

/-- A request with the fields and the arguments of a frame encodes to that frame (R111). -/
theorem encode_eq_of_fields {f : Frame} {i : Instr} (hop : Op.ofCode (opField f.header) = some i.op)
    (ha8 : i.a8 = a8Field f.header) (himm : i.imm = immField f.header) (hargs : i.args = f.args) : encode i = f := by
  rw [encode, mkHeader, ofCode_eq_some.mp hop, ha8, himm, hargs, header_eq_fields]

/-- Settles O2: what decodes carries every field of the frame. -/
theorem encodeInvertsDecode : Obligations.EncodeInvertsDecode := by
  intro f i h
  obtain ⟨op, hop, hmask, hlen, hi⟩ := decode_eq_ok.mp h
  obtain ⟨rfl, hwf, ha8, himm, hargs⟩ := decodeArgs_carried hmask hlen hi
  exact ⟨hwf, encode_eq_of_fields hop ha8 himm hargs⟩

end Sys2Proof
end

section
/-! SUPPORT. Where the items of packed strings lie, and which frames are legal, in the terms of R112, R113, R116 and R118; the settled
statements of 30_encoding.md on them, and the spec's examples. -/

namespace Sys2Proof

open Claims

/-! ### Positions in packed strings (R112) -/

theorem stringByte_eq_unpacked (ws : List Word) (k : Nat) : stringByte ws k = (ws.flatMap wordBytes).getD k 0 := by
  induction ws generalizing k with
  | nil => simp [stringByte]
  | cons w ws ih =>
    match k with
    | 0 | 1 | 2 | 3 => rfl
    | k + 4 =>
      have hrest : stringByte (w :: ws) (k + 4) = stringByte ws k := by simp [stringByte]
      exact hrest.trans (ih k)

theorem stringHalf_eq_unpacked (ws : List Word) (k : Nat) : stringHalf ws k = (ws.flatMap wordHalves).getD k 0 := by
  induction ws generalizing k with
  | nil => simp [stringHalf]
  | cons w ws ih =>
    match k with
    | 0 | 1 => rfl
    | k + 2 =>
      have hrest : stringHalf (w :: ws) (k + 2) = stringHalf ws k := by simp [stringHalf]
      exact hrest.trans (ih k)

/-- Zero padding does not show past the end of a list read with default zero. -/
theorem getD_append_zeros {w : Nat} (xs : List (BitVec w)) (n k : Nat) :
    (xs ++ List.replicate n 0).getD k 0 = xs.getD k 0 := by
  obtain h | h := Nat.lt_or_ge k xs.length
  · exact List.getD_append xs _ 0 k h
  · rw [List.getD_append_right xs _ 0 k h, List.getD_eq_default xs 0 h, List.getD_eq_getElem?_getD,
      List.getElem?_getD_replicate_default_eq]

/-- Settles O4: an item of a packed string is the item of the list it unpacks to, the list and its zero padding. -/
theorem packedStringsPlaceItems : Obligations.PackedStringsPlaceItems := by
  constructor
  · intro bs
    refine ⟨packBytes_length bs, fun k => ?_⟩
    rw [stringByte_eq_unpacked, unpack_packBytes, getD_append_zeros]
  · intro cs
    refine ⟨packHalves_length cs, fun k => ?_⟩
    rw [stringHalf_eq_unpacked, unpack_packHalves, getD_append_zeros]

/-! ### Which arguments are accepted (R118 items 4 and 5) -/

theorem exists_map_ok {α β : Type} {g : α → β} {r : Except DecodeError α} : (∃ b, r.map g = .ok b) ↔ ∃ a, r = .ok a := by
  cases r <;> simp [Except.map]

/-- A padded string is accepted when every position from its count on is zero. -/
theorem exists_takePadded_ok {w n : Nat} {items : List (BitVec w)} :
    (∃ out, takePadded n items = .ok out) ↔ ∀ k, n ≤ k → items.getD k 0 = 0 := by
  simp only [takePadded_eq_ok, exists_eq_left]
  constructor
  · intro h k hk
    obtain ⟨j, rfl⟩ := Nat.exists_eq_add_of_le hk
    rw [List.getD_eq_getElem?_getD, ← List.getElem?_drop]
    cases hj : (items.drop n)[j]? with
    | none => rfl
    | some b => exact h b (List.mem_of_getElem? hj)
  · intro h b hb
    obtain ⟨j, hj⟩ := List.mem_iff_getElem?.mp hb
    have hzero := h (n + j) (Nat.le_add_right n j)
    rwa [List.getD_eq_getElem?_getD, ← List.getElem?_drop, hj] at hzero

/-- What R118 items 4 and 5 ask of the arguments and the index of a frame, by opcode. -/
def Op.ArgsLegal (h : Word) (args : List Word) : Op → Prop
  | .wrreg => hiHalf (args.getD 0 0) = 0
  | .vscroll => hiHalf (args.getD 1 0) = 0
  | .wrregp => ∀ k, (a8Field h).toNat ≤ k → stringByte args k = 0
  | .inittbl8 => ∀ k, (immField h).toNat ≤ k → stringByte args k = 0
  | .pushpix => ∀ k, (args.getD 0 0).toNat ≤ k → stringHalf args.tail k = 0
  | .wrcfg | .rdcfg => (a8Field h).toNat ≤ maxCfgIndex
  | .rdstate => (a8Field h).toNat ≤ maxStIndex
  | .nop | .wrcmd | .wrdata | .wrdata8 | .rdword | .rdreg | .rdreg32 | .rdreg40 | .inittbl16 | .setrot | .setwin | .invert
  | .wrpix | .rdpix | .clrstat | .delay | .busreset => True

/-- Arguments of the right length are read as a request exactly when R118 items 4 and 5 do not hold of them. -/
theorem exists_decodeArgs_ok {op : Op} {h : Word} {args : List Word} (hlen : args.length = op.nargs h (args.headD 0)) :
    (∃ i, decodeArgs op h args = .ok i) ↔ op.ArgsLegal h args := by
  cases op with
  | nop | wrcmd | wrdata | wrdata8 | rdword | rdreg | rdreg32 | rdreg40 | setrot | invert | clrstat | delay | busreset
  | rdcfg | rdstate =>
    obtain rfl := List.eq_nil_of_length_eq_zero hlen
    simp [decodeArgs, Op.ArgsLegal]
  | wrreg | wrpix | wrcfg =>
    obtain ⟨a, rfl⟩ := List.length_eq_one_iff.mp hlen
    simp [decodeArgs, Op.ArgsLegal]
  | setwin | vscroll | rdpix =>
    obtain ⟨a, b, rfl⟩ := List.length_eq_two.mp hlen
    simp [decodeArgs, Op.ArgsLegal]
  | inittbl16 => simp [decodeArgs, Op.ArgsLegal]
  | wrregp | inittbl8 => simp only [decodeArgs, Op.ArgsLegal, exists_map_ok, exists_takePadded_ok, stringByte_eq_unpacked]
  | pushpix =>
    obtain ⟨n, ws, rfl⟩ := List.exists_cons_of_length_eq_add_one (hlen.trans (Nat.add_comm 1 _))
    simp only [decodeArgs, Op.ArgsLegal, countAndString, exists_map_ok, exists_takePadded_ok, stringHalf_eq_unpacked,
      List.tail_cons, List.getD_cons_zero]

/-! ### Legal frames (R113, R116, R118) -/

theorem opcodeRows_eq : opcodeRows = Op.all.map fun op => (op.code, op.reservedMask) := rfl

theorem mem_all (op : Op) : op ∈ Op.all := by cases op <;> decide

theorem exists_opcodeRow {h : Word} {b : Byte} : (∃ row ∈ opcodeRows, row.1.toNat = b.toNat ∧ h &&& row.2 = 0)
    ↔ ∃ op, Op.ofCode b = some op ∧ h &&& op.reservedMask = 0 := by
  simp [opcodeRows_eq, mem_all, ofCode_eq_some, BitVec.toNat_inj]

theorem rowNargs_code (op : Op) (h arg0 : Word) :
    rowNargs op.code.toNat (a8Field h).toNat (immField h).toNat arg0.toNat = op.nargs h arg0 := by cases op <;> rfl

/-- Of a frame with a known opcode, R118 asks what the decoder checks for that opcode. -/
theorem frameLegal_iff {f : Frame} {op : Op} (hop : Op.ofCode (opField f.header) = some op) :
    frameLegal f ↔ f.header &&& op.reservedMask = 0 ∧ f.args.length = op.nargs f.header (f.args.headD 0)
      ∧ op.ArgsLegal f.header f.args := by
  have hcode : f.header.extractLsb' 24 8 = op.code := (ofCode_eq_some.mp hop).symm
  have hlen : rowNargs op.code.toNat (f.header.extractLsb' 16 8).toNat (f.header.extractLsb' 0 16).toNat
      (f.args.getD 0 0).toNat = op.nargs f.header (f.args.headD 0) := by
    rw [List.headD_eq_getD]
    exact rowNargs_code op f.header _
  simp only [frameLegal, hcode, hlen]
  refine and_congr (exists_opcodeRow.trans (by simp)) (and_congr_right fun _ => ?_)
  cases op <;> simp [Op.code, Op.ArgsLegal, maxCfgIndex, maxStIndex, hiHalf, a8Field, immField]

/-- Settles O3: an unknown opcode is neither decoded nor legal, and for a known one the decoder's checks are those of R118. -/
theorem frameDecodesIffLegal : Obligations.FrameDecodesIffLegal := by
  intro f
  cases hop : Op.ofCode (opField f.header) with
  | none =>
    constructor
    · rintro ⟨i, hi⟩
      obtain ⟨op, hop', -⟩ := decode_eq_ok.mp hi
      cases hop.symm.trans hop'
    · rintro ⟨hrow, -⟩
      obtain ⟨op, hop', -⟩ := exists_opcodeRow.mp hrow
      cases hop.symm.trans hop'
  | some op =>
    rw [frameLegal_iff hop]
    simp only [decode_eq_ok, hop, Option.some.injEq, exists_eq_left', exists_and_left]
    exact and_congr_right fun _ => and_congr_right fun hlen => exists_decodeArgs_ok hlen

/-! ### The spec's examples (R116, R119) -/

/-- Settles O5, by evaluation of the decoder on seven frames. -/
theorem specWordsDecode : Obligations.SpecWordsDecode := by
  unfold Obligations.SpecWordsDecode
  decide

/-- Settles O57, by evaluation of the assembler on four lines. -/
theorem specTextAssembles : Obligations.SpecTextAssembles := by
  unfold Obligations.SpecTextAssembles
  decide

end Sys2Proof
end

section
/-! SUPPORT. What a request appends to the response (R114): only the reads respond, and windows, pixels and rotation do not. The settled
statement `ResponseLengthIsFixed`. -/

namespace Sys2Proof.Machine

/-! ### What responds nothing -/

@[simp] theorem setWindow_resp (x0 y0 x1 y1 : Int) (s : State) : (setWindow x0 y0 x1 y1 s).resp = s.resp := by
  obtain ⟨win, es, h⟩ := setWindow_leaves x0 y0 x1 y1 s
  rw [h]
  rfl

@[simp] theorem setFullWindow_resp (s : State) : (setFullWindow s).resp = s.resp := setWindow_resp ..

@[simp] theorem resetWindow_resp (s : State) : (resetWindow s).resp = s.resp := by
  unfold resetWindow
  split
  · exact setFullWindow_resp s
  · rfl

@[simp] theorem vScroll_resp (top lines : Half) (offset : Int) (s : State) : (vScroll top lines offset s).resp = s.resp := by
  unfold vScroll
  split <;> rfl

@[simp] theorem resetScroll_resp (s : State) : (resetScroll s).resp = s.resp := by
  rw [resetScroll_eq]
  rfl

@[simp] theorem setRotation_resp (r : BitVec 2) (s : State) : (setRotation r s).resp = s.resp := by
  rw [setRotation_eq, resetScroll_resp, resetWindow_resp]
  rfl

@[simp] theorem writePixelAt_resp (x y : Int) (color : Half) (s : State) : (writePixelAt x y color s).resp = s.resp := by
  unfold writePixelAt
  split
  · rfl
  · exact setWindow_resp x y x y s

@[simp] theorem readRegister_resp (addr : Half) (index : Nat) (s : State) : (readRegister addr index s).2.resp = s.resp := by
  rw [readRegister_eq]
  rfl

@[simp] theorem readRegister32_resp (addr : Half) (s : State) : (readRegister32 addr s).2.resp = s.resp :=
  (readRegister_resp addr 1 (readRegister addr 0 s).2).trans (readRegister_resp addr 0 s)

@[simp] theorem readRegister40_resp (addr : Half) (s : State) : (readRegister40 addr s).2.resp = s.resp :=
  (readRegister_resp addr 2 (readRegister32 addr s).2).trans (readRegister32_resp addr s)

/-- The bytes, samples and points read on the bus are not yet a response (R284, R285). -/
theorem gramRead_resp (n : Nat) (s : State) : ((readSamples n (openGramRead s)).2.perform [.dir .out]).resp = s.resp := by
  rw [gramRead_eq]
  rfl

@[simp] theorem autoincRead_resp (x y : Int) (w h : Nat) (s : State) : (autoincRead x y w h s).2.resp = s.resp :=
  (gramRead_resp (w * h) _).trans (setWindow_resp ..)

theorem readPoints_resp (ps : List (Int × Int)) (s : State) : (readPoints ps s).2.resp = s.resp := by
  induction ps generalizing s with
  | nil => rfl
  | cons p ps ih =>
    have hpoint : (readPoint p s).2.resp = s.resp := (gramRead_resp 1 _).trans (setWindow_resp ..)
    exact (ih _).trans hpoint

@[simp] theorem perSampleRead_resp (x y : Int) (w h : Nat) (s : State) : (perSampleRead x y w h s).2.resp = s.resp :=
  readPoints_resp _ s

/-! ### The length of a response -/

/-- The response length of a request (R114, R116). -/
def responseLength : Instr → Nat
  | .rdword | .rdreg _ _ | .rdreg32 _ | .rdcfg _ | .rdstate _ => 1
  | .rdreg40 _ => 2
  | .rdpix _ _ w h => (w.toNat * h.toNat + 1) / 2
  | .nop | .wrcmd _ | .wrdata _ | .wrdata8 _ | .wrreg _ _ | .wrregp _ _ | .inittbl8 _ _ | .inittbl16 _ _ | .setrot _
  | .setwin _ _ _ _ | .invert _ | .vscroll _ _ _ | .pushpix _ _ | .wrpix _ _ _ | .wrcfg _ _ | .clrstat | .delay _
  | .busreset => 0

theorem autoincRead_length (x y : Int) (w h : Nat) (s : State) : (autoincRead x y w h s).1.length = w * h :=
  readSamples_length (w * h) _

theorem perSampleRead_length (x y : Int) (w h : Nat) (s : State) : (perSampleRead x y w h s).1.length = w * h :=
  (readPoints_length _ s).trans (rectPoints_length x y w h)

/-- RDPIX responds its w*h samples two to a word, zeros off the screen (R284). -/
theorem readPixels_resp_length (x y : Int) (w h : Nat) (s : State) :
    (readPixels x y w h s).resp.length = s.resp.length + (w * h + 1) / 2 := by
  unfold readPixels
  split
  next hzero => obtain rfl | rfl := hzero <;> simp
  split
  · simp [packHalves_length, wordsFor]
  · cases capAutoincRead (capsOf s.cfg) with
    | true => simp [packHalves_length, wordsFor, autoincRead_length]
    | false => simp [packHalves_length, wordsFor, perSampleRead_length]

theorem respond_resp_length {s t : State} (h : t.resp = s.resp) (ws : List Word) :
    (t.respond ws).resp.length = s.resp.length + ws.length := by rw [respond_resp, List.length_append, h]

/-- The body of every bus request appends its response and nothing else. -/
theorem busBody_resp_length {i : Instr} (hi : isBusRequest i = true) (s : State) :
    (busBody i s).resp.length = s.resp.length + responseLength i := by
  cases i with
  | nop | wrcfg | rdcfg | rdstate | clrstat | delay | busreset => cases hi
  | wrcmd | wrdata | wrdata8 | wrreg | wrregp | inittbl8 | inittbl16 | pushpix | invert => rfl
  | setrot r => exact congrArg List.length (setRotation_resp r s)
  | setwin x0 y0 x1 y1 => exact congrArg List.length (setWindow_resp ..)
  | vscroll top lines offset => exact congrArg List.length (vScroll_resp ..)
  | wrpix x y color => exact congrArg List.length (writePixelAt_resp ..)
  | rdword => exact respond_resp_length rfl _
  | rdreg addr index => exact respond_resp_length (readRegister_resp ..) _
  | rdreg32 addr => exact respond_resp_length (readRegister32_resp addr s) _
  | rdreg40 addr => exact respond_resp_length (readRegister40_resp addr s) _
  | rdpix x y w h => exact readPixels_resp_length ..

/-- A transaction leaves the response its body leaves (R141). -/
theorem busRun_resp (body : State → State) (s : State) : (busRun body s).resp = (body (bodyStart s)).resp := rfl

theorem exec_resp_length {i : Instr} {s t : State} (hwf : i.wellFormed = true) (h : exec i s = .next t) :
    t.resp.length = s.resp.length + responseLength i := by
  cases exec_to h with
  | bus hi _ =>
    rw [exec_eq_busRun hi] at h
    cases h
    rw [busRun_resp, busBody_resp_length hi, bodyStart_resp]
  | rdcfg | rdstate => exact respond_resp_length rfl _
  | rdcfgReserved hk => exact absurd (of_decide_eq_true hwf) (Nat.not_le_of_gt (cfgIndex_none.mp hk))
  | rdstateReserved hindex => exact absurd (of_decide_eq_true hwf) (Nat.not_le_of_gt hindex)
  | nop | wrcfg | wrcfgReserved | clrstat | delay | busreset => rfl

/-- Settles O46: `responseLength` is the table of the statement, request by request. -/
theorem responseLengthIsFixed : Obligations.ResponseLengthIsFixed := by
  intro i s t hwf h
  have hlen := exec_resp_length hwf h
  cases i <;> exact hlen

end Sys2Proof.Machine
end

section
/-! SUPPORT. What the pseudo-requests FULLWIN and FILL leave of the registers (R120), with the settled statement
`FillEndsAtFullScreen`. -/

namespace Sys2Proof.Machine

open Claims

theorem execAll_cons_bus {i : Instr} (hi : isBusRequest i = true) (rest : List Instr) (s : State) :
    execAll (i :: rest) s = execAll rest (busRun (busBody i) s) := by
  rw [execAll, exec_eq_busRun hi]

/-- A coordinate one below a geometry that a request can carry reads as that number (R7, R120). -/
theorem s16_sub_one {v : Half} (hpos : 0 < v.toNat) (hle : v.toNat ≤ 2 ^ 15) : s16 (v - 1) = v.toNat - 1 := by
  have hnat : (v - 1).toNat = v.toNat - 1 := by bv_omega
  rw [s16, BitVec.toInt_eq_toNat_of_lt (by omega), hnat]
  omega

/-- SETWIN at most moves the window (R229). -/
theorem RegsAfter.setwin_moved {c : Cfg} {st st' : StRegs} {x0 y0 x1 y1 : Half}
    (regs : RegsAfter c st (.setwin x0 y0 x1 y1) st') : WindowMoved st st' := by
  cases regs with
  | same => exact .refl st
  | setwin moved => exact moved

theorem busRun_st (body : State → State) (s : State) : (busRun body s).st = (body (bodyStart s)).st := rfl

theorem pushpix_st (first : Bool) (colors : List Half) (s : State) :
    (busRun (busBody (.pushpix first colors)) s).st = { s.st with busReady := true } := bodyStart_st s

/-- The SETWIN of FULLWIN sets the full screen (R120, R226). -/
theorem fullwin_st {s : State} {w h : Half} (hw : s.st.geomW = w) (hh : s.st.geomH = h) (hwpos : 0 < w.toNat)
    (hwle : w.toNat ≤ 2 ^ 15) (hhpos : 0 < h.toNat) (hhle : h.toNat ≤ 2 ^ 15) :
    (busRun (busBody (.setwin 0 0 (w - 1) (h - 1))) s).st = { s.st with win := fullWindow w h, busReady := true } := by
  subst hw hh
  have hbody : busBody (.setwin 0 0 (s.st.geomW - 1) (s.st.geomH - 1)) (bodyStart s) = setFullWindow (bodyStart s) := by
    simp only [busBody, setFullWindow, bodyStart_st, s16_sub_one hwpos hwle, s16_sub_one hhpos hhle]
    rfl
  have hfull := setFullWindow_of_pos (s := bodyStart s) (by simpa using hwpos) (by simpa using hhpos)
  rw [busRun_st, hbody, hfull, perform_st, bodyStart_st]
  rfl

/-- Settles O56: FULLWIN is the full-screen window request, and the window request and pixels that FILL puts before it move at most the
window, which FULLWIN then sets. -/
theorem fillEndsAtFullScreen : Obligations.FillEndsAtFullScreen := by
  intro s x y w h color hwpos hwle hhpos hhle
  constructor
  · exact ⟨_, execAll_cons_bus rfl [] s, fullwin_st rfl rfl hwpos hwle hhpos hhle, (busRun_ran _ s).cfg⟩
  · set placed := busRun (busBody (.setwin x y (x + w - 1) (y + h - 1))) s with hplaced
    set filled := busRun (busBody (.pushpix true (List.replicate (w.toNat * h.toNat) color))) placed with hfilled
    obtain ⟨win, hst, -⟩ := (busRun_ran (.setwin x y (x + w - 1) (y + h - 1)) s).regs.setwin_moved
    have hfst : filled.st = { s.st with win := win, busReady := true } := by
      rw [hfilled, pushpix_st, hplaced, hst]
    refine ⟨_, (execAll_cons_bus rfl _ s).trans ((execAll_cons_bus rfl _ _).trans (execAll_cons_bus rfl [] _)), ?_, ?_⟩
    · rw [fullwin_st (by rw [hfst]) (by rw [hfst]) hwpos hwle hhpos hhle, hfst]
    · exact (busRun_ran _ _).cfg.trans ((busRun_ran _ _).cfg.trans (busRun_ran _ s).cfg)

end Sys2Proof.Machine
end

section
/-! SUPPORT. One bus transaction seen from outside (R141 to R146): the events it frames, bring-up as the statements write it, where it
leaves the direction, and what the write requests and RDWORD answer, with the settled statements of the family. -/

namespace Sys2Proof.Machine

open Claims

/-! ### Pins (R142 to R145, R372) -/

/-- Settles O12: `Pins.after` has one equation per event. -/
theorem eventsMoveThePins : Obligations.EventsMoveThePins := by
  intro p
  exact ⟨fun _ _ => rfl, fun _ => rfl, fun _ => rfl, rfl, rfl, fun _ => rfl, fun _ => rfl, rfl⟩

/-- A read burst ends with the switch back to OUT (R144). -/
theorem readBurst_dir (bs : List Byte) (p : Pins) : ((readBurst bs).foldl Pins.after p).dir = .out := by
  rw [readBurst, List.foldl_cons, List.foldl_append]
  rfl

/-- A body that starts with the direction at OUT leaves it there (R144). -/
theorem BodyScript.dir {es : List Event} (h : BodyScript es) {p : Pins} (hp : p.dir = .out) :
    (es.foldl Pins.after p).dir = .out := by
  induction h generalizing p with
  | nil => exact hp
  | write rs b _ ih => exact ih (p := p.after (.w rs b)) hp
  | wait ms _ ih => exact ih (p := p.after (.delay ms)) hp
  | @read bs _ es _ ih =>
    rw [List.foldl_append]
    exact ih (readBurst_dir bs p)

/-- Bring-up and chip select leave the direction at OUT too (R141, R145, R372). -/
theorem busTrace_dir {s : State} {es : List Event} (hes : BodyScript es) (hdir : s.pins.dir = .out) :
    ((busTrace s es).foldl Pins.after s.pins).dir = .out := by
  have hready : ((if s.st.busReady then [] else bringUpScript s.cfg).foldl Pins.after s.pins).dir = .out := by
    split
    · exact hdir
    · rw [bringUpScript_pins]; rfl
  rw [busTrace, List.foldl_append]
  by_cases hne : es = []
  · rw [if_pos hne]
    exact hready
  · rw [if_neg hne, List.foldl_append, List.foldl_append]
    exact hes.dir hready

/-! ### The events of a transaction (R141) -/

theorem delayMs_eq_wait (n : Nat) : delayMs n = wait n := by
  unfold delayMs wait
  cases n <;> rfl

/-- The bring-up script is the events of R372 as the statements write them. -/
theorem bringUpScript_eq (c : Cfg) : bringUpScript c = bringUpEvents c := by
  unfold bringUpScript bringUpEvents
  simp only [delayMs_eq_wait, List.append_assoc, List.cons_append, List.nil_append]
  rfl

theorem mem_readBurst {bs : List Byte} {e : Event} :
    e ∈ readBurst bs ↔ e = .dir .inp ∨ (∃ b ∈ bs, .r b = e) ∨ e = .dir .out := by simp [readBurst]

/-- A body holds only cycles, direction switches and waits: it moves neither chip select nor RST_n. -/
theorem BodyScript.event_cases {es : List Event} (h : BodyScript es) {e : Event} (he : e ∈ es) :
    (∃ rs b, e = .w rs b) ∨ (∃ b, e = .r b) ∨ (∃ d, e = .dir d) ∨ ∃ n, e = .delay n := by
  induction h with
  | nil => cases he
  | write rs b _ ih =>
    rcases List.mem_cons.mp he with rfl | he
    · exact .inl ⟨rs, b, rfl⟩
    · exact ih he
  | wait ms _ ih =>
    rcases List.mem_cons.mp he with rfl | he
    · exact .inr (.inr (.inr ⟨ms, rfl⟩))
    · exact ih he
  | read _ _ ih =>
    rcases List.mem_append.mp he with hburst | he
    · obtain rfl | ⟨b, -, rfl⟩ | rfl := mem_readBurst.mp hburst
      · exact .inr (.inr (.inl ⟨.inp, rfl⟩))
      · exact .inr (.inl ⟨b, rfl⟩)
      · exact .inr (.inr (.inl ⟨.out, rfl⟩))
    · exact ih he

/-- A framable body without an event that needs the chip selected is empty. -/
theorem Framable.eq_nil {es : List Event} (h : Framable es) (hes : es.any Event.needsSelect = false) : es = [] := by
  by_contra hne
  simp [h hne] at hes

theorem busTrace_eq {es : List Event} (h : Framable es) (s : State) :
    busTrace s es = (if s.st.busReady then [] else bringUpEvents s.cfg)
      ++ (if es.any Event.needsSelect then [.cs false] ++ es ++ [.cs true] else []) := by
  rw [busTrace, bringUpScript_eq]
  congr 1
  by_cases hne : es = []
  · simp [hne]
  · rw [if_neg hne, if_pos (h hne)]

/-- No request of the bus class writes BUSREADY. -/
theorem RegsAfter.busReady {c : Cfg} {i : Instr} {st st' : StRegs} (regs : RegsAfter c st i st') : st'.busReady = st.busReady := by
  cases regs with
  | same | setrot | invert | vscroll => rfl
  | setwin moved | wrpix moved | rdpix moved => obtain ⟨win, rfl, -⟩ := moved; rfl

/-- Settles O11: every bus request runs a body script as one transaction (`busRun_ran`). -/
theorem busRequestsAreTransactions : Obligations.BusRequestsAreTransactions := by
  intro i s hi
  have ran := busRun_ran i s
  obtain ⟨es, hes, htrace, hpins⟩ := ran.events
  refine ⟨_, es, exec_eq_busRun hi s, ?_, fun e he => hes.event_cases he, hes.framable.eq_nil, ran.regs.busReady, fun hdir => ?_⟩
  · rw [htrace, busTrace_eq hes.framable, ← List.append_assoc]
  · rw [hpins]; exact busTrace_dir hes hdir

/-! ### The transport requests (R150 to R153, R175) -/

/-- Settles O16: each of the four requests performs one write-side script. -/
theorem writeRequestsSendTheirBytes : Obligations.WriteRequestsSendTheirBytes := by
  intro s cmd w b
  exact ⟨busAnswers_of_script rfl rfl (BodyScript.writeCommand w).framable,
    busAnswers_of_script rfl rfl (BodyScript.writeData w).framable,
    busAnswers_of_script rfl rfl (BodyScript.writeData8 b).framable,
    busAnswers_of_script rfl rfl (BodyScript.writeRegister cmd w).framable⟩

/-- A bus request whose body takes n coming samples, performs `es` and returns `a` answers that, and changes no state register but
BUSREADY. -/
theorem busAnswers_of_reads {α : Type} {i : Instr} {s : State} {body : State → α × State} {a : α} {n : Nat} {es : List Event}
    (out : α → List Word) (hexec : exec i s = .next ((busTxn body s).2.respond (out (busTxn body s).1)))
    (hbody : body (bodyStart s) = (a, afterReads (bodyStart s) n es)) (hes : Framable es) :
    BusAnswers i s es s.st (out a) n := by
  refine busAnswers_of_body out hexec ?_ hes ?_ ?_ ?_ ?_ ?_ ?_ <;> simp [hbody]

/-- The body of RDWORD returns the two coming samples as a word, the first in the high byte (R153). -/
theorem readWordAlone_eq (s : State) :
    readWordAlone s = (sampleAt s 0 ++ sampleAt s 1, afterReads s 2 (readBurst [sampleAt s 0, sampleAt s 1])) := by
  simp [readWordAlone, readWord_eq, readBurst]

/-- A 16-bit word zero-extended, as four bytes (R83, R153). -/
theorem zext32_append (a b : Byte) : zext32 (a ++ b) = fourBytes 0 0 a b := by
  have ha := a.isLt
  have hb := b.isLt
  apply BitVec.eq_of_toNat_eq
  simp only [zext32, fourBytes, toNat_concat, BitVec.toNat_setWidth, BitVec.ofNat_eq_ofNat, BitVec.toNat_ofNat]
  omega

/-- Settles O17: RDWORD runs `readWordAlone` as a transaction and responds with its word, zero-extended. -/
theorem rdwordReadsOneWord : Obligations.RdwordReadsOneWord := by
  intro s
  have hbody : readWordAlone (bodyStart s)
      = (sampleAt s 0 ++ sampleAt s 1, afterReads (bodyStart s) 2 (readBurst [sampleAt s 0, sampleAt s 1])) := by
    simpa using readWordAlone_eq (bodyStart s)
  have hburst : BodyScript (readBurst [sampleAt s 0, sampleAt s 1]) := .readBurst (List.cons_ne_nil _ _)
  rw [← zext32_append]
  exact busAnswers_of_reads (fun w => [zext32 w]) rfl hbody hburst.framable

end Sys2Proof.Machine
end

section
/-! SUPPORT. Register access (R170 to R187): the model's scripts are the event lists that the statements write, each register read is a
read group at the coming samples, and the byte table needs no more fuel than it has bytes; with the settled statements of the family. -/

namespace Sys2Proof.Machine

open Claims

/-! ### Parameter writes (R146, R171, R176) -/

theorem writeCommand_eq_command (w : Half) : writeCommand w = command w := rfl

/-- A parameter write is the events of R171 as the statements write them. -/
theorem writeRegisterParams_eq (c : Cfg) (cmd : Half) (params : List Byte) :
    writeRegisterParams c cmd params = paramWrites c cmd params := by
  unfold paramWrites
  split
  next h => exact writeRegisterParams_incrementing c cmd params h.1 h.2
  next h =>
    by_cases hne : params = []
    · subst hne
      unfold writeRegisterParams
      split <;> rfl
    · exact writeRegisterParams_plain c cmd params (Bool.eq_false_iff.mpr fun hinc => h ⟨hinc, hne⟩)

/-- A single byte goes out right after the command, whatever PARAM_ADDR_INC is. -/
theorem writeRegisterParams_singleton (c : Cfg) (cmd : Half) (b : Byte) :
    writeRegisterParams c cmd [b] = command cmd ++ [.w true b] := by
  unfold writeRegisterParams
  split <;> rfl

/-- Settles O18: WRREGP performs the parameter write of R171 as one transaction. -/
theorem wrregpSendsParameters : Obligations.WrregpSendsParameters := by
  intro s cmd bytes
  rw [← writeRegisterParams_eq]
  exact busAnswers_of_script (script := fun s => writeRegisterParams s.cfg cmd bytes) rfl (by rw [bodyStart_cfg])
    (BodyScript.writeRegisterParams s.cfg cmd bytes).framable

/-! ### Register reads (R172 to R174, R177 to R179) -/

theorem readGroup_framable {s : State} {addr : Half} {k n : Nat} : Framable (readGroup s addr k n) :=
  framable_of_left _ (writeCommand_needsSelect addr)

@[simp] theorem readGroup_bodyStart (s : State) (addr : Half) (k n : Nat) :
    readGroup (bodyStart s) addr k n = readGroup s addr k n := by simp [readGroup, readEvents]

/-- A register read after k read cycles is the read group at sample k, and keeps the last two of its samples (R172). -/
theorem readRegister_afterReads (addr : Half) (index k : Nat) (s : State) (es : List Event) :
    readRegister addr index (afterReads s k es) = (sampleAt s (k + 2 * index) ++ sampleAt s (k + (2 * index + 1)),
      afterReads s (k + 2 * (index + 1)) (es ++ readGroup s addr k (2 * (index + 1)))) := by
  have hreads (n : Nat) : (upcoming (afterReads s k es) n).map Event.r = readEvents s k n := by
    simp [upcoming, readEvents, sampleAt_afterReads, Function.comp_def]
  rw [readRegister_eq, sampleAt_afterReads, sampleAt_afterReads, afterReads_afterReads, hreads, readGroup]
  simp [writeCommand_eq_command]

/-- A register read is the read group at the first coming sample (R172). -/
theorem readRegister_group (addr : Half) (index : Nat) (s : State) :
    readRegister addr index s = (sampleAt s (2 * index) ++ sampleAt s (2 * index + 1),
      afterReads s (2 * (index + 1)) (readGroup s addr 0 (2 * (index + 1)))) := by
  simpa using readRegister_afterReads addr index 0 s []

/-- Settles O19: RDREG runs one register read as a transaction and responds with its word, zero-extended. -/
theorem rdregReturnsTheLastWord : Obligations.RdregReturnsTheLastWord := by
  intro s addr index
  have hbody := readRegister_group addr index.toNat (bodyStart s)
  simp only [sampleAt_bodyStart, readGroup_bodyStart] at hbody
  rw [← zext32_append]
  exact busAnswers_of_reads (body := readRegister addr index.toNat) (fun w => [zext32 w]) rfl hbody readGroup_framable

/-- Two words, the first the more significant, are their four bytes (R83, R173). -/
theorem append_halves_eq_fourBytes (a b c d : Byte) : (a ++ b) ++ (c ++ d) = fourBytes a b c d := by
  apply BitVec.eq_of_toNat_eq
  simp only [fourBytes, toNat_concat]
  omega

/-- The two reads of RDREG32 keep samples 0, 1 of the first group and 4, 5 of the second (R173). -/
theorem readRegister32_group (addr : Half) (s : State) :
    readRegister32 addr s = (fourBytes (sampleAt s 0) (sampleAt s 1) (sampleAt s 4) (sampleAt s 5),
      afterReads s 6 (readGroup s addr 0 2 ++ readGroup s addr 2 4)) := by
  rw [← append_halves_eq_fourBytes]
  simp [readRegister32, readRegister_group addr 0 s, readRegister_afterReads]

/-- The three words of RDREG40, given as their six bytes, less the first byte (R174). -/
def low40 (a b c d e f : Byte) : BitVec 40 := ((a ++ b) ++ (c ++ d) ++ (e ++ f) : BitVec 48).extractLsb' 0 40

/-- The three reads of RDREG40 keep samples 0, 1, then 4, 5, then 10, 11 (R174). -/
theorem readRegister40_group (addr : Half) (s : State) :
    readRegister40 addr s
      = (low40 (sampleAt s 0) (sampleAt s 1) (sampleAt s 4) (sampleAt s 5) (sampleAt s 10) (sampleAt s 11),
        afterReads s 12 (readGroup s addr 0 2 ++ readGroup s addr 2 4 ++ readGroup s addr 6 6)) := by
  simp [readRegister40, readRegister_group addr 0 s, readRegister_afterReads, low40]

/-- The first response word of RDREG40: byte 1 of the six (R179). -/
theorem low40_high (a b c d e f : Byte) : ((low40 a b c d e f).extractLsb' 32 8).setWidth 32 = fourBytes 0 0 0 b := by
  apply BitVec.eq_of_toNat_eq
  have := b.isLt
  simp only [low40, fourBytes, toNat_concat, BitVec.toNat_setWidth, BitVec.extractLsb'_toNat, Nat.shiftRight_eq_div_pow,
    BitVec.ofNat_eq_ofNat, BitVec.toNat_ofNat]
  omega

/-- The second response word of RDREG40: bytes 2 to 5 of the six (R179). -/
theorem low40_low (a b c d e f : Byte) : (low40 a b c d e f).extractLsb' 0 32 = fourBytes c d e f := by
  apply BitVec.eq_of_toNat_eq
  simp only [low40, fourBytes, toNat_concat, BitVec.extractLsb'_toNat, Nat.shiftRight_eq_div_pow]
  omega

/-- Settles O20: the reads are `readRegister32_group` and `readRegister40_group`, run as one transaction each. -/
theorem compositeReadsAreBigEndian : Obligations.CompositeReadsAreBigEndian := by
  intro s addr
  have h32 := readRegister32_group addr (bodyStart s)
  have h40 := readRegister40_group addr (bodyStart s)
  simp only [sampleAt_bodyStart, readGroup_bodyStart] at h32 h40
  have hframe : Framable (readGroup s addr 0 2 ++ readGroup s addr 2 4) :=
    framable_append readGroup_framable readGroup_framable
  refine ⟨busAnswers_of_reads (body := readRegister32 addr) (fun v => [v]) rfl h32 hframe, ?_⟩
  have answers := busAnswers_of_reads (i := .rdreg40 addr) (body := readRegister40 addr)
    (fun v => [(v.extractLsb' 32 8).setWidth 32, v.extractLsb' 0 32]) rfl h40 (framable_append hframe readGroup_framable)
  simpa only [low40_high, low40_low] using answers

/-! ### The byte table (R181, R182) -/

theorem zext16_eq (b : Byte) : zext16 b = (0 : Byte) ++ b := by
  apply BitVec.eq_of_toNat_eq
  have := b.isLt
  simp only [zext16, toNat_concat, BitVec.toNat_setWidth, BitVec.ofNat_eq_ofNat, BitVec.toNat_ofNat]
  omega

/-- An entry takes its two bytes, and perhaps parameters: what it leaves is no longer than what followed them. -/
theorem tableEntry8_left_length_le (c : Cfg) (cmd n : Byte) (rest : List Byte) :
    (tableEntry8 c cmd n rest).2.length ≤ rest.length := by
  unfold tableEntry8
  split_ifs <;> simp

/-- Fuel for as many entries as bytes is enough: more changes nothing. -/
theorem runEntries8_eq_of_length_le (c : Cfg) {f g : Nat} {table : List Byte} (hf : table.length ≤ f) (hg : table.length ≤ g) :
    runEntries8 c f table = runEntries8 c g table := by
  induction f generalizing g table with
  | zero => rw [List.eq_nil_of_length_eq_zero (Nat.le_zero.mp hf)]; simp [runEntries8]
  | succ f ih =>
    match table, g with
    | [], g => simp [runEntries8]
    | [b], g => simp [runEntries8]
    | cmd :: n :: rest, g + 1 =>
      have hleft := tableEntry8_left_length_le c cmd n rest
      simp only [List.length_cons] at hf hg
      simp only [runEntries8]
      rw [ih (g := g) (by omega) (by omega)]

/-- The byte table is its first entry's script, then the table it leaves (R181). -/
theorem runTable8_cons_cons (c : Cfg) (cmd n : Byte) (rest : List Byte) :
    runTable8 c (cmd :: n :: rest) = (tableEntry8 c cmd n rest).1 ++ runTable8 c (tableEntry8 c cmd n rest).2 := by
  have hleft := tableEntry8_left_length_le c cmd n rest
  exact congrArg (_ ++ ·) (runEntries8_eq_of_length_le c (Nat.le_succ_of_le hleft) le_rfl)

/-- One entry of the byte table as the statements write it: a delay where the sentinel stands, else a parameter write (R181). -/
theorem tableEntry8_eq (c : Cfg) (cmd n : Byte) (rest : List Byte) : tableEntry8 c cmd n rest =
    if (c.get 0x1E).getLsbD 0 = false ∧ n = 0x7F then (wait cmd.toNat, rest)
    else if (c.get 0x1E).getLsbD 0 = true ∧ cmd = 0x7F then (wait n.toNat, rest)
    else (paramWrites c ((0 : Byte) ++ cmd) (rest.take n.toNat), rest.drop n.toNat) := by
  simp only [tableEntry8, sentinelInCommand, cfgRead, delay8Sentinel, delayMs_eq_wait, writeRegisterParams_eq, zext16_eq,
    Bool.and_eq_true, Bool.not_eq_true', beq_iff_eq]

/-- Settles O21: the table's recursion (`runTable8_cons_cons`) with its entry split by where the sentinel stands. -/
theorem byteTableRunsEntryByEntry : Obligations.ByteTableRunsEntryByEntry := by
  intro c
  refine ⟨rfl, fun _ => rfl, fun cmd n rest => ?_⟩
  rw [runTable8_cons_cons, tableEntry8_eq]
  dsimp only
  split_ifs <;> rfl

/-! ### The table requests in the wake bracket (R180, R185 to R187) -/

theorem wakePrefix_eq (c : Cfg) : wakePrefix c = wakePrefixWrites c := by
  rw [wakePrefix, writeRegisterParams_singleton, delayMs_eq_wait, zext16_eq, zext16_eq, ← List.append_assoc]
  rfl

theorem wakeSuffix_eq (c : Cfg) : wakeSuffix c = wakeSuffixWrites c := by
  rw [wakeSuffix, delayMs_eq_wait, zext16_eq, zext16_eq]
  rfl

/-- The wake bracket is the events of R187 as the statements write them. -/
theorem inBracket_eq (c : Cfg) (bracket : Bool) (es : List Event) : inBracket c bracket es = bracketed c bracket es := by
  simp only [inBracket, bracketed, wakePrefix_eq, wakeSuffix_eq, Bool.and_eq_true]
  rfl

/-- Settles O22: INITTBL8 performs its table's script in the bracket as one transaction. -/
theorem inittbl8RunsItsTable : Obligations.Inittbl8RunsItsTable := by
  intro s bracket table
  rw [← inBracket_eq]
  exact busAnswers_of_script (script := fun s => inBracket s.cfg bracket (runTable8 s.cfg table)) rfl (by rw [bodyStart_cfg])
    (BodyScript.inBracket s.cfg bracket (.runEntries8 ..)).framable

/-- The word table is a write or a wait for each pair, as the statements write it (R186). -/
theorem runTable16_eq (c : Cfg) (pairs : List (Half × Half)) : runTable16 c pairs =
    pairs.flatMap fun p => if p.1 = (c.get 0x1B).extractLsb' 0 16 then wait p.2.toNat else register p.1 p.2 := by
  simp only [runTable16, tableEntry16, delayMs_eq_wait]
  rfl

/-- Settles O23: INITTBL16 performs its pairs' script in the bracket as one transaction. -/
theorem inittbl16RunsItsPairs : Obligations.Inittbl16RunsItsPairs := by
  intro s bracket pairs
  rw [← runTable16_eq, ← inBracket_eq]
  exact busAnswers_of_script (script := fun s => inBracket s.cfg bracket (runTable16 s.cfg pairs)) rfl (by rw [bodyStart_cfg])
    (BodyScript.inBracket s.cfg bracket (.runTable16 s.cfg pairs)).framable

end Sys2Proof.Machine
end

section
/-! SUPPORT. Rotation, address window, inversion and vertical scroll (R220 to R246): the model's scripts and derived registers are the ones
that the statements write, each request is a register change and one script, and which request owns which register; with the settled
statements of the family. -/

namespace Sys2Proof.Machine

open Claims

/-! ### Derived registers (R221 to R225) -/

theorem isOdd_eq : ∀ r : BitVec 2, isOdd r = (r.toNat % 2 == 1) := by decide

theorem widthAt_eq (c : Cfg) (r : BitVec 2) : widthAt c r = widthOf c r := by
  unfold widthAt widthOf
  rw [isOdd_eq]
  obtain h | h := Nat.mod_two_eq_zero_or_one r.toNat <;> rw [h] <;> rfl

theorem heightAt_eq (c : Cfg) (r : BitVec 2) : heightAt c r = heightOf c r := by
  unfold heightAt heightOf
  rw [isOdd_eq]
  obtain h | h := Nat.mod_two_eq_zero_or_one r.toNat <;> rw [h] <;> rfl

/-- The roles swap exactly when the rotation is odd and the chip does not swap axes itself (R224). -/
theorem activeMap_eq (c : Cfg) (r : BitVec 2) : activeMap c r = mapAt c r := by
  have hswap : (isOdd r && !capHwAxisSwap (capsOf c)) = true ↔ r.toNat % 2 = 1 ∧ cap c 5 = false := by
    simp only [isOdd_eq, Bool.and_eq_true, beq_iff_eq, Bool.not_eq_true']
    rfl
  unfold activeMap mapAt
  simp only [hswap]
  rfl

theorem controlByte_eq (c : Cfg) (r : BitVec 2) : controlByte c r = controlOf c r := rfl

theorem xor_ite_zero (b : Bool) (x m : Half) : x ^^^ (if b then m else 0) = if b then x ^^^ m else x := by
  cases b <;> simp

/-- The control byte goes out by family, as the statements write it (R222). -/
theorem writeControl_eq (c : Cfg) (cb : Byte) : writeControl c cb = controlWrites c cb := by
  simp only [writeControl, docValue, entValue, writeRegisterParams_singleton, xor_ite_zero]
  rfl

/-! ### The window on the bus (R230 to R233) -/

/-- The offset, then the nudge, coordinate by coordinate (R230, R233). -/
theorem wireCoords_eq (c : Cfg) (r : BitVec 2) (v : Window) : wireCoords c r v = wireOf c r v := by
  obtain ⟨hx0, hx1⟩ := addOffset_columns c r v
  obtain ⟨hy0, hy1⟩ := addOffset_rows c r v
  obtain ⟨sx, sy⟩ := nudge_starts c r (addOffset c r v)
  obtain ⟨ex, ey⟩ := nudge_ends c r (addOffset c r v)
  rw [hx0, hx1, isOdd_eq] at ex
  rw [hy0, hy1, isOdd_eq] at ey
  have eta (u : Window) : u = ⟨u.x0, u.y0, u.x1, u.y1⟩ := rfl
  rw [wireCoords, eta (nudge ..), sx, sy, ex, ey, hx0, hy0]
  rfl

/-- Settles O27: the unified and the legacy window writes, at the coordinates of `wireCoords_eq`. -/
theorem windowGoesOutByFamily : Obligations.WindowGoesOutByFamily := by
  intro c st win
  unfold windowScript writeWindowUnified writeWindowLegacy windowWrites
  simp only [wireCoords_eq, writeRegisterParams_eq, Bool.and_eq_true, beq_iff_eq]
  rfl

/-! ### Requests that change registers and perform one script -/

/-- A bus request whose body sets the state registers and performs a script answers that. -/
theorem busAnswers_of_registers {i : Instr} {s : State} {body : State → State} {regs st : StRegs} {script es : List Event}
    (hexec : exec i s = .next (busRun body s)) (hbody : body (bodyStart s) = { bodyStart s with st := regs }.perform script)
    (hregs : regs = { st with busReady := true }) (hscript : script = es) (hes : BodyScript es) :
    BusAnswers i s es st [] 0 := by
  refine busAnswers_of_body (body := fun s => ((), body s)) (fun _ => []) ?_ ?_ hes.framable ?_ ?_ ?_ ?_ ?_ ?_
  · rw [hexec]; simp [busRun, State.respond]
  all_goals simp [hbody, hregs, hscript]

/-- A bus request whose body does nothing still brings the bus up (R141). -/
theorem busAnswers_of_noop {i : Instr} {s : State} {body : State → State} (hexec : exec i s = .next (busRun body s))
    (hbody : body (bodyStart s) = bodyStart s) : BusAnswers i s [] s.st [] 0 :=
  busAnswers_of_registers hexec (hbody.trans (perform_nil _).symm) (bodyStart_st s) rfl .nil

theorem BusAnswers.st_eq {i : Instr} {s t : State} {es : List Event} {st : StRegs} {resp : List Word} {reads : Nat}
    (answers : BusAnswers i s es st resp reads) (h : exec i s = .next t) : t.st = { st with busReady := true } := by
  obtain ⟨u, hu, -, -, hst, -⟩ := answers
  cases hu.symm.trans h
  exact hst

/-! ### SETWIN (R229) -/

/-- Settles O26: the clipped window is stored and sent, and where there is none the body does nothing. -/
theorem setwinClipsOrDoesNothing : Obligations.SetwinClipsOrDoesNothing := by
  intro s x0 y0 x1 y1
  have hnone := clipWindow_none (w := s.st.geomW) (h := s.st.geomH) (x0 := s16 x0) (y0 := s16 y0) (x1 := s16 x1) (y1 := s16 y1)
  dsimp only
  split
  next hno => exact busAnswers_of_noop rfl (setWindow_none (by rw [bodyStart_st]; exact hnone.mpr hno))
  next hwin =>
    have hsome := clipWindow_of_not_none fun h => hwin (hnone.mp h)
    rw [← windowGoesOutByFamily s.cfg s.st]
    refine busAnswers_of_registers rfl (setWindow_some (by rw [bodyStart_st]; exact hsome)) ?_ ?_ (.windowScript ..)
    · rw [bodyStart_st]; rfl
    · rw [bodyStart_cfg, bodyStart_st]; rfl

/-! ### INVERT (R240) -/

/-- Settles O28: the request is recorded and the effective state is sent. -/
theorem invertSendsTheEffectiveState : Obligations.InvertSendsTheEffectiveState := by
  intro s on
  refine busAnswers_of_registers (es := invertScript s.cfg (on ^^ capPolarityInv (capsOf s.cfg))) rfl rfl ?_ ?_ (.invertScript ..)
  · rw [bodyStart_st]
  · rw [bodyStart_cfg]

/-! ### VSCROLL (R246) -/

/-- The scroll goes out by family, as the statements write it (R246). -/
theorem scrollScript_eq (c : Cfg) (top lines vsp : Half) : scrollScript c top lines vsp = scrollWrites c top lines vsp := by
  simp only [scrollScript, writeRegisterParams_eq]
  rfl

theorem scrollStart_eq (h0 top lines : Half) (offset : Int) : scrollStart h0 top lines offset =
    if lines = 0 ∨ top.toNat + lines.toNat > h0.toNat then none else some (trunc16 (top.toNat + offset % lines.toNat)) := by
  have hzero : lines.toNat = 0 ↔ lines = 0 := BitVec.toNat_inj (y := 0)
  simp only [scrollStart, hzero]

/-- Settles O29: the start line is stored and sent, and where there is none the body does nothing. -/
theorem vscrollSetsTheStartLine : Obligations.VscrollSetsTheStartLine := by
  intro s top lines offset
  have hstart := scrollStart_eq (nativeH s.cfg) top lines (s16 offset)
  dsimp only
  split
  next hno => exact busAnswers_of_noop rfl (vScroll_none (by rw [bodyStart_cfg]; exact hstart.trans (if_pos hno)))
  next hlines =>
    rw [← scrollScript_eq]
    refine busAnswers_of_registers rfl (vScroll_some (by rw [bodyStart_cfg]; exact hstart.trans (if_neg hlines))) ?_ ?_
      (.scrollScript ..)
    · rw [bodyStart_st]; rfl
    · rw [bodyStart_cfg]; rfl

/-! ### SETROT (R220 to R227) -/

/-- The window reset of SETROT: the full screen is stored and sent, or with no geometry the zero window is stored (R226). -/
theorem resetWindow_eq (s : State) : resetWindow s =
    { s with st := { s.st with win := if 0 < s.st.geomW.toNat ∧ 0 < s.st.geomH.toNat
        then ⟨0, 0, s.st.geomW - 1, s.st.geomH - 1⟩ else ⟨0, 0, 0, 0⟩ } }.perform
      (if 0 < s.st.geomW.toNat ∧ 0 < s.st.geomH.toNat then windowScript s.cfg s.st ⟨0, 0, s.st.geomW - 1, s.st.geomH - 1⟩
       else []) := by
  unfold resetWindow
  by_cases h : 0 < s.st.geomW.toNat ∧ 0 < s.st.geomH.toNat
  · simp only [if_pos h, gt_iff_lt]
    exact setFullWindow_of_pos h.1 h.2
  · simp only [if_neg h, gt_iff_lt, perform_nil]

/-- What SETROT writes: the control byte, the full-screen window where there is a geometry, the scroll reset (R220). -/
def rotationScript (c : Cfg) (st : StRegs) (r : BitVec 2) : List Event :=
  writeControl c (controlByte c r)
    ++ (if 0 < (widthAt c r).toNat ∧ 0 < (heightAt c r).toNat
        then windowScript c (rotatedSt c st r) (fullWindow (widthAt c r) (heightAt c r)) else [])
    ++ (if nativeH c = 0 then [] else scrollScript c 0 (nativeH c) 0)

theorem BodyScript.rotationScript (c : Cfg) (st : StRegs) (r : BitVec 2) : BodyScript (rotationScript c st r) := by
  refine .append (.append (.writeControl ..) ?_) ?_
  · split
    · exact .windowScript ..
    · exact .nil
  · split
    · exact .nil
    · exact .scrollScript ..

/-- SETROT sets the registers it owns and performs one script. -/
theorem setRotation_eq_perform (r : BitVec 2) (s : State) :
    setRotation r s = { s with st := rotatedSt s.cfg s.st r }.perform (rotationScript s.cfg s.st r) := by
  rw [setRotation_eq, resetScroll_eq, resetWindow_eq]
  simp only [State.perform, rotationScript, List.foldl_append, List.append_assoc]
  rfl

theorem toNat_pos_iff {v : Half} : 0 < v.toNat ↔ v ≠ 0 := Nat.pos_iff_ne_zero.trans (BitVec.toNat_ne_iff_ne (y := 0))

/-- The registers after SETROT as the statements write them (R221 to R227). -/
theorem rotatedSt_eq (c : Cfg) (st : StRegs) (r : BitVec 2) : rotatedSt c st r =
    { st with
      ctrl := controlOf c r
      amap := mapAt c r
      rot := r
      geomW := widthOf c r
      geomH := heightOf c r
      win := if widthOf c r ≠ 0 ∧ heightOf c r ≠ 0 then fullWindow (widthOf c r) (heightOf c r) else ⟨0, 0, 0, 0⟩
      scrTop := 0
      scrLines := nativeH0 c
      vsp := 0 } := by
  simp only [rotatedSt, widthAt_eq, heightAt_eq, activeMap_eq, controlByte_eq, toNat_pos_iff]
  rfl

/-- SETROT's script as the statements write it (R222, R226, R227). -/
theorem rotationScript_eq (c : Cfg) (st : StRegs) (r : BitVec 2) : rotationScript c st r =
    controlWrites c (controlOf c r)
      ++ (if widthOf c r ≠ 0 ∧ heightOf c r ≠ 0
          then windowWrites c (mapAt c r) r (fullWindow (widthOf c r) (heightOf c r)) else [])
      ++ (if nativeH0 c = 0 then [] else scrollWrites c 0 (nativeH0 c) 0) := by
  simp only [rotationScript, windowGoesOutByFamily c, rotatedSt_eq, widthAt_eq, heightAt_eq, controlByte_eq, writeControl_eq,
    scrollScript_eq, toNat_pos_iff]
  rfl

/-- Settles O24: the registers and the script of SETROT are the ones of the statement. -/
theorem setrotRederivesTheState : Obligations.SetrotRederivesTheState := by
  intro s r
  dsimp only
  rw [← rotationScript_eq s.cfg s.st r, ← rotatedSt_eq]
  refine busAnswers_of_registers rfl (setRotation_eq_perform r _) ?_ ?_ (.rotationScript ..)
  · rw [bodyStart_cfg, bodyStart_st]; rfl
  · rw [bodyStart_cfg, bodyStart_st]; rfl

/-- The other parity swaps width and height (R225). -/
theorem widthOf_eq_heightOf_xor (c : Cfg) (r : BitVec 2) : widthOf c r = heightOf c (r ^^^ 1) ∧ heightOf c r = widthOf c (r ^^^ 1) := by
  have hparity : ∀ r : BitVec 2, (r ^^^ 1).toNat % 2 = 1 - r.toNat % 2 := by decide
  unfold widthOf heightOf
  rw [hparity]
  obtain h | h := Nat.mod_two_eq_zero_or_one r.toNat <;> rw [h] <;> exact ⟨rfl, rfl⟩

/-- Settles O25: the geometry of `setrotRederivesTheState`, at both rotations. -/
theorem widthIsTheOtherHeight : Obligations.WidthIsTheOtherHeight := by
  intro s t u r ht hu
  have hst := (setrotRederivesTheState s r).st_eq ht
  have hsu := (setrotRederivesTheState s (r ^^^ 1)).st_eq hu
  obtain ⟨hw, hh⟩ := widthOf_eq_heightOf_xor s.cfg r
  rw [hst, hsu]
  exact ⟨rfl, rfl, hw, hh⟩

/-! ### The window round trip (R229, R234, R280) -/

/-- Settles O30: a window request moves at most the window, pixels move no register, and the full-screen request sets the window that was
there before. -/
theorem windowRoundTripRestoresState : Obligations.WindowRoundTripRestoresState := by
  intro s x0 y0 x1 y1 first colors hwpos hwle hhpos hhle hfull
  obtain ⟨win, hplaced, -⟩ := (busRun_ran (.setwin x0 y0 x1 y1) s).regs.setwin_moved
  have hpushed := pushpix_st first colors (busRun (busBody (.setwin x0 y0 x1 y1)) s)
  rw [hplaced] at hpushed
  refine ⟨_, (execAll_cons_bus rfl _ s).trans ((execAll_cons_bus rfl _ _).trans (execAll_cons_bus rfl [] _)), ?_, ?_⟩
  · rw [fullwin_st (by rw [hpushed]) (by rw [hpushed]) hwpos hwle hhpos hhle, hpushed, ← hfull]
  · exact (busRun_ran _ _).cfg.trans ((busRun_ran _ _).cfg.trans (busRun_ran _ s).cfg)

/-! ### The scroll area (R227, R246) -/

theorem scrollLegal_iff {st : StRegs} : scrollLegal st = true ↔
    if st.scrLines.toNat = 0 then st.scrTop.toNat = 0 ∧ st.vsp.toNat = 0
    else st.scrTop.toNat ≤ st.vsp.toNat ∧ st.vsp.toNat < st.scrTop.toNat + st.scrLines.toNat := by
  unfold scrollLegal
  split <;> simp

theorem RegsAfter.scrollLegal {c : Cfg} {i : Instr} {st st' : StRegs} (h : scrollLegal st = true)
    (regs : RegsAfter c st i st') : scrollLegal st' = true := by
  cases regs with
  | same | invert => exact h
  | setwin moved | wrpix moved | rdpix moved => obtain ⟨win, rfl, -⟩ := moved; exact h
  | setrot r =>
    rw [scrollLegal_iff]
    split
    · exact ⟨rfl, rfl⟩
    next hlines => exact ⟨le_rfl, Nat.add_pos_right _ (Nat.pos_of_ne_zero hlines)⟩
  | vscroll hstart =>
    obtain ⟨hpos, -, -, hle, hlt⟩ := scrollStart_some hstart
    rw [scrollLegal_iff, if_neg hpos.ne']
    exact ⟨hle, hlt⟩

theorem exec_scrollLegal {i : Instr} {s t : State} (hs : scrollLegal s.st = true) (h : exec i s = .next t) :
    scrollLegal t.st = true := by
  cases exec_to h with
  | bus _ ran => exact RegsAfter.scrollLegal (st := { s.st with busReady := true }) hs ran.regs
  | nop | wrcfg | wrcfgReserved | rdcfg | rdcfgReserved | rdstate | rdstateReserved | clrstat | delay | busreset => exact hs

/-- Settles O53: VSCROLL stores a start line inside its area, SETROT the first line of the whole height. -/
theorem scrollStaysInItsArea : Obligations.ScrollStaysInItsArea := by
  intro s t hs h
  exact step_keeps_registers (P := fun _ st => scrollLegal st = true) (by decide) (fun _ _ h => h)
    (fun _ _ _ => exec_scrollLegal) hs h

/-! ### No request touches the inbox (log entry 1) -/

@[simp] theorem setWindow_inbox (x0 y0 x1 y1 : Int) (s : State) : (setWindow x0 y0 x1 y1 s).inbox = s.inbox := by
  obtain ⟨win, es, h⟩ := setWindow_leaves x0 y0 x1 y1 s
  rw [h]
  rfl

@[simp] theorem vScroll_inbox (top lines : Half) (offset : Int) (s : State) : (vScroll top lines offset s).inbox = s.inbox := by
  unfold vScroll
  split <;> rfl

@[simp] theorem writePixelAt_inbox (x y : Int) (color : Half) (s : State) : (writePixelAt x y color s).inbox = s.inbox := by
  unfold writePixelAt
  split
  · rfl
  · exact setWindow_inbox x y x y s

@[simp] theorem readRegister_inbox (addr : Half) (index : Nat) (s : State) : (readRegister addr index s).2.inbox = s.inbox := by
  rw [readRegister_eq]
  rfl

@[simp] theorem readRegister32_inbox (addr : Half) (s : State) : (readRegister32 addr s).2.inbox = s.inbox :=
  (readRegister_inbox addr 1 (readRegister addr 0 s).2).trans (readRegister_inbox addr 0 s)

@[simp] theorem readRegister40_inbox (addr : Half) (s : State) : (readRegister40 addr s).2.inbox = s.inbox :=
  (readRegister_inbox addr 2 (readRegister32 addr s).2).trans (readRegister32_inbox addr s)

theorem gramRead_inbox (n : Nat) (s : State) : ((readSamples n (openGramRead s)).2.perform [.dir .out]).inbox = s.inbox := by
  rw [gramRead_eq]
  rfl

theorem readPoints_inbox (ps : List (Int × Int)) (s : State) : (readPoints ps s).2.inbox = s.inbox := by
  induction ps generalizing s with
  | nil => rfl
  | cons p ps ih =>
    have hpoint : (readPoint p s).2.inbox = s.inbox := (gramRead_inbox 1 _).trans (setWindow_inbox ..)
    exact (ih _).trans hpoint

@[simp] theorem readPixels_inbox (x y : Int) (w h : Nat) (s : State) : (readPixels x y w h s).inbox = s.inbox := by
  unfold readPixels
  split
  · rfl
  split
  · rfl
  · refine (setWindow_inbox ..).trans ?_
    cases capAutoincRead (capsOf s.cfg) with
    | true => exact (gramRead_inbox (w * h) _).trans (setWindow_inbox ..)
    | false => exact readPoints_inbox _ s

@[simp] theorem busBody_inbox (i : Instr) (s : State) : (busBody i s).inbox = s.inbox := by
  cases i with
  | nop | wrcfg | rdcfg | rdstate | clrstat | delay | busreset => rfl
  | wrcmd | wrdata | wrdata8 | wrreg | wrregp | inittbl8 | inittbl16 | pushpix | invert | rdword => rfl
  | rdreg addr index => exact (respond_inbox ..).trans (readRegister_inbox addr index.toNat s)
  | rdreg32 addr => exact (respond_inbox ..).trans (readRegister32_inbox addr s)
  | rdreg40 addr => exact (respond_inbox ..).trans (readRegister40_inbox addr s)
  | setrot r => simp only [busBody, setRotation_eq_perform, perform_inbox]
  | setwin x0 y0 x1 y1 => exact setWindow_inbox ..
  | vscroll top lines offset => exact vScroll_inbox ..
  | wrpix x y color => exact writePixelAt_inbox ..
  | rdpix x y w h => exact readPixels_inbox ..

theorem exec_inbox {i : Instr} {s t : State} (h : exec i s = .next t) : t.inbox = s.inbox := by
  cases exec_to h with
  | bus hi _ =>
    rw [exec_eq_busRun hi] at h
    cases h
    exact (busBody_inbox i (bodyStart s)).trans (bodyStart_inbox s)
  | nop | wrcfg | wrcfgReserved | rdcfg | rdcfgReserved | rdstate | rdstateReserved | clrstat | delay | busreset => rfl

/-! ### Owners of the registers (R234, R220, R240, R246) -/

/-- From st to st' the rotation, the window, the scroll and the inversion changed only where request i owns them. -/
structure KeptByOthers (i : Instr) (st st' : StRegs) : Prop where
  rotation : (∀ r, i ≠ .setrot r) → st'.rot = st.rot ∧ st'.geomW = st.geomW ∧ st'.geomH = st.geomH ∧ st'.amap = st.amap
    ∧ st'.ctrl = st.ctrl
  window : (∀ r, i ≠ .setrot r) → (∀ x0 y0 x1 y1, i ≠ .setwin x0 y0 x1 y1) → (∀ x y c, i ≠ .wrpix x y c) →
    (∀ x y w h, i ≠ .rdpix x y w h) → st'.win = st.win
  scroll : (∀ r, i ≠ .setrot r) → (∀ a b c, i ≠ .vscroll a b c) →
    st'.scrTop = st.scrTop ∧ st'.scrLines = st.scrLines ∧ st'.vsp = st.vsp
  inversion : (∀ on, i ≠ .invert on) → st'.inv = st.inv

namespace KeptByOthers

theorem refl (i : Instr) (st : StRegs) : KeptByOthers i st st :=
  ⟨fun _ => ⟨rfl, rfl, rfl, rfl, rfl⟩, fun _ _ _ _ => rfl, fun _ _ => ⟨rfl, rfl, rfl⟩, fun _ => rfl⟩

/-- The status bits belong to none of the four groups. -/
theorem withStatus {i : Instr} {st st' : StRegs} (kept : KeptByOthers i st st') (ill busReady : Bool) :
    KeptByOthers i st { st' with ill := ill, busReady := busReady } :=
  ⟨kept.rotation, kept.window, kept.scroll, kept.inversion⟩

/-- A request that owns the window moves nothing else. -/
theorem of_moved {i : Instr} {st st' : StRegs} (moved : WindowMoved st st')
    (owner : (∀ x0 y0 x1 y1, i ≠ .setwin x0 y0 x1 y1) → (∀ x y c, i ≠ .wrpix x y c) → ¬ ∀ x y w h, i ≠ .rdpix x y w h) :
    KeptByOthers i st st' := by
  obtain ⟨win, rfl, -⟩ := moved
  exact ⟨fun _ => ⟨rfl, rfl, rfl, rfl, rfl⟩, fun _ hs hw hr => absurd hr (owner hs hw), fun _ _ => ⟨rfl, rfl, rfl⟩,
    fun _ => rfl⟩

end KeptByOthers

theorem RegsAfter.keptByOthers {c : Cfg} {i : Instr} {st st' : StRegs} (regs : RegsAfter c st i st') : KeptByOthers i st st' := by
  cases regs with
  | same => exact .refl i st
  | setwin moved => exact .of_moved moved fun hs _ _ => hs _ _ _ _ rfl
  | wrpix moved => exact .of_moved moved fun _ hw _ => hw _ _ _ rfl
  | rdpix moved => exact .of_moved moved fun _ _ hr => hr _ _ _ _ rfl
  | setrot r => exact ⟨fun h => absurd rfl (h r), fun h => absurd rfl (h r), fun h => absurd rfl (h r), fun _ => rfl⟩
  | invert on =>
    exact ⟨fun _ => ⟨rfl, rfl, rfl, rfl, rfl⟩, fun _ _ _ _ => rfl, fun _ _ => ⟨rfl, rfl, rfl⟩, fun h => absurd rfl (h on)⟩
  | vscroll =>
    exact ⟨fun _ => ⟨rfl, rfl, rfl, rfl, rfl⟩, fun _ _ _ _ => rfl, fun _ h => absurd rfl (h _ _ _), fun _ => rfl⟩

theorem exec_keptByOthers {i : Instr} {s t : State} (h : exec i s = .next t) : KeptByOthers i s.st t.st := by
  cases exec_to h with
  | bus _ ran =>
    obtain ⟨rotation, window, scroll, inversion⟩ := ran.regs.keptByOthers
    exact ⟨rotation, window, scroll, inversion⟩
  | nop | wrcfg | rdcfg | rdstate | delay => exact .refl _ s.st
  | wrcfgReserved | rdcfgReserved | rdstateReserved | clrstat | busreset => exact (KeptByOthers.refl _ s.st).withStatus _ _

/-- BUSREADY is set by the requests of the bus class and by BUSRESET, and cleared by none (R141, R327). -/
theorem exec_busReady {i : Instr} {s t : State} (h : exec i s = .next t) :
    t.st.busReady = (s.st.busReady || isBusRequest i || i == .busreset) := by
  cases exec_to h with
  | bus hi ran => rw [ran.regs.busReady, hi, Bool.or_true, Bool.true_or]
  | busreset => exact (Bool.or_true _).symm
  | nop | wrcfg | wrcfgReserved | rdcfg | rdcfgReserved | rdstate | rdstateReserved | clrstat | delay =>
    simp [isBusRequest]

/-- Settles O45, clause by clause. -/
theorem registersChangeOnlyByTheirOwners : Obligations.RegistersChangeOnlyByTheirOwners := by
  intro i s t h
  obtain ⟨rotation, window, scroll, inversion⟩ := exec_keptByOthers h
  exact ⟨fun hi => exec_keeps_cfg hi h, rotation, window, scroll, inversion, exec_busReady h, exec_inbox h⟩

end Sys2Proof.Machine
end

section
/-! SUPPORT. Colours on the wire and back (R270 to R278): the codec and the samples as numbers and bit by bit, and what a decoder
makes of the bytes that were sent; with the settled statements of the codec. -/

namespace Sys2Proof.Machine

open Claims

/-! ### The codec as numbers (R270 to R272) -/

theorem red5_toNat (c : Half) : (red5 c).toNat = c.toNat / 2 ^ 11 := by
  have := c.isLt
  rw [red5, toNat_field]
  omega

theorem green6_toNat (c : Half) : (green6 c).toNat = c.toNat / 2 ^ 5 % 2 ^ 6 := toNat_field ..

theorem blue5_toNat (c : Half) : (blue5 c).toNat = c.toNat % 2 ^ 5 := by rw [blue5, toNat_field, pow_zero, Nat.div_one]

theorem enc555_toNat (c : Half) :
    (enc555 c).toNat = c.toNat / 2 ^ 11 * 2 ^ 10 + c.toNat / 2 ^ 6 % 2 ^ 5 * 2 ^ 5 + c.toNat % 2 ^ 5 := by
  simp only [enc555, toNat_concat, toNat_field, red5_toNat, blue5_toNat, BitVec.ofNat_eq_ofNat, BitVec.toNat_ofNat]
  omega

theorem dec555_toNat (v : Half) : (dec555 v).toNat = v.toNat / 2 ^ 10 % 2 ^ 5 * 2 ^ 11 + v.toNat / 2 ^ 5 % 2 ^ 5 * 2 ^ 6
    + v.toNat / 2 ^ 9 % 2 * 2 ^ 5 + v.toNat % 2 ^ 5 := by
  simp only [dec555, toNat_concat, toNat_field]
  omega

/-- Settles O31: each code is a concatenation of fields, and the triplet's bytes are three of them with zeros below. -/
theorem codecPlacesTheFields : Obligations.CodecPlacesTheFields := by
  intro c
  refine ⟨enc555_toNat c, dec555_toNat c, ?_, rfl⟩
  simp only [enc24, Bool.false_eq_true, if_false, List.map_cons, List.map_nil, toNat_concat, red5_toNat, green6_toNat,
    blue5_toNat]
  rfl

/-! ### Samples as numbers (R275, R276) -/

/-- Three fields as a number (R270). -/
theorem fields_toNat (r : BitVec 5) (g : BitVec 6) (b : BitVec 5) :
    (r ++ g ++ b : Half).toNat = colourNumber r.toNat g.toNat b.toNat := by
  simp only [toNat_concat, colourNumber]
  omega

/-- A colour is its three fields (R270). -/
theorem colour_eq_fields (c : Half) : red5 c ++ green6 c ++ blue5 c = c :=
  (congrArg (· ++ blue5 c) (extract_split c 5 5 6)).trans ((extract_split c 0 11 5).trans (extract_all c))

theorem colour_toNat (c : Half) : c.toNat = colourNumber (red5 c).toNat (green6 c).toNat (blue5 c).toNat := by
  rw [← fields_toNat, colour_eq_fields]

/-- The fields of a sample word, read as 555 with the green fill or as 565 (R270, R271). -/
theorem sampleFields_toNat (wire555 : Bool) (v : Half) :
    let c := if wire555 then dec555 v else v
    (red5 c).toNat = (if wire555 then v.toNat / 2 ^ 10 % 2 ^ 5 else v.toNat / 2 ^ 11)
    ∧ (green6 c).toNat
        = (if wire555 then v.toNat / 2 ^ 5 % 2 ^ 5 * 2 + v.toNat / 2 ^ 9 % 2 else v.toNat / 2 ^ 5 % 2 ^ 6)
    ∧ (blue5 c).toNat = v.toNat % 2 ^ 5 := by
  cases wire555 with
  | false => exact ⟨red5_toNat v, green6_toNat v, blue5_toNat v⟩
  | true =>
    simp only [if_true, red5_toNat, green6_toNat, blue5_toNat, dec555_toNat]
    omega

theorem decodeSample16_toNat (caps : Word) (hi lo : Byte) :
    (decodeSample16 caps hi lo).toNat = sample16Number caps hi.toNat lo.toNat := by
  have horder : (if capReadOrderSwap caps then lo ++ hi else hi ++ lo : Half).toNat
      = if caps.getLsbD 2 then lo.toNat * 2 ^ 8 + hi.toNat else hi.toNat * 2 ^ 8 + lo.toNat :=
    (apply_ite BitVec.toNat _ _ _).trans (by simp only [toNat_concat]; rfl)
  unfold decodeSample16 sample16Number
  rw [← horder]
  generalize (if capReadOrderSwap caps then lo ++ hi else hi ++ lo : Half) = v
  obtain ⟨hred, hgreen, hblue⟩ := sampleFields_toNat (caps.getLsbD 12) v
  dsimp only
  rw [← hred, ← hgreen, ← hblue, apply_ite BitVec.toNat]
  congr 1
  · exact fields_toNat ..
  · exact colour_toNat _

theorem decodeSample24_toNat (caps : Word) (b0 b1 b2 : Byte) :
    (decodeSample24 caps b0 b1 b2).toNat = sample24Number caps b0.toNat b1.toNat b2.toNat := by
  have top5 (b : Byte) : (b.extractLsb' 3 5).toNat = b.toNat / 2 ^ 3 := by
    have := b.isLt
    rw [toNat_field]
    omega
  have top6 (b : Byte) : (b.extractLsb' 2 6).toNat = b.toNat / 2 ^ 2 := by
    have := b.isLt
    rw [toNat_field]
    omega
  have hbgr : capBgrRead caps = caps.getLsbD 3 := rfl
  simp only [decodeSample24, sample24Number, hbgr, fields_toNat, top5, top6]
  cases caps.getLsbD 3 <;> rfl

/-- Settles O58: the 16-bit and the 3-byte decoder. -/
theorem samplesDecodeByTheirFields : Obligations.SamplesDecodeByTheirFields :=
  fun caps b0 b1 b2 => ⟨decodeSample16_toNat caps b0 b1, decodeSample24_toNat caps b0 b1 b2⟩

/-- The colour the statements decode is the one the model reads (R275, R276). -/
theorem sampleColor_eq_sampleFrom (s : State) (k : Nat) : sampleColor s k = sampleFrom s k := by
  unfold sampleColor sampleFrom
  dsimp only
  rw [apply_ite (BitVec.ofNat 16), ← decodeSample24_toNat, ← decodeSample16_toNat, BitVec.ofNat_toNat, BitVec.ofNat_toNat]
  simp only [BitVec.setWidth_eq]
  rfl

/-! ### What was encoded, decoded (R278) -/

/-- A 555 word has blue in its place, the five kept bits of green and red one place lower, and bit 15 zero (R270). -/
theorem getLsbD_enc555 (c : Half) (k : Nat) :
    (enc555 c).getLsbD k = if k < 5 then c.getLsbD k else decide (k < 15) && c.getLsbD (k + 1) := by
  simp only [enc555, red5, blue5, BitVec.getLsbD_append, BitVec.getLsbD_extractLsb']
  grind

/-- Decoding moves red and green back up and puts the highest bit of green under the lowest (R271). -/
theorem getLsbD_dec555 (v : Half) {k : Nat} (hk : k < 16) :
    (dec555 v).getLsbD k = if k < 5 then v.getLsbD k else if k = 5 then v.getLsbD 9 else v.getLsbD (k - 1) := by
  simp only [dec555, BitVec.getLsbD_append, BitVec.getLsbD_extractLsb']
  grind

/-- The 555 path replaces bit 5 of a colour by its bit 10, the highest of green (R278). -/
theorem getLsbD_dec555_enc555 (c : Half) {k : Nat} (hk : k < 16) :
    (dec555 (enc555 c)).getLsbD k = if k = 5 then c.getLsbD 10 else c.getLsbD k := by
  rw [getLsbD_dec555 _ hk]
  simp only [getLsbD_enc555]
  grind

theorem dec555_enc555_eq_iff (c : Half) : dec555 (enc555 c) = c ↔ c.getLsbD 5 = c.getLsbD 10 := by
  constructor
  · intro h
    have hbit := getLsbD_dec555_enc555 c (k := 5) (by decide)
    rwa [h] at hbit
  · intro h
    refine BitVec.eq_of_getLsbD_eq fun k hk => ?_
    rw [getLsbD_dec555_enc555 c hk]
    split
    next h5 => rw [h5, h]
    next => rfl

theorem dec555_enc555_of_ne {c : Half} (h : c.getLsbD 5 ≠ c.getLsbD 10) : dec555 (enc555 c) = c ^^^ 0x0020 := by
  have hmask : ∀ k < 16, (0x0020 : Half).getLsbD k = decide (k = 5) := by decide
  refine BitVec.eq_of_getLsbD_eq fun k hk => ?_
  rw [getLsbD_dec555_enc555 c hk, BitVec.getLsbD_xor, hmask k hk]
  split
  next h5 =>
    subst h5
    simpa using Bool.eq_not.mpr h.symm
  next h5 => simp [h5]

/-- The bit that the 555 path replaces is the one `enc555` drops. -/
theorem enc555_dec555_enc555 (c : Half) : enc555 (dec555 (enc555 c)) = enc555 c := by
  refine BitVec.eq_of_getLsbD_eq fun k hk => ?_
  rw [getLsbD_enc555, getLsbD_enc555 c]
  split
  next h5 => rw [getLsbD_dec555_enc555 c hk, if_neg (by omega)]
  next h5 =>
    by_cases h15 : k < 15
    · rw [getLsbD_dec555_enc555 c (by omega), if_neg (by omega)]
    · simp [h15]

/-- The left part of a concatenation. -/
theorem extract_left {m n : Nat} (a : BitVec m) (b : BitVec n) : (a ++ b).extractLsb' n m = a :=
  (extract_high a b 0 m).trans (extract_all a)

/-- The triplet holds each field in the high bits of a byte, which is where the decoder takes it from (R278). -/
theorem decodeSample24_enc24 (caps : Word) (c : Half) (h : capWireBgr caps = capBgrRead caps) :
    ∃ b0 b1 b2, enc24 (capWireBgr caps) c = [b0, b1, b2] ∧ decodeSample24 caps b0 b1 b2 = c := by
  have hred : (red5 c ++ (0 : BitVec 3) : Byte).extractLsb' 3 5 = red5 c := extract_left ..
  have hgreen : (green6 c ++ (0 : BitVec 2) : Byte).extractLsb' 2 6 = green6 c := extract_left ..
  have hblue : (blue5 c ++ (0 : BitVec 3) : Byte).extractLsb' 3 5 = blue5 c := extract_left ..
  have hfields := colour_eq_fields c
  rw [← hred, ← hgreen, ← hblue] at hfields
  unfold enc24 decodeSample24
  rw [h]
  cases capBgrRead caps with
  | false | true => exact ⟨_, _, _, rfl, hfields⟩

/-- Settles O32: the triplet decodes to its colour, and the 555 path changes bit 5 alone, which `enc555` drops. -/
theorem colourCodecRoundTrips : Obligations.ColourCodecRoundTrips :=
  ⟨decodeSample24_enc24, fun c => ⟨dec555_enc555_eq_iff c, dec555_enc555_of_ne, enc555_dec555_enc555 c⟩⟩

end Sys2Proof.Machine
end

section
/-! SUPPORT. Writing pixels (R273, R280, R282): pixels as write cycles, and the window of a point; with the settled statements of
PUSHPIX and WRPIX. -/

namespace Sys2Proof.Machine

open Claims

/-! ### PUSHPIX (R273, R280) -/

theorem flatMap_writeData8 (bs : List Byte) : bs.flatMap writeData8 = bs.map (.w true) := List.map_eq_flatMap.symm

/-- A pixel goes out as the statements write it (R273). -/
theorem pixelWrite_eq (c : Cfg) : pixelWrite (capsOf c) = pixelWrites c := funext fun _ => flatMap_writeData8 _

/-- Settles O33: PUSHPIX performs one script, the command and the pixels. -/
theorem pushpixStreamsEveryPixel : Obligations.PushpixStreamsEveryPixel := by
  intro s first colors
  rw [← pixelWrite_eq]
  refine busAnswers_of_script (script := fun s => pushScript s first colors) rfl ?_
    (BodyScript.pushScript s first colors).framable
  rw [pushScript, bodyStart_st, bodyStart_cfg]
  rfl

/-! ### The registers a transaction's body starts with (R141) -/

@[simp] theorem bodyStart_geomW (s : State) : (bodyStart s).st.geomW = s.st.geomW := by rw [bodyStart_st]
@[simp] theorem bodyStart_geomH (s : State) : (bodyStart s).st.geomH = s.st.geomH := by rw [bodyStart_st]
@[simp] theorem bodyStart_win (s : State) : (bodyStart s).st.win = s.st.win := by rw [bodyStart_st]
@[simp] theorem bodyStart_amap (s : State) : (bodyStart s).st.amap = s.st.amap := by rw [bodyStart_st]
@[simp] theorem bodyStart_rot (s : State) : (bodyStart s).st.rot = s.st.rot := by rw [bodyStart_st]

/-! ### A window wholly on screen (R229) -/

/-- An integer coordinate n past a coordinate field is that field plus n (R7). -/
theorem trunc16_s16_add (v : Half) (n : Nat) : trunc16 (s16 v + n) = v + BitVec.ofNat 16 n := by
  rw [trunc16, s16, BitVec.ofInt_add, BitVec.ofInt_toInt, BitVec.ofInt_natCast]

theorem trunc16_s16 (v : Half) : trunc16 (s16 v) = v := BitVec.ofInt_toInt

/-- The last coordinate of a side, as a field (R7). -/
theorem trunc16_last (v n : Half) : trunc16 (s16 v + n.toNat - 1) = v + n - 1 := by
  rw [trunc16, s16, Int.sub_eq_add_neg, BitVec.ofInt_add, BitVec.ofInt_add, BitVec.ofInt_toInt, BitVec.ofInt_natCast,
    BitVec.ofNat_toNat, BitVec.setWidth_eq, BitVec.sub_eq_add_neg]
  rfl

/-- A point on screen is its own window. -/
theorem clipWindow_point {w h : Half} {x y : Int} (hx : 0 ≤ x) (hxw : x < w.toNat) (hy : 0 ≤ y) (hyh : y < h.toNat) :
    clipWindow w h x y x y = some ⟨trunc16 x, trunc16 y, trunc16 x, trunc16 y⟩ :=
  clipWindow_of_inside hx le_rfl hxw hy le_rfl hyh

/-! ### WRPIX (R282) -/

/-- On screen WRPIX moves the window to its point and performs one script. -/
theorem writePixelAt_some {s : State} {x y : Int} (color : Half) {win : Window}
    (hon : ¬(x < 0 ∨ y < 0 ∨ x ≥ s.st.geomW.toNat ∨ y ≥ s.st.geomH.toNat))
    (h : clipWindow s.st.geomW s.st.geomH x y x y = some win) :
    writePixelAt x y color s = { s with st := { s.st with win := win } }.perform
      (windowScript s.cfg s.st win ++ writeCommand s.st.amap.mw ++ pixelWrite (capsOf s.cfg) color) := by
  rw [writePixelAt, if_neg hon, setWindow_some h]
  simp [List.append_assoc]

/-- Settles O34: off-screen the body does nothing, on screen it moves the window and performs one script. -/
theorem wrpixWritesOnePoint : Obligations.WrpixWritesOnePoint := by
  intro s x y color
  split
  next hoff =>
    refine busAnswers_of_noop rfl (if_pos ?_)
    rw [bodyStart_st]
    exact hoff
  next hon =>
    have hpoint : clipWindow s.st.geomW s.st.geomH (s16 x) (s16 y) (s16 x) (s16 y) = some ⟨x, y, x, y⟩ := by
      simp only [s16] at hon ⊢
      rw [clipWindow_point (by omega) (by omega) (by omega) (by omega)]
      exact congrArg₂ (fun x y => some (Window.mk x y x y)) (trunc16_s16 x) (trunc16_s16 y)
    rw [← windowGoesOutByFamily s.cfg s.st, ← pixelWrite_eq]
    refine busAnswers_of_registers rfl
      (writePixelAt_some color (by simpa [s16] using hon) (by simpa using hpoint)) ?_ ?_
      (.append (.append (.windowScript ..) (.writeCommand _)) (.pixelWrite ..))
    · rw [bodyStart_st]
    · rw [bodyStart_st, bodyStart_cfg]
      rfl

end Sys2Proof.Machine
end

section
/-! SUPPORT. Reading pixels (R275 to R285): the window moved and samples taken as one normal form of a body, GRAM reads that follow
one another, and what RDPIX answers off the screen and on both read paths; with the settled statements of RDPIX. -/

namespace Sys2Proof.Machine

open Claims

/-! ### The window moved and samples taken -/

/-- The window moved to `win`, n more samples taken, `es` performed: what the body of a pixel request does before it responds. -/
def State.movedTo (s : State) (win : Window) (n : Nat) (es : List Event) : State :=
  afterReads { s with st := { s.st with win := win } } n es

@[simp] theorem movedTo_cfg (s : State) (win : Window) (n : Nat) (es : List Event) : (s.movedTo win n es).cfg = s.cfg := rfl
@[simp] theorem movedTo_st (s : State) (win : Window) (n : Nat) (es : List Event) :
    (s.movedTo win n es).st = { s.st with win := win } := rfl
@[simp] theorem movedTo_trace (s : State) (win : Window) (n : Nat) (es : List Event) :
    (s.movedTo win n es).trace = s.trace ++ es := rfl
@[simp] theorem movedTo_resp (s : State) (win : Window) (n : Nat) (es : List Event) : (s.movedTo win n es).resp = s.resp := rfl
@[simp] theorem movedTo_inbox (s : State) (win : Window) (n : Nat) (es : List Event) :
    (s.movedTo win n es).inbox = s.inbox := rfl
@[simp] theorem movedTo_samples (s : State) (win : Window) (n : Nat) (es : List Event) :
    (s.movedTo win n es).samples = s.samples.drop n := rfl
@[simp] theorem movedTo_freeNo (s : State) (win : Window) (n : Nat) (es : List Event) :
    (s.movedTo win n es).freeNo = s.freeNo + n := rfl

theorem movedTo_self (s : State) : s.movedTo s.st.win 0 [] = s := afterReads_zero s

/-- A bus request whose body moves the window, takes samples, performs `es` and responds answers that. -/
theorem busAnswers_of_movedTo {i : Instr} {s : State} {body : State → State} {win : Window} {n : Nat} {es : List Event}
    {resp : List Word} (hexec : exec i s = .next (busRun body s))
    (hbody : body (bodyStart s) = ((bodyStart s).movedTo win n es).respond resp) (hes : Framable es) :
    BusAnswers i s es { s.st with win := win } resp n := by
  refine busAnswers_of_body (body := fun s => ((), body s)) (fun _ => []) ?_ ?_ hes ?_ ?_ ?_ ?_ ?_ ?_
  · rw [hexec]
    simp [busRun, State.respond]
  all_goals simp [hbody]

/-! ### RDPIX off the screen (R284) -/

theorem packHalves_replicate_zero (n : Nat) : packHalves (List.replicate n 0) = List.replicate ((n + 1) / 2) 0 := by
  induction n using Nat.twoStepInduction with
  | zero => rfl
  | one => rfl
  | more n ih _ =>
    rw [show (n + 2 + 1) / 2 = (n + 1) / 2 + 1 by omega, List.replicate_succ (n := (n + 1) / 2), ← ih]
    rfl

theorem rectOnScreen_iff {geomW geomH : Half} {x y : Int} {w h : Nat} : rectOnScreen geomW geomH x y w h = true ↔
    0 ≤ x ∧ 0 ≤ y ∧ x + w ≤ geomW.toNat ∧ y + h ≤ geomH.toNat := by
  simp [rectOnScreen, and_assoc]

/-- Settles O35: the body does nothing, or only responds. -/
theorem rdpixOutsideReadsNothing : Obligations.RdpixOutsideReadsNothing := by
  intro s x y w h
  have hzero (v : Half) : v.toNat = 0 ↔ v = 0 := BitVec.toNat_inj (y := 0)
  constructor
  · intro hempty
    exact busAnswers_of_noop rfl (if_pos (by rwa [hzero, hzero]))
  · intro hw hh hoff
    have hrect : rectOnScreen (bodyStart s).st.geomW (bodyStart s).st.geomH (s16 x) (s16 y) w.toNat h.toNat = false := by
      rw [← Bool.not_eq_true, rectOnScreen_iff, s16, s16, bodyStart_geomW, bodyStart_geomH]
      omega
    refine busAnswers_of_movedTo (win := s.st.win) rfl ?_ framable_nil
    rw [readPixels, if_neg (by rw [hzero, hzero]; exact not_or.mpr ⟨hw, hh⟩), hrect, packHalves_replicate_zero,
      ← bodyStart_win, movedTo_self]
    rfl

/-! ### GRAM reads one after another (R277, R284, R285) -/

/-- The logical address of the GRAM-read command, cfg GRAM_RD.RD (R36). -/
def gramCommand (c : Cfg) : Half := (c.get 0x0A).extractLsb' 0 16

/-- The bytes that reading one point takes: the dummy bytes and one sample (R277, R285). -/
def pointBytes (c : Cfg) : Nat := dummies c + sampleBytes c

@[simp] theorem sampleColor_bodyStart (s : State) (k : Nat) : sampleColor (bodyStart s) k = sampleColor s k := by
  simp [sampleColor]

theorem readEvents_movedTo (s : State) (win : Window) (k n : Nat) (es : List Event) :
    (upcoming (s.movedTo win k es) n).map Event.r = readEvents s k n := by
  have hat (j : Nat) : sampleAt (s.movedTo win k es) j = sampleAt s (k + j) := sampleAt_cut s _ k j rfl rfl
  simp [upcoming, readEvents, hat, Function.comp_def]

theorem movedTo_movedTo (s : State) (win win' : Window) (m n : Nat) (a b : List Event) :
    (s.movedTo win m a).movedTo win' n b = s.movedTo win' (m + n) (a ++ b) :=
  afterReads_afterReads { s with st := { s.st with win := win' } } m n a b

theorem setWindow_eq_movedTo {s : State} {x0 y0 x1 y1 : Int} {win : Window}
    (h : clipWindow s.st.geomW s.st.geomH x0 y0 x1 y1 = some win) :
    setWindow x0 y0 x1 y1 s = s.movedTo win 0 (windowWrites s.cfg s.st.amap s.st.rot win) := by
  rw [setWindow_some h, windowGoesOutByFamily]
  rfl

/-- Moving the window on screen, after other moves (R229). -/
theorem setWindow_movedTo {s : State} {x0 y0 x1 y1 : Int} {pointed : Window}
    (h : clipWindow s.st.geomW s.st.geomH x0 y0 x1 y1 = some pointed) (win : Window) (n : Nat) (es : List Event) :
    setWindow x0 y0 x1 y1 (s.movedTo win n es)
      = s.movedTo pointed n (es ++ windowWrites s.cfg s.st.amap s.st.rot pointed) :=
  (setWindow_eq_movedTo (s := s.movedTo win n es) h).trans (movedTo_movedTo ..)

/-- The window reset at the end of RDPIX (R284). -/
theorem setFullWindow_movedTo {s : State} (hw : 0 < s.st.geomW.toNat) (hh : 0 < s.st.geomH.toNat) (win : Window) (n : Nat)
    (es : List Event) :
    setFullWindow (s.movedTo win n es) = s.movedTo (fullWindow s.st.geomW s.st.geomH) n
      (es ++ windowWrites s.cfg s.st.amap s.st.rot (fullWindow s.st.geomW s.st.geomH)) := by
  rw [setFullWindow_of_pos (s := s.movedTo win n es) hw hh, windowGoesOutByFamily]
  exact movedTo_movedTo s win (fullWindow s.st.geomW s.st.geomH) n 0 es _

/-- A GRAM read of m samples at the coming byte k: the command, the dummy bytes and the samples as one read group, which begins where
the reads before it ended (R277, R284). -/
theorem gramRead_movedTo (m : Nat) (s : State) (win : Window) (k : Nat) (es : List Event) :
    (readSamples m (openGramRead (s.movedTo win k es))).1
        = (List.range m).map (fun j => sampleColor s (k + (dummies s.cfg + sampleBytes s.cfg * j)))
    ∧ (readSamples m (openGramRead (s.movedTo win k es))).2.perform [.dir .out]
        = s.movedTo win (k + (dummies s.cfg + sampleBytes s.cfg * m))
          (es ++ readGroup s (gramCommand s.cfg) k (dummies s.cfg + sampleBytes s.cfg * m)) := by
  constructor
  · rw [openGramRead_eq, readSamples_eq]
    refine List.map_congr_left fun j _ => ?_
    rw [sampleColor_eq_sampleFrom, sampleFrom_afterReads]
    exact sampleFrom_afterReads { s with st := { s.st with win := win } } ..
  · rw [gramRead_eq, readBurst, readEvents_movedTo]
    exact afterReads_afterReads ..

/-- The point's window, then a GRAM read of one sample (R285). -/
theorem readPoint_movedTo {s : State} {p : Int × Int} {pointed : Window}
    (h : clipWindow s.st.geomW s.st.geomH p.1 p.2 p.1 p.2 = some pointed) (win : Window) (k : Nat) (es : List Event) :
    readPoint p (s.movedTo win k es) = (sampleColor s (k + dummies s.cfg),
      s.movedTo pointed (k + pointBytes s.cfg)
        (es ++ (windowWrites s.cfg s.st.amap s.st.rot pointed ++ readGroup s (gramCommand s.cfg) k (pointBytes s.cfg)))) := by
  obtain ⟨hsample, hstate⟩ := gramRead_movedTo 1 s pointed k (es ++ windowWrites s.cfg s.st.amap s.st.rot pointed)
  rw [Nat.mul_one, List.append_assoc] at hstate
  rw [readPoint, setWindow_movedTo h]
  exact Prod.ext (List.head_eq_of_cons_eq hsample) hstate

theorem readPoints_append (ps qs : List (Int × Int)) (s : State) :
    readPoints (ps ++ qs) s
      = ((readPoints ps s).1 ++ (readPoints qs (readPoints ps s).2).1, (readPoints qs (readPoints ps s).2).2) := by
  induction ps generalizing s with
  | nil => rfl
  | cons p ps ih => simp [readPoints, ih]

/-- The samples at n points on screen: the k-th read begins where the k-th one before it ended (R285). -/
theorem readPoints_range {s : State} (point : Nat → Int × Int) (window : Nat → Window) (n : Nat)
    (h : ∀ k < n, clipWindow s.st.geomW s.st.geomH (point k).1 (point k).2 (point k).1 (point k).2 = some (window k)) :
    ∃ win, readPoints ((List.range n).map point) s
      = ((List.range n).map fun k => sampleColor s (pointBytes s.cfg * k + dummies s.cfg),
        s.movedTo win (pointBytes s.cfg * n) ((List.range n).flatMap fun k =>
          windowWrites s.cfg s.st.amap s.st.rot (window k)
            ++ readGroup s (gramCommand s.cfg) (pointBytes s.cfg * k) (pointBytes s.cfg))) := by
  induction n with
  | zero => exact ⟨s.st.win, congrArg (Prod.mk []) (movedTo_self s).symm⟩
  | succ n ih =>
    obtain ⟨win, hbefore⟩ := ih fun k hk => h k (by omega)
    refine ⟨window n, ?_⟩
    rw [List.range_succ, List.map_append, readPoints_append, hbefore]
    simp [readPoints, readPoint_movedTo (h n (by omega)), Nat.mul_succ]

/-- The k-th point of a rectangle in row-major order (R284). -/
def rectPoint (x y : Int) (w k : Nat) : Int × Int := (x + (k % w : Nat), y + (k / w : Nat))

theorem rectPoints_succ (x y : Int) (w h : Nat) :
    rectPoints x y w (h + 1) = rectPoints x y w h ++ (List.range w).map fun col : Nat => (x + (col : Int), y + (h : Int)) := by
  simp [rectPoints, List.range_succ, ← List.map_eq_flatMap, Function.comp_def]

theorem rectPoints_eq (x y : Int) {w : Nat} (hw : 0 < w) (h : Nat) :
    rectPoints x y w h = (List.range (w * h)).map (rectPoint x y w) := by
  induction h with
  | zero => rfl
  | succ h ih =>
    have hrow : (List.range w).map (fun col : Nat => (x + (col : Int), y + (h : Int)))
        = (List.range w).map fun col => rectPoint x y w (w * h + col) := by
      refine List.map_congr_left fun col hcol => ?_
      have hlt : col < w := List.mem_range.mp hcol
      rw [rectPoint, Nat.mul_add_mod, Nat.mod_eq_of_lt hlt, Nat.mul_add_div hw, Nat.div_eq_of_lt hlt, Nat.add_zero]
    rw [rectPoints_succ, ih, hrow, Nat.mul_succ, List.range_add, List.map_append, List.map_map]
    rfl

/-! ### RDPIX on the screen (R284, R285) -/

/-- The rectangle of an RDPIX has pixels and lies wholly on screen (R284). -/
structure RectInside (s : State) (x y w h : Half) : Prop where
  width : w ≠ 0
  height : h ≠ 0
  left : 0 ≤ x.toInt
  top : 0 ≤ y.toInt
  right : x.toInt + w.toNat ≤ s.st.geomW.toNat
  bottom : y.toInt + h.toNat ≤ s.st.geomH.toNat

section
variable {s : State} {x y w h : Half}

theorem RectInside.width_pos (inside : RectInside s x y w h) : 0 < w.toNat := toNat_pos_iff.mpr inside.width

theorem RectInside.height_pos (inside : RectInside s x y w h) : 0 < h.toNat := toNat_pos_iff.mpr inside.height

theorem RectInside.geom_pos (inside : RectInside s x y w h) : 0 < s.st.geomW.toNat ∧ 0 < s.st.geomH.toNat := by
  have hw := inside.width_pos
  have hh := inside.height_pos
  obtain ⟨-, -, left, top, right, bottom⟩ := inside
  omega

/-- The rectangle is its own window. -/
theorem RectInside.clipWindow_rect (inside : RectInside s x y w h) :
    clipWindow s.st.geomW s.st.geomH (s16 x) (s16 y) (s16 x + w.toNat - 1) (s16 y + h.toNat - 1)
      = some ⟨x, y, x + w - 1, y + h - 1⟩ := by
  have hw := inside.width_pos
  have hh := inside.height_pos
  obtain ⟨-, -, left, top, right, bottom⟩ := inside
  rw [← s16] at left top right bottom
  rw [clipWindow_of_inside left (by omega) (by omega) top (by omega) (by omega), trunc16_s16, trunc16_s16, trunc16_last,
    trunc16_last]

/-- The window of the k-th pixel of a rectangle (R285). -/
def pixelWindow (x y w : Half) (k : Nat) : Window :=
  let px := x + BitVec.ofNat 16 (k % w.toNat)
  let py := y + BitVec.ofNat 16 (k / w.toNat)
  ⟨px, py, px, py⟩

/-- Each of its points is its own window. -/
theorem RectInside.clipWindow_point (inside : RectInside s x y w h) {k : Nat} (hk : k < w.toNat * h.toNat) :
    clipWindow s.st.geomW s.st.geomH (rectPoint (s16 x) (s16 y) w.toNat k).1 (rectPoint (s16 x) (s16 y) w.toNat k).2
      (rectPoint (s16 x) (s16 y) w.toNat k).1 (rectPoint (s16 x) (s16 y) w.toNat k).2 = some (pixelWindow x y w k) := by
  have hcol : k % w.toNat < w.toNat := Nat.mod_lt k inside.width_pos
  have hrow : k / w.toNat < h.toNat := Nat.div_lt_of_lt_mul hk
  obtain ⟨-, -, left, top, right, bottom⟩ := inside
  rw [← s16] at left top right bottom
  dsimp only [rectPoint, pixelWindow]
  generalize k % w.toNat = col at hcol ⊢
  generalize k / w.toNat = row at hrow ⊢
  rw [Machine.clipWindow_point (by omega) (by omega) (by omega) (by omega), trunc16_s16_add, trunc16_s16_add]

/-- The auto-increment path: one window move, one GRAM read of all samples (R284). -/
theorem RectInside.autoincRead_eq (inside : RectInside s x y w h) :
    autoincRead (s16 x) (s16 y) w.toNat h.toNat s
      = ((List.range (w.toNat * h.toNat)).map fun k => sampleColor s (dummies s.cfg + sampleBytes s.cfg * k),
        s.movedTo ⟨x, y, x + w - 1, y + h - 1⟩ (dummies s.cfg + sampleBytes s.cfg * (w.toNat * h.toNat))
          (windowWrites s.cfg s.st.amap s.st.rot ⟨x, y, x + w - 1, y + h - 1⟩
            ++ readGroup s (gramCommand s.cfg) 0 (dummies s.cfg + sampleBytes s.cfg * (w.toNat * h.toNat)))) := by
  obtain ⟨hcolors, hstate⟩ := gramRead_movedTo (w.toNat * h.toNat) s ⟨x, y, x + w - 1, y + h - 1⟩ 0
    (windowWrites s.cfg s.st.amap s.st.rot ⟨x, y, x + w - 1, y + h - 1⟩)
  simp only [Nat.zero_add] at hcolors hstate
  rw [autoincRead, setWindow_eq_movedTo inside.clipWindow_rect]
  exact Prod.ext hcolors hstate

/-- The per-sample path: a window move and a GRAM read for each point (R285). -/
theorem RectInside.perSampleRead_eq (inside : RectInside s x y w h) : ∃ win,
    perSampleRead (s16 x) (s16 y) w.toNat h.toNat s
      = ((List.range (w.toNat * h.toNat)).map fun k =>
          sampleColor s (pointBytes s.cfg * k + dummies s.cfg),
        s.movedTo win (pointBytes s.cfg * (w.toNat * h.toNat))
          ((List.range (w.toNat * h.toNat)).flatMap fun k => windowWrites s.cfg s.st.amap s.st.rot (pixelWindow x y w k)
            ++ readGroup s (gramCommand s.cfg) (pointBytes s.cfg * k) (pointBytes s.cfg))) := by
  rw [perSampleRead, rectPoints_eq _ _ inside.width_pos]
  exact readPoints_range _ _ _ fun _ => inside.clipWindow_point

theorem RectInside.at_bodyStart (inside : RectInside s x y w h) : RectInside (bodyStart s) x y w h where
  width := inside.width
  height := inside.height
  left := inside.left
  top := inside.top
  right := by simpa using inside.right
  bottom := by simpa using inside.bottom

/-- The samples of RDPIX, by AUTOINC_READ (R284). -/
def readRect (x y : Int) (w h : Nat) (s : State) : List Half × State :=
  if capAutoincRead (capsOf s.cfg) then autoincRead x y w h s else perSampleRead x y w h s

/-- On screen RDPIX reads its samples, sets the full-screen window and responds, whichever path it takes (R284). -/
theorem RectInside.answers (inside : RectInside s x y w h) {win : Window} {n : Nat} {es : List Event} {colors : List Half}
    (hread : readRect (s16 x) (s16 y) w.toNat h.toNat (bodyStart s) = (colors, (bodyStart s).movedTo win n es)) :
    BusAnswers (.rdpix x y w h) s
      (es ++ windowWrites s.cfg s.st.amap s.st.rot (fullWindow s.st.geomW s.st.geomH))
      { s.st with win := fullWindow s.st.geomW s.st.geomH } (packHalves colors) n := by
  have hrect : rectOnScreen (bodyStart s).st.geomW (bodyStart s).st.geomH (s16 x) (s16 y) w.toNat h.toNat = true :=
    rectOnScreen_iff.mpr ⟨inside.left, inside.top, inside.at_bodyStart.right, inside.at_bodyStart.bottom⟩
  have hw := inside.width_pos
  have hh := inside.height_pos
  have hbody : readPixels (s16 x) (s16 y) w.toNat h.toNat (bodyStart s)
      = (setFullWindow (readRect (s16 x) (s16 y) w.toNat h.toNat (bodyStart s)).2).respond
        (packHalves (readRect (s16 x) (s16 y) w.toNat h.toNat (bodyStart s)).1) := by
    rw [readPixels, if_neg (by omega), hrect]
    rfl
  have hfull : setFullWindow ((bodyStart s).movedTo win n es) = (bodyStart s).movedTo (fullWindow s.st.geomW s.st.geomH) n
      (es ++ windowWrites s.cfg s.st.amap s.st.rot (fullWindow s.st.geomW s.st.geomH)) := by
    simpa using setFullWindow_movedTo (s := bodyStart s) inside.at_bodyStart.geom_pos.1 inside.at_bodyStart.geom_pos.2 win n es
  refine busAnswers_of_movedTo rfl (hbody.trans ?_) ?_
  · rw [hread, hfull]
  · refine framable_of_needsSelect ?_
    rw [List.any_append, ← windowGoesOutByFamily s.cfg s.st, windowScript_needsSelect, Bool.or_true]

end

/-- Settles O36: RDPIX takes the auto-increment path. -/
theorem rdpixAutoincrementReadsInARow : Obligations.RdpixAutoincrementReadsInARow := by
  intro s x y w h hauto hw hh left top right bottom
  have inside : RectInside s x y w h := ⟨hw, hh, left, top, right, bottom⟩
  have hpath : readRect (s16 x) (s16 y) w.toNat h.toNat (bodyStart s)
      = autoincRead (s16 x) (s16 y) w.toNat h.toNat (bodyStart s) := if_pos (by rw [bodyStart_cfg]; exact hauto)
  have hread := hpath.trans inside.at_bodyStart.autoincRead_eq
  simp only [bodyStart_cfg, bodyStart_amap, bodyStart_rot, sampleColor_bodyStart, readGroup_bodyStart] at hread
  exact inside.answers hread

/-- Settles O37: RDPIX takes the per-sample path. -/
theorem rdpixPerSampleReprogramsTheCursor : Obligations.RdpixPerSampleReprogramsTheCursor := by
  intro s x y w h hauto hw hh left top right bottom
  have inside : RectInside s x y w h := ⟨hw, hh, left, top, right, bottom⟩
  have hpath : readRect (s16 x) (s16 y) w.toNat h.toNat (bodyStart s)
      = perSampleRead (s16 x) (s16 y) w.toNat h.toNat (bodyStart s) :=
    if_neg (by rw [bodyStart_cfg]; exact ne_true_of_eq_false hauto)
  obtain ⟨win, hsamples⟩ := inside.at_bodyStart.perSampleRead_eq
  have hread := hpath.trans hsamples
  simp only [bodyStart_cfg, bodyStart_amap, bodyStart_rot, sampleColor_bodyStart, readGroup_bodyStart] at hread
  exact inside.answers hread

end Sys2Proof.Machine
end

section
/-! SUPPORT. What a chip answers decides what RDPIX responds (R273 to R285): the sample that stands at a place in the chip's bytes, the
two read paths over one GRAM, and pixels that come back as they were sent; with the settled statements. -/

namespace Sys2Proof.Machine

open Claims

/-! ### A sample among the chip's bytes (R275, R276) -/

/-- The colour of the bytes of one sample (R275, R276). -/
def decodeSample (caps : Word) (bs : List Byte) : Half :=
  if capRead24 caps then decodeSample24 caps (bs.getD 0 0) (bs.getD 1 0) (bs.getD 2 0)
  else decodeSample16 caps (bs.getD 0 0) (bs.getD 1 0)

theorem sampleAt_of_split {s : State} {pre bs post : List Byte} (hs : s.samples = pre ++ bs ++ post) {j : Nat}
    (hj : j < bs.length) : sampleAt s (pre.length + j) = bs.getD j 0 := by
  rw [sampleAt, hs, List.append_assoc, List.getD_append_right _ _ _ _ (Nat.le_add_right ..), Nat.add_sub_cancel_left,
    List.getD_append _ _ _ _ hj, List.getD_eq_getElem _ _ hj, List.getD_eq_getElem _ _ hj]

/-- The sample that begins after some of the coming bytes is decoded from the bytes that follow them. -/
theorem sampleColor_of_split {s : State} {pre bs post : List Byte} (hs : s.samples = pre ++ bs ++ post)
    (hbs : bs.length = sampleBytes s.cfg) : sampleColor s pre.length = decodeSample (capsOf s.cfg) bs := by
  have hat {j : Nat} (hj : j < sampleBytes s.cfg) : sampleAt s (pre.length + j) = bs.getD j 0 :=
    sampleAt_of_split hs (hbs ▸ hj)
  have hsize : sampleBytes s.cfg = if capRead24 (capsOf s.cfg) then 3 else 2 := rfl
  have h0 : sampleAt s pre.length = bs.getD 0 0 := hat (j := 0) (by rw [hsize]; split <;> decide)
  rw [sampleColor_eq_sampleFrom, sampleFrom, decodeSample, h0, hat (j := 1) (by rw [hsize]; split <;> decide)]
  split
  next h24 => rw [hat (j := 2) (by rw [hsize, if_pos h24]; decide)]
  next => rfl

/-- Blocks of one length: the k-th stands behind k of them. -/
theorem range_flatMap_split {f : Nat → List Byte} {size : Nat} (hf : ∀ k, (f k).length = size) {k n : Nat} (hk : k < n) :
    ∃ pre post, (List.range n).flatMap f = pre ++ f k ++ post ∧ pre.length = size * k := by
  obtain ⟨m, rfl⟩ : ∃ m, n = k + 1 + m := ⟨n - (k + 1), by omega⟩
  refine ⟨(List.range k).flatMap f, ((List.range m).map (k + 1 + ·)).flatMap f, ?_, ?_⟩
  · rw [List.range_add, List.range_succ]
    simp
  · simp [List.length_flatMap, hf, Nat.mul_comm]

theorem range_flatMap_length {f : Nat → List Byte} {size : Nat} (hf : ∀ k, (f k).length = size) (n : Nat) :
    ((List.range n).flatMap f).length = size * n := by
  simp [List.length_flatMap, hf, Nat.mul_comm]

/-- Dummy bytes, then the pixels of a GRAM in a row: sample k is pixel k (R284). -/
theorem sampleColor_of_row {s : State} {g : Nat → List Byte} {dummy rest : List Byte} {n : Nat}
    (hg : ∀ k, (g k).length = sampleBytes s.cfg) (hdummy : dummy.length = dummies s.cfg)
    (hs : s.samples = dummy ++ (List.range n).flatMap g ++ rest) {k : Nat} (hk : k < n) :
    sampleColor s (dummies s.cfg + sampleBytes s.cfg * k) = decodeSample (capsOf s.cfg) (g k) := by
  obtain ⟨pre, post, hsplit, hpre⟩ := range_flatMap_split hg hk
  have hplace : (dummy ++ pre).length = dummies s.cfg + sampleBytes s.cfg * k := by rw [List.length_append, hdummy, hpre]
  rw [← hplace]
  exact sampleColor_of_split (post := post ++ rest) (by simp [hs, hsplit]) (hg k)

/-- Dummy bytes before every pixel of a GRAM: sample k is pixel k (R285). -/
theorem sampleColor_of_groups {s : State} {g : Nat → List Byte} {dummy rest : List Byte} {n : Nat}
    (hg : ∀ k, (g k).length = sampleBytes s.cfg) (hdummy : dummy.length = dummies s.cfg)
    (hs : s.samples = ((List.range n).flatMap fun k => dummy ++ g k) ++ rest) {k : Nat} (hk : k < n) :
    sampleColor s (pointBytes s.cfg * k + dummies s.cfg) = decodeSample (capsOf s.cfg) (g k) := by
  have hgroup (k : Nat) : (dummy ++ g k).length = pointBytes s.cfg := by rw [List.length_append, hdummy, hg, pointBytes]
  obtain ⟨pre, post, hsplit, hpre⟩ := range_flatMap_split hgroup hk
  have hplace : (pre ++ dummy).length = pointBytes s.cfg * k + dummies s.cfg := by
    rw [List.length_append, hdummy, hpre]
  rw [← hplace]
  exact sampleColor_of_split (post := post ++ rest) (by simp [hs, hsplit]) (hg k)

/-! ### The two read paths (R284, R285) -/

theorem BusAnswers.resp_eq {i : Instr} {s : State} {es : List Event} {st : StRegs} {resp : List Word} {reads : Nat}
    (answers : BusAnswers i s es st resp reads) :
    ∃ t, exec i s = .next t ∧ t.resp = s.resp ++ resp ∧ t.samples = s.samples.drop reads := by
  obtain ⟨t, ht, -, -, -, -, hresp, -, hsamples, -⟩ := answers
  exact ⟨t, ht, hresp, hsamples⟩

theorem RectInside.autoinc_resp {s : State} {x y w h : Half} (inside : RectInside s x y w h) (hauto : cap s.cfg 0 = true) :
    ∃ t, exec (.rdpix x y w h) s = .next t
      ∧ t.resp = s.resp ++ packHalves ((List.range (w.toNat * h.toNat)).map fun k =>
          sampleColor s (dummies s.cfg + sampleBytes s.cfg * k))
      ∧ t.samples = s.samples.drop (dummies s.cfg + sampleBytes s.cfg * (w.toNat * h.toNat)) :=
  (rdpixAutoincrementReadsInARow s x y w h hauto inside.width inside.height inside.left inside.top inside.right
    inside.bottom).resp_eq

/-- RDPIX is on screen, or answers without a read, and then alike from every state with the same geometry (R284). -/
theorem rdpix_inside_or (s : State) (x y w h : Half) : RectInside s x y w h ∨
    ∃ resp, ∀ s' : State, s'.st.geomW = s.st.geomW → s'.st.geomH = s.st.geomH →
      BusAnswers (.rdpix x y w h) s' [] s'.st resp 0 := by
  by_cases hempty : w = 0 ∨ h = 0
  · exact .inr ⟨[], fun s' _ _ => (rdpixOutsideReadsNothing s' x y w h).1 hempty⟩
  obtain ⟨hw, hh⟩ := not_or.mp hempty
  by_cases hoff : x.toInt < 0 ∨ y.toInt < 0 ∨ x.toInt + w.toNat > s.st.geomW.toNat ∨ y.toInt + h.toNat > s.st.geomH.toNat
  · exact .inr ⟨_, fun s' hgw hgh => (rdpixOutsideReadsNothing s' x y w h).2 hw hh (by rwa [hgw, hgh])⟩
  · exact .inl ⟨hw, hh, by omega, by omega, by omega, by omega⟩

section
variable {c c' : Cfg} (hcaps : c.get 0x01 ^^^ 1 = c'.get 0x01)
include hcaps

/-- No flag above bit 0 changes with AUTOINC_READ (R37). -/
theorem cap_of_autoinc {k : Nat} (hk : 0 < k) : cap c' k = cap c k := by
  rw [cap, ← hcaps, BitVec.getLsbD_xor, BitVec.ofNat_eq_ofNat, BitVec.getLsbD_one]
  simp [hk.ne', cap]

theorem sampleBytes_of_autoinc : sampleBytes c' = sampleBytes c := by
  rw [sampleBytes, sampleBytes, cap_of_autoinc hcaps (by decide)]

theorem dummies_of_autoinc : dummies c' = dummies c := by
  have hfield : (c'.get 0x01).extractLsb' 16 2 = (c.get 0x01).extractLsb' 16 2 := by
    rw [← hcaps, BitVec.extractLsb'_xor]
    exact BitVec.xor_zero
  rw [dummies, dummies, cap_of_autoinc hcaps (by decide), hfield]

theorem decodeSample_of_autoinc : decodeSample (capsOf c') = decodeSample (capsOf c) := by
  have h24 : capRead24 (capsOf c') = capRead24 (capsOf c) := cap_of_autoinc hcaps (k := 1) (by decide)
  have hswap : capReadOrderSwap (capsOf c') = capReadOrderSwap (capsOf c) := cap_of_autoinc hcaps (k := 2) (by decide)
  have hbgr : capBgrRead (capsOf c') = capBgrRead (capsOf c) := cap_of_autoinc hcaps (k := 3) (by decide)
  have h555 : capWire555 (capsOf c') = capWire555 (capsOf c) := cap_of_autoinc hcaps (k := 12) (by decide)
  funext bs
  simp only [decodeSample, decodeSample24, decodeSample16, h24, hswap, hbgr, h555]

end

/-- Settles O38: on screen both paths respond the decoded pixels of the GRAM, and off the screen neither reads. -/
theorem bothReadPathsAnswerAlike : Obligations.BothReadPathsAnswerAlike := by
  intro s s' x y w h g dummy rest rest' hg hdummy hauto hauto' hcaps hgeomW hgeomH hresp hresp' hsamples hsamples'
  obtain inside | ⟨resp, hanswers⟩ := rdpix_inside_or s x y w h
  · obtain ⟨t, ht, htresp, -⟩ := inside.autoinc_resp hauto
    obtain ⟨hw, hh, left, top, right, bottom⟩ := inside
    obtain ⟨t', ht', htresp', -⟩ := (rdpixPerSampleReprogramsTheCursor s' x y w h hauto' hw hh left top
      (by rwa [hgeomW]) (by rwa [hgeomH])).resp_eq
    refine ⟨t, t', ht, ht', ?_⟩
    rw [htresp, htresp', hresp, hresp']
    refine congrArg (fun colors => [] ++ packHalves colors) (List.map_congr_left fun k hk => ?_)
    have hrow := sampleColor_of_row hg hdummy hsamples (List.mem_range.mp hk)
    have hgroup := sampleColor_of_groups (s := s') (by rwa [sampleBytes_of_autoinc hcaps])
      (by rwa [dummies_of_autoinc hcaps]) hsamples' (List.mem_range.mp hk)
    rw [hrow, ← decodeSample_of_autoinc hcaps]
    exact hgroup.symm
  · obtain ⟨t, ht, htresp, -⟩ := (hanswers s rfl rfl).resp_eq
    obtain ⟨t', ht', htresp', -⟩ := (hanswers s' hgeomW hgeomH).resp_eq
    exact ⟨t, t', ht, ht', by rw [htresp, htresp', hresp, hresp']⟩

/-! ### Pixels sent and read back (R273, R278, R284) -/

/-- The data bytes on the bus for some pixels are their bytes on the wire (R273). -/
theorem pixelWrites_dataBytes (c : Cfg) (colors : List Half) {dataByte : Event → Option Byte}
    (hdata : ∀ b, dataByte (.w true b) = some b) :
    (colors.flatMap (pixelWrites c)).filterMap dataByte = colors.flatMap (pixelBytes (capsOf c)) := by
  have hpixel (color : Half) : (pixelWrites c color).filterMap dataByte = pixelBytes (capsOf c) color :=
    List.filterMap_map.trans ((congrArg (List.filterMap · _) (funext hdata)).trans List.filterMap_some)
  induction colors with
  | nil => rfl
  | cons color colors ih => rw [List.flatMap_cons, List.filterMap_append, hpixel, ih, List.flatMap_cons]

theorem range_map_getD {α : Type} (xs : List α) (d : α) : (List.range xs.length).map (xs.getD · d) = xs :=
  List.ext_getElem (by simp) (by simp +contextual)

/-- A chip that gives back the bytes sent for some colours is read as what `f` makes of each, where `f` is what the codec does to a
colour on the way out and back. -/
theorem RectInside.reads_back {s : State} {x y w h : Half} {colors : List Half} {dummy rest : List Byte}
    (inside : RectInside s x y w h) (hauto : cap s.cfg 0 = true) (hcolors : colors.length = w.toNat * h.toNat)
    (hdummy : dummy.length = dummies s.cfg)
    (hsamples : s.samples = dummy ++ colors.flatMap (pixelBytes (capsOf s.cfg)) ++ rest) {t : State}
    (ht : exec (.rdpix x y w h) s = .next t) {f : Half → Half}
    (hlength : ∀ c, (pixelBytes (capsOf s.cfg) c).length = sampleBytes s.cfg)
    (hcodec : ∀ c, decodeSample (capsOf s.cfg) (pixelBytes (capsOf s.cfg) c) = f c) :
    t.resp = s.resp ++ packHalves (colors.map f) ∧ t.samples = rest := by
  obtain ⟨u, hu, hresp, hrest⟩ := inside.autoinc_resp hauto
  cases hu.symm.trans ht
  have hlist := range_map_getD colors 0
  rw [hcolors] at hlist
  rw [← hlist, List.flatMap_map] at hsamples
  have hread {k : Nat} (hk : k < w.toNat * h.toNat) :=
    sampleColor_of_row (fun k => hlength (colors.getD k 0)) hdummy hsamples hk
  constructor
  · rw [hresp]
    refine congrArg (fun colors => s.resp ++ packHalves colors) ?_
    rw [← hlist, List.map_map]
    refine List.map_congr_left fun k hk => ?_
    rw [hread (List.mem_range.mp hk), hcodec]
    rfl
  · rw [hrest, hsamples]
    refine List.drop_left' ?_
    rw [List.length_append, hdummy, range_flatMap_length fun k => hlength _]

section
variable {caps : Word}

/-- The 24-bit path is exact (R278). -/
theorem decodeSample_triplet (h11 : capWire24Only caps = true) (h1 : capRead24 caps = true)
    (horder : capWireBgr caps = capBgrRead caps) (c : Half) :
    (pixelBytes caps c).length = 3 ∧ decodeSample caps (pixelBytes caps c) = c := by
  obtain ⟨b0, b1, b2, hbytes, hdecode⟩ := decodeSample24_enc24 caps c horder
  rw [pixelBytes, if_pos h11, hbytes, decodeSample, if_pos h1]
  exact ⟨rfl, hdecode⟩

/-- The 565 path is exact, the 555 path exact but for the fill of green (R278). -/
theorem decodeSample_word (h11 : capWire24Only caps = false) (h1 : capRead24 caps = false) (h2 : capReadOrderSwap caps = false)
    (h3 : capBgrRead caps = false) (c : Half) :
    (pixelBytes caps c).length = 2
    ∧ decodeSample caps (pixelBytes caps c) = if capWire555 caps then dec555 (enc555 c) else c := by
  have hword (v : Half) : decodeSample caps (halfBytes v) = if capWire555 caps then dec555 v else v := by
    have hbytes : hiByte v ++ loByte v = v := hiByte_append_loByte v
    simp only [decodeSample, decodeSample16, h1, h2, h3]
    exact congrArg (fun v => if capWire555 caps then dec555 v else v) hbytes
  rw [pixelBytes, h11]
  cases h555 : capWire555 caps with
  | false => exact ⟨rfl, (hword c).trans (if_neg (by simp [h555]))⟩
  | true => exact ⟨rfl, (hword (enc555 c)).trans (if_pos h555)⟩

end

/-- Settles O39: on each path RDPIX reads what the codec of that path makes of the colours sent. -/
theorem pushedPixelsReadBack : Obligations.PushedPixelsReadBack := by
  intro s x y w h colors dummy rest hauto hw hh left top right bottom hcolors hdummy hsamples
  rw [pixelWrites_dataBytes s.cfg colors fun _ => rfl] at hsamples
  have inside : RectInside s x y w h := ⟨hw, hh, left, top, right, bottom⟩
  obtain ⟨t, ht, -⟩ := inside.autoinc_resp hauto
  have hread (f : Half → Half) := inside.reads_back hauto hcolors hdummy hsamples ht (f := f)
  refine ⟨t, ht, fun h11 h1 horder => ?_, fun h11 h12 h1 h2 h3 => ?_, fun h11 h12 h1 h2 h3 => ?_⟩
  · have hpixel := decodeSample_triplet (caps := capsOf s.cfg) h11 h1 horder
    have hsize : sampleBytes s.cfg = 3 := if_pos h1
    simpa using hread id (fun c => (hpixel c).1.trans hsize.symm) (fun c => (hpixel c).2)
  all_goals
    have hpixel := decodeSample_word (caps := capsOf s.cfg) h11 h1 h2 h3
    have hsize : sampleBytes s.cfg = 2 := if_neg (ne_true_of_eq_false h1)
    have h555 : capWire555 (capsOf s.cfg) = cap s.cfg 12 := rfl
    simpa [h555, h12] using hread _ (fun c => (hpixel c).1.trans hsize.symm) (fun c => (hpixel c).2)

end Sys2Proof.Machine
end

section
/-! SUPPORT. The control requests (R320 to R325): what each does at a legal and at a reserved index, the defined bits as they are
stored, and the state registers in their bit positions; with the settled statements. -/

namespace Sys2Proof.Machine

open Claims

/-! ### DELAY (R325, R326) -/

/-- A wait moves no pin (R326). -/
theorem delayMs_pins (n : Nat) (p : Pins) : (delayMs n).foldl Pins.after p = p := by
  unfold delayMs
  split <;> rfl

theorem perform_delayMs (s : State) (n : Nat) : s.perform (delayMs n) = { s with trace := s.trace ++ wait n } := by
  rw [State.perform, delayMs_pins, delayMs_eq_wait]

/-- Settles O40: a DELAY's script is its wait, which leaves the pins. -/
theorem plainControlRequests : Obligations.PlainControlRequests :=
  fun s ms => ⟨rfl, rfl, congrArg Host.Outcome.next (perform_delayMs s ms.toNat)⟩

/-! ### A register by its index (R35, R321, R322, R323) -/

theorem exec_wrcfg {index : Byte} {i : Fin 31} (hi : index.toNat = i) (v : Word) (s : State) :
    exec (.wrcfg index v) s = .next (writeCfg i v s) := by
  simp only [exec, execWrcfg, cfgIndex_some.mpr hi]

theorem exec_wrcfg_reserved {index : Byte} (hi : index.toNat > maxCfgIndex) (v : Word) (s : State) :
    exec (.wrcfg index v) s = .next (raiseIllegal s) := by
  simp only [exec, execWrcfg, cfgIndex_none.mpr hi]

theorem exec_rdcfg {index : Byte} {i : Fin 31} (hi : index.toNat = i) (s : State) :
    exec (.rdcfg index) s = .next (s.respond [cfgRead s.cfg i]) := by
  simp only [exec, execRdcfg, cfgIndex_some.mpr hi]

theorem exec_rdcfg_reserved {index : Byte} (hi : index.toNat > maxCfgIndex) (s : State) :
    exec (.rdcfg index) s = .next (raiseIllegal s) := by
  simp only [exec, execRdcfg, cfgIndex_none.mpr hi]

theorem exec_rdstate {index : Byte} (hi : index.toNat ≤ maxStIndex) (s : State) :
    exec (.rdstate index) s = .next (s.respond [stRead s.st s.pins index.toNat]) := by
  rw [exec, execRdstate, if_neg (Nat.not_lt_of_ge hi)]

theorem exec_rdstate_reserved {index : Byte} (hi : index.toNat > maxStIndex) (s : State) :
    exec (.rdstate index) s = .next (raiseIllegal s) := by
  rw [exec, execRdstate, if_pos hi]

/-! ### What WRCFG stores (R37, R321) -/

theorem cfgStored_of_ne {i : Fin 31} (hi : i ≠ cfgCAPS) (v : Word) : cfgStored i v = v &&& definedMask i := if_neg hi

/-- DUMMY lies inside CAPS's defined bits (R37). -/
theorem capDummy_defined (v : Word) : capDummy (v &&& definedMask cfgCAPS) = (v.extractLsb' 16 2).toNat := by
  have hmask : (definedMask cfgCAPS).extractLsb' 16 2 = BitVec.allOnes 2 := by decide
  rw [capDummy, BitVec.extractLsb'_and, hmask, BitVec.and_allOnes]

/-- Clearing bits that are all set is toggling them. -/
theorem and_not_eq_xor_of_and_eq {w : Nat} {v m : BitVec w} (h : v &&& m = m) : v &&& ~~~m = v ^^^ m := by
  ext k hk
  have hbit : (v &&& m)[k] = m[k] := congrArg (·[k]) h
  simp only [BitVec.getElem_and, BitVec.getElem_not, BitVec.getElem_xor] at hbit ⊢
  revert hbit
  cases v[k] <;> cases m[k] <;> decide

/-- With DUMMY = 3 its low bit, CAPS bit 16, is set. -/
theorem defined_bit16 {v : Word} (h : (v.extractLsb' 16 2).toNat = 3) :
    v &&& 0x0007FFFF &&& 0x00010000 = (0x00010000 : Word) := by
  have hfield : v.extractLsb' 16 2 = 3 := BitVec.eq_of_toNat_eq h
  have hbit : v.getLsbD 16 = true := by simpa using congrArg (·.getLsbD 0) hfield
  calc v &&& 0x0007FFFF &&& 0x00010000
    _ = v &&& BitVec.twoPow 32 16 := BitVec.and_assoc ..
    _ = 0x00010000 := by rw [BitVec.and_twoPow, if_pos hbit]; rfl

theorem cfgStored_caps (v : Word) : cfgStored cfgCAPS v =
    if (v.extractLsb' 16 2).toNat = 3 then (v &&& 0x0007FFFF) ^^^ 0x00010000 else v &&& 0x0007FFFF := by
  rw [cfgStored, if_pos rfl, legalCaps, capDummy_defined]
  split
  next h => exact and_not_eq_xor_of_and_eq (defined_bit16 h)
  next => rfl

theorem writeCfg_get_same (i : Fin 31) (v : Word) (s : State) : (writeCfg i v s).cfg.get i = cfgStored i v :=
  (cfgRead_set s.cfg i i _).trans (if_pos rfl)

theorem writeCfg_get_of_ne {i j : Fin 31} (hj : j ≠ i) (v : Word) (s : State) : (writeCfg i v s).cfg.get j = s.cfg.get j :=
  (cfgRead_set s.cfg i j _).trans (if_neg hj)

/-- Settles O41: the register of the index holds `cfgStored`, and no other part of the state changes. -/
theorem wrcfgStoresDefinedBits : Obligations.WrcfgStoresDefinedBits := by
  intro s index v
  constructor
  · intro i hi
    refine ⟨writeCfg i v s, exec_wrcfg hi v s, fun hne => ?_, fun hcaps => ?_, fun j hj => writeCfg_get_of_ne hj v s, rfl⟩
    · rw [writeCfg_get_same, cfgStored_of_ne hne]
    · rw [writeCfg_get_same, hcaps, cfgStored_caps]
  · intro hi
    exact exec_wrcfg_reserved hi v s

/-! ### What RDCFG and RDSTATE respond (R51, R322, R323) -/

/-- Settles O43, by the two cases of the index. -/
theorem rdcfgRespondsWithTheRegister : Obligations.RdcfgRespondsWithTheRegister :=
  fun s _ => ⟨fun _ hi => exec_rdcfg hi s, fun hi => exec_rdcfg_reserved hi s⟩

theorem statusWord_of_out (st : StRegs) {p : Pins} (hdir : p.dir = .out) :
    statusWord st p = (if st.ill then 1 else 0) ||| (if st.busReady then 2 else 0) := by
  rw [statusWord, statusDir, hdir]
  cases st.ill <;> cases st.busReady <;> decide

theorem zext32_eq (v : Half) : zext32 v = (0 : Half) ++ v := BitVec.setWidth_eq_append (by decide)

theorem ofBool_setWidth (b : Bool) : (BitVec.ofBool b).setWidth 32 = if b then 1 else 0 := by cases b <;> decide

/-- The model's state registers are R51's, with the direction OUT (STATUS.DIR = 0). -/
theorem stRead_eq_stWord (st : StRegs) {p : Pins} (hdir : p.dir = .out) : ∀ i, stRead st p i = stWord st i
  | 0x00 => statusWord_of_out st hdir
  | 0x01 => (BitVec.ofNat_toNat 32 st.rot).symm
  | 0x02 | 0x03 | 0x04 | 0x05 | 0x06 | 0x07 | 0x0A => rfl
  | 0x08 => zext32_eq st.amap.mw
  | 0x09 => BitVec.setWidth_eq_append (by decide)
  | 0x0B => zext32_eq st.vsp
  | 0x0C => ofBool_setWidth st.inv
  | _ + 13 => rfl

/-- Settles O44, by the two cases of the index and R51's field table. -/
theorem rdstateRespondsWithTheFields : Obligations.RdstateRespondsWithTheFields := by
  refine fun s index => ⟨fun hi hdir => ?_, fun hi => exec_rdstate_reserved hi s⟩
  rw [exec_rdstate hi, stRead_eq_stWord s.st hdir]
  rfl

end Sys2Proof.Machine
end

section
/-! SUPPORT. The one error of TFTBUS and the step as a whole (R340, R341, R371): every request, frame and step answers a next state, an
illegal frame is dropped whole, and STATUS.ILL is cleared by CLRSTAT and reset only; with the settled statements. -/

namespace Sys2Proof.Machine

open Claims

/-! ### No fault and no refusal (R340) -/

/-- A bus request is a transaction, which always completes (R141); a reserved index of a register request is an illegal request, not a
fault (R321 to R323). -/
theorem exec_goesOn (i : Instr) (s : State) : ∃ t, exec i s = .next t := by
  by_cases hi : isBusRequest i = true
  · exact ⟨_, exec_eq_busRun hi s⟩
  cases i with
  | wrcmd | wrdata | wrdata8 | rdword | wrreg | wrregp | rdreg | rdreg32 | rdreg40 | inittbl8 | inittbl16 | setrot | setwin
  | invert | vscroll | pushpix | wrpix | rdpix => exact absurd rfl hi
  | nop | clrstat | delay | busreset => exact ⟨_, rfl⟩
  | wrcfg index v =>
    cases hk : cfgIndex index with
    | none => exact ⟨_, exec_wrcfg_reserved (cfgIndex_none.mp hk) v s⟩
    | some k => exact ⟨_, exec_wrcfg (cfgIndex_some.mp hk) v s⟩
  | rdcfg index =>
    cases hk : cfgIndex index with
    | none => exact ⟨_, exec_rdcfg_reserved (cfgIndex_none.mp hk) s⟩
    | some k => exact ⟨_, exec_rdcfg (cfgIndex_some.mp hk) s⟩
  | rdstate index =>
    obtain hindex | hindex := Nat.lt_or_ge maxStIndex index.toNat
    · exact ⟨_, exec_rdstate_reserved hindex s⟩
    · exact ⟨_, exec_rdstate hindex s⟩

theorem runFrame_ok {f : Frame} {i : Instr} (h : decode f = .ok i) (s : State) : runFrame f s = exec i s := by
  simp only [runFrame, h]

theorem runFrame_error {f : Frame} {e : DecodeError} (h : decode f = .error e) (s : State) :
    runFrame f s = .next (raiseIllegal s) := by
  simp only [runFrame, h]

theorem runFrame_goesOn (f : Frame) (s : State) : ∃ t, runFrame f s = .next t := by
  cases hdec : decode f with
  | error e => exact ⟨_, runFrame_error hdec s⟩
  | ok i =>
    rw [runFrame_ok hdec]
    exact exec_goesOn i s

theorem runInput_goesOn (i : Input) (s : State) : ∃ t, runInput i s = .next t := by
  cases i with
  | frame f => exact runFrame_goesOn f s
  | reset => exact ⟨_, rfl⟩
  | resetDuring f k =>
    obtain ⟨u, hu⟩ := runFrame_goesOn f s
    exact ⟨cutByReset k s u, by simp only [runInput, runFrameCut, hu]⟩

/-! ### The step by the inbox (R88, R371) -/

theorem step_nil {s : State} (hin : s.inbox = []) : step s = .next s := by simp only [step, hin]

theorem step_cons {s : State} {i : Input} {rest : List Input} (hin : s.inbox = i :: rest) :
    step s = runInput i (s.accept rest) := by
  simp only [step, hin]

/-- Settles O7: an empty inbox is waiting, and whatever input comes first is performed to a next state. -/
theorem stepAlwaysGoesOn : Obligations.StepAlwaysGoesOn := by
  refine ⟨fun s hin => step_nil hin, fun s => ?_⟩
  cases hin : s.inbox with
  | nil => exact ⟨s, step_nil hin⟩
  | cons i rest =>
    rw [step_cons hin]
    exact runInput_goesOn i (s.accept rest)

/-! ### STATUS.ILL (R341, R324, R118) -/

/-- No bus request owns ILL. -/
theorem RegsAfter.ill {c : Cfg} {i : Instr} {st st' : StRegs} (regs : RegsAfter c st i st') : st'.ill = st.ill := by
  cases regs with
  | same | setrot | invert | vscroll => rfl
  | setwin moved | wrpix moved | rdpix moved => obtain ⟨win, rfl, -⟩ := moved; rfl

/-- Of the well-formed requests only CLRSTAT changes ILL (R324); a reserved index, which raises it, is not well-formed. -/
theorem exec_ill {i : Instr} {s t : State} (h : exec i s = .next t) (hwf : i.wellFormed = true) :
    t.st.ill = if i = .clrstat then false else s.st.ill := by
  cases exec_to h with
  | bus hi ran =>
    have hne : i ≠ .clrstat := by rintro rfl; cases hi
    rw [if_neg hne]
    exact ran.regs.ill
  | nop | wrcfg | rdcfg | rdstate | clrstat | delay | busreset => rfl
  | wrcfgReserved _ hk | rdcfgReserved hk => exact absurd (of_decide_eq_true hwf) (Nat.not_le_of_gt (cfgIndex_none.mp hk))
  | rdstateReserved hindex => exact absurd (of_decide_eq_true hwf) (Nat.not_le_of_gt hindex)

/-- An illegal frame raises ILL and does nothing else (R118, R341). -/
theorem runFrame_illegal {f : Frame} (h : ¬ frameLegal f) (s : State) : runFrame f s = .next (raiseIllegal s) := by
  cases hdec : decode f with
  | error e => exact runFrame_error hdec s
  | ok i => exact absurd ((frameDecodesIffLegal f).mp ⟨i, hdec⟩) h

/-- Only CLRSTAT's frame clears ILL: no other frame decodes to CLRSTAT (R116, R324). -/
theorem runFrame_keeps_ill {f : Frame} {s t : State} (hf : f ≠ encode .clrstat) (h : runFrame f s = .next t)
    (hill : s.st.ill = true) : t.st.ill = true := by
  obtain rfl | ⟨i, hdec, hexec⟩ := runFrame_to h
  · rfl
  · obtain ⟨hwf, henc⟩ := encodeInvertsDecode f i hdec
    have hi : i ≠ .clrstat := by rintro rfl; exact hf henc.symm
    rw [exec_ill hexec hwf, if_neg hi, hill]

/-- Settles O8: what does not decode raises ILL, and what decodes leaves ILL to CLRSTAT, whose frame is the only one for it. -/
theorem illegalFrameIsDroppedWhole : Obligations.IllegalFrameIsDroppedWhole := by
  refine ⟨fun s f rest hin hf => ?_, fun s t f rest hin hf h hill => ?_, fun s i t => exec_ill, fun s rest hin => ?_⟩
  · exact (step_cons hin).trans (runFrame_illegal hf (s.accept rest))
  · exact runFrame_keeps_ill hf ((step_cons hin).symm.trans h) hill
  · exact ⟨resetInput (s.accept rest), step_cons hin, rfl⟩

end Sys2Proof.Machine
end

section
/-! SUPPORT. Bring-up, the reset input and the byte counts of a window write (R370, R372, R390): BUSRESET as one next state, a reset
between and inside requests, and the write cycles of the window script by family; with the settled statements. -/

namespace Sys2Proof.Machine

open Claims

/-! ### BUSRESET (R327, R372) -/

/-- Settles O15: bring-up plays its script, which leaves the pins idle whatever they were. -/
theorem busresetBringsTheBusUp : Obligations.BusresetBringsTheBusUp := by
  intro s
  have hup : bringUp s = { s with
      trace := s.trace ++ bringUpEvents s.cfg
      pins := idlePins s.pins.dout
      st := { s.st with busReady := true } } := by
    rw [← bringUpScript_eq, ← bringUpScript_pins s.cfg s.pins]
    rfl
  exact congrArg Host.Outcome.next hup

/-! ### The reset input (R370, R348) -/

/-- Performing a frame only appends events; a frame dropped whole appends none (R86, R341). -/
theorem runFrame_appends {f : Frame} {s t : State} (h : runFrame f s = .next t) : ∃ es, t.trace = s.trace ++ es := by
  obtain rfl | ⟨i, -, hi⟩ := runFrame_to h
  · exact ⟨[], (List.append_nil s.trace).symm⟩
  · obtain ⟨es, htrace, -⟩ := pinsReplayTheTrace i s t hi
    exact ⟨es, htrace⟩

/-- Of the events of a request that the reset input cuts after k of them, the first k stay (R370). -/
theorem cutByReset_trace (k : Nat) {s t : State} {es : List Event} (h : t.trace = s.trace ++ es) :
    (cutByReset k s t).trace = s.trace ++ es.take k := by
  rw [cutByReset, resetInput_trace, h, List.drop_left]

theorem step_resetDuring {s u : State} {f : Frame} {k : Nat} {rest : List Input} (hin : s.inbox = .resetDuring f k :: rest)
    (h : runFrame f (s.accept rest) = .next u) : step s = .next (cutByReset k (s.accept rest) u) := by
  rw [step_cons hin]
  simp only [runInput, runFrameCut, h]

/-- Settles O10: both forms end in `resetInput`, and the cut one keeps the first events of the request run whole. -/
theorem resetInputAbortsAndResets : Obligations.ResetInputAbortsAndResets := by
  refine ⟨fun s rest hin => ⟨_, step_cons hin, rfl, rfl, rfl, rfl, rfl, rfl⟩, fun s u f k rest hin hwhole => ?_⟩
  have hrun : runFrame f (s.accept rest) = .next u := hwhole
  obtain ⟨es, htrace⟩ := runFrame_appends hrun
  exact ⟨_, es, step_resetDuring hin hrun, htrace, cutByReset_trace k htrace, rfl, rfl, rfl, rfl, rfl⟩

/-! ### The write cycles of a window write (R231, R232, R390) -/

@[simp] theorem writeCycles_map_write (rs : Bool) (bs : List Byte) : writeCycles (bs.map (.w rs)) = bs.length := by
  induction bs with
  | nil => rfl
  | cons b bs ih => rw [List.map_cons, writeCycles_write, ih, List.length_cons]

/-- Without PARAM_ADDR_INC the command goes out once, then a byte per parameter (R171). -/
theorem writeCycles_writeRegisterParams {c : Cfg} (hinc : capParamAddrInc (capsOf c) = false) (cmd : Half) (params : List Byte) :
    writeCycles (writeRegisterParams c cmd params) = 2 + params.length := by
  rw [writeRegisterParams_plain c cmd params hinc, writeCycles_append, writeCycles_writeCommand, writeCycles_map_write]

/-- Two registers of four parameter bytes each, and with SPLIT_CTRL the two cursor registers of two each (R231). -/
theorem writeCycles_writeWindowUnified {c : Cfg} (hinc : capParamAddrInc (capsOf c) = false) (m : RegMap) (v : Window) :
    writeCycles (writeWindowUnified c m v) = if capSplitCtrl (capsOf c) then 20 else 12 := by
  unfold writeWindowUnified
  split <;> simp [writeCycles_writeRegisterParams hinc, halfBytes]

@[simp] theorem writeCycles_writeBoundary (startReg endReg start fin : Half) :
    writeCycles (writeBoundary startReg endReg start fin) = if startReg = endReg then 4 else 8 := by
  unfold writeBoundary
  split <;> simp

/-- The cursor's two registers, and unless the window is a point the boundaries of both axes (R232). -/
theorem writeCycles_writeWindowLegacy (m : RegMap) (v : Window) (single : Bool) :
    writeCycles (writeWindowLegacy m v single)
      = 8 + if single then 0 else (if m.xs = m.xe then 4 else 8) + (if m.ys = m.ye then 4 else 8) := by
  unfold writeWindowLegacy
  cases single <;> simp [← Nat.add_assoc]

theorem windowScript_unified {c : Cfg} (hunified : capUnified (capsOf c) = true) (st : StRegs) (win : Window) :
    windowScript c st win = writeWindowUnified c st.amap (wireCoords c st.rot win) := if_pos hunified

theorem windowScript_legacy {c : Cfg} (hlegacy : capUnified (capsOf c) = false) (st : StRegs) (win : Window) :
    windowScript c st win
      = writeWindowLegacy st.amap (wireCoords c st.rot win) (win.x0 == win.x1 && win.y0 == win.y1) :=
  if_neg (ne_true_of_eq_false hlegacy)

/-- Settles O55: the unified and the legacy script by their registers, and SETWIN's answer, whose framing adds no write cycle. -/
theorem windowByteCounts : Obligations.WindowByteCounts := by
  refine ⟨fun c st v => ⟨fun hunified hinc => ?_, fun hlegacy hx hy => ?_, fun hlegacy hrect => ?_⟩,
    fun s x0 y0 x1 y1 hw hh hx hy hx1 hy1 hx0 hy0 => ?_⟩
  · rw [windowScript_unified hunified]
    exact writeCycles_writeWindowUnified hinc ..
  · rw [windowScript_legacy hlegacy, writeCycles_writeWindowLegacy, if_pos (by simp [hx, hy])]
  · rw [windowScript_legacy hlegacy, writeCycles_writeWindowLegacy, if_neg (by simpa using hrect), ← Nat.add_assoc]
  · have answers := setwinClipsOrDoesNothing s x0 y0 x1 y1
    dsimp only at answers
    split at answers
    next hno => omega
    next =>
      obtain ⟨t, hexec, htrace, -, hst, -⟩ := answers
      refine ⟨t, _, hexec, htrace, ?_⟩
      rw [writeCycles_busTrace, hst, windowGoesOutByFamily]

end Sys2Proof.Machine
end
